-- ==== Sys2Proof/Word.lean ====
section
/-! DEFINITION. The words of BCQ: the command and response word, the byte, the palette index, the assignment
entry and the RGB triple (spec/00_scope.md R7 and R9, spec/10_state.md R21 to R39). -/

namespace Sys2Proof

/-- A command word on the `cmd` port, and the response register `RESP` (R25, R90). -/
abbrev Word32 := BitVec 32

/-- One byte: an element of `PIX`, `BITMAP` and `CRAM`, and one colour channel (R60, R62). -/
abbrev Byte := BitVec 8

/-- A palette index, 0 to 15: the register `BGIDX` and the nibbles of `ASG` and `CRAM` (R23, R35, R37). -/
abbrev Idx := BitVec 4

/-- One entry of the assignment memory `ASG`: `n0` in bits 3:0, `n1` in 7:4, `n2` in 11:8 (R37). -/
abbrev AsgEntry := BitVec 12

/-- An RGB triple of unsigned bytes, the spec's `(r, g, b)` (R9, R62). -/
structure Rgb where
  /-- the red channel -/
  r : Byte
  /-- the green channel -/
  g : Byte
  /-- the blue channel -/
  b : Byte
deriving DecidableEq, Repr, Inhabited

/-- The field `n0` of an assignment entry: hires *first*, multicolour local 0 (R37). -/
abbrev asgN0 (e : AsgEntry) : Idx := e.extractLsb' 0 4

/-- The field `n1` of an assignment entry: hires *second*, multicolour local 1 (R37). -/
abbrev asgN1 (e : AsgEntry) : Idx := e.extractLsb' 4 4

/-- The field `n2` of an assignment entry: 0 in hires mode, multicolour local 2 (R37). -/
abbrev asgN2 (e : AsgEntry) : Idx := e.extractLsb' 8 4

end Sys2Proof
end

