-- ==== Sys2Proof/Syntax.lean ====
section
/-! DEFINITION. The commands of BCQ, one constructor per row of spec/opcode_table.json (spec/30_encoding.md R93). An operand
has exactly the width of its field (R91, R92), so an operand that does not fit its field cannot be written. -/

namespace Sys2Proof

/-- The twenty commands (R93). -/
inductive Instr where
  /-- `NOP` (R260). -/
  | nop
  /-- `SETW imm`: a pixel count (R230). -/
  | setw (imm : BitVec 16)
  /-- `SETH imm`: a pixel count (R231). -/
  | seth (imm : BitVec 16)
  /-- `SETMODE m`: `mc = cw[0]`, `strict = cw[1]` (R232). -/
  | setmode (mc strict : Bool)
  /-- `SETBG i`: a palette index (R233). -/
  | setbg (i : BitVec 4)
  /-- `SETPTR a`: a byte address in `PIX` (R234). -/
  | setptr (a : BitVec 18)
  /-- `WRPIX v`: a data byte (R235). -/
  | wrpix (v : BitVec 8)
  /-- `RDPIX` (R236). -/
  | rdpix
  /-- `RDBMP a`: a byte address in `BITMAP` (R237). -/
  | rdbmp (a : BitVec 13)
  /-- `RDCRAM a`: a byte address in `CRAM` (R238). -/
  | rdcram (a : BitVec 10)
  /-- `RDASG n`: an entry index in `ASG` (R239). -/
  | rdasg (n : BitVec 11)
  /-- `RDDIM` (R240). -/
  | rddim
  /-- `RDPAL i`: a palette index (R126). -/
  | rdpal (i : BitVec 4)
  /-- `NEAREST r, g, b`: one colour (R125). -/
  | nearest (r g b : BitVec 8)
  /-- `DITHER` (R140). -/
  | dither
  /-- `REDUCE` (R160). -/
  | reduce
  /-- `ENCODE` (R210). -/
  | encode
  /-- `RDSTAT` (R261). -/
  | rdstat
  /-- `RDERR` (R262). -/
  | rderr
  /-- `SRESET` (R263). -/
  | sreset
deriving DecidableEq, Repr

/-- The mnemonic of a command, as spec/opcode_table.json spells it (R93). -/
def Instr.mnemonic : Instr → String
  | .nop => "NOP"
  | .setw _ => "SETW"
  | .seth _ => "SETH"
  | .setmode _ _ => "SETMODE"
  | .setbg _ => "SETBG"
  | .setptr _ => "SETPTR"
  | .wrpix _ => "WRPIX"
  | .rdpix => "RDPIX"
  | .rdbmp _ => "RDBMP"
  | .rdcram _ => "RDCRAM"
  | .rdasg _ => "RDASG"
  | .rddim => "RDDIM"
  | .rdpal _ => "RDPAL"
  | .nearest _ _ _ => "NEAREST"
  | .dither => "DITHER"
  | .reduce => "REDUCE"
  | .encode => "ENCODE"
  | .rdstat => "RDSTAT"
  | .rderr => "RDERR"
  | .sreset => "SRESET"

end Sys2Proof
end

