-- ==== Sys2Proof/WellFormed.lean ====
section
/-! DEFINITION. Well-formed commands: every operand lies in the range that its command accepts, whatever the state. The
field widths are kept by the types of `Instr`; what remains are the four operand ranges of spec/30_encoding.md R94, which are no
part of decoding. A command that is not well-formed still decodes and still runs: it raises `IllegalCommandError` reason 3. -/

namespace Sys2Proof

/-- The operand is in range: `SETW` at most 320, `SETH` at most 200, `RDBMP` below 8000, `RDCRAM` below 1000 (R94, R276). -/
def Instr.wellFormed : Instr → Bool
  | .setw imm => decide (imm.toNat ≤ 320)
  | .seth imm => decide (imm.toNat ≤ 200)
  | .rdbmp a => decide (a.toNat < 8000)
  | .rdcram a => decide (a.toNat < 1000)
  | .nop | .setmode _ _ | .setbg _ | .setptr _ | .wrpix _ | .rdpix | .rdasg _ | .rddim | .rdpal _
  | .nearest _ _ _ | .dither | .reduce | .encode | .rdstat | .rderr | .sreset => true

end Sys2Proof
end

