-- ==== Sys2Proof/Decode.lean ====
section
/-! DEFINITION. The command decoder and the encoder (spec/30_encoding.md R90 to R96). Decoding is total on 32-bit words: it
gives a command, or says which of the two ways the word spells none. -/

namespace Sys2Proof

/-- Why a word spells no command (R94); the reason number goes to `ERRINFO.hi` (R276). -/
inductive IllegalWord where
  /-- `Illegal(1)`: the opcode byte is not in the opcode table (R95). -/
  | unknownOpcode
  /-- `Illegal(2)`: the opcode is known and a reserved bit of its format is 1 (R96). -/
  | reservedBit
deriving DecidableEq, Repr

/-- The answer of the decoder (R94). -/
inductive Decoded where
  /-- the word spells this command -/
  | command (i : Instr)
  /-- the word spells no command -/
  | illegal (why : IllegalWord)
deriving DecidableEq, Repr

/-- `op = cw[31:24]` (R90). -/
def opField (cw : Word32) : Byte := cw.extractLsb' 24 8

/-- `arg = cw[23:0]` (R90). -/
def argField (cw : Word32) : BitVec 24 := cw.extractLsb' 0 24

/-- Format `Z`: all 24 argument bits must be 0 (R91). -/
def decodeZ (i : Instr) (arg : BitVec 24) : Decoded :=
  if arg = 0 then .command i else .illegal .reservedBit

/-- Format `U<n>`: `imm = cw[n-1:0]`, and `cw[23:n]` must be 0 (R91, R92). -/
def decodeU (n : Nat) (mk : BitVec n → Instr) (arg : BitVec 24) : Decoded :=
  if arg >>> n = 0 then .command (mk (arg.setWidth n)) else .illegal .reservedBit

/-- Format `M`: `mc = cw[0]`, `strict = cw[1]`, and `cw[23:2]` must be 0 (R91). -/
def decodeM (arg : BitVec 24) : Decoded :=
  if arg >>> 2 = 0 then .command (.setmode (arg.getLsbD 0) (arg.getLsbD 1)) else .illegal .reservedBit

/-- Format `C`: `r = cw[23:16]`, `g = cw[15:8]`, `b = cw[7:0]`, no reserved bit (R91). -/
def decodeC (arg : BitVec 24) : Decoded :=
  .command (.nearest (arg.extractLsb' 16 8) (arg.extractLsb' 8 8) (arg.extractLsb' 0 8))

/-- The decoder, by opcode (R93, R94). -/
def decode (cw : Word32) : Decoded :=
  let arg := argField cw
  match opField cw with
  | 0x00#8 => decodeZ .nop arg
  | 0x01#8 => decodeU 16 .setw arg
  | 0x02#8 => decodeU 16 .seth arg
  | 0x03#8 => decodeM arg
  | 0x04#8 => decodeU 4 .setbg arg
  | 0x05#8 => decodeU 18 .setptr arg
  | 0x06#8 => decodeU 8 .wrpix arg
  | 0x07#8 => decodeZ .rdpix arg
  | 0x08#8 => decodeU 13 .rdbmp arg
  | 0x09#8 => decodeU 10 .rdcram arg
  | 0x0A#8 => decodeU 11 .rdasg arg
  | 0x0B#8 => decodeZ .rddim arg
  | 0x0C#8 => decodeU 4 .rdpal arg
  | 0x10#8 => decodeC arg
  | 0x11#8 => decodeZ .dither arg
  | 0x12#8 => decodeZ .reduce arg
  | 0x13#8 => decodeZ .encode arg
  | 0x20#8 => decodeZ .rdstat arg
  | 0x21#8 => decodeZ .rderr arg
  | 0x2F#8 => decodeZ .sreset arg
  | _ => .illegal .unknownOpcode

/-- A word from its two fields, the opcode in the high byte (R90). -/
def cmdWord (op : Byte) (arg : BitVec 24) : Word32 := op ++ arg

/-- The encoder: the one word that spells a command (R91 to R93). -/
def encode : Instr → Word32
  | .nop => cmdWord 0x00 0
  | .setw imm => cmdWord 0x01 (imm.setWidth 24)
  | .seth imm => cmdWord 0x02 (imm.setWidth 24)
  | .setmode mc strict => cmdWord 0x03 ((BitVec.ofBool strict ++ BitVec.ofBool mc).setWidth 24)
  | .setbg i => cmdWord 0x04 (i.setWidth 24)
  | .setptr a => cmdWord 0x05 (a.setWidth 24)
  | .wrpix v => cmdWord 0x06 (v.setWidth 24)
  | .rdpix => cmdWord 0x07 0
  | .rdbmp a => cmdWord 0x08 (a.setWidth 24)
  | .rdcram a => cmdWord 0x09 (a.setWidth 24)
  | .rdasg n => cmdWord 0x0A (n.setWidth 24)
  | .rddim => cmdWord 0x0B 0
  | .rdpal i => cmdWord 0x0C (i.setWidth 24)
  | .nearest r g b => cmdWord 0x10 (r ++ g ++ b)
  | .dither => cmdWord 0x11 0
  | .reduce => cmdWord 0x12 0
  | .encode => cmdWord 0x13 0
  | .rdstat => cmdWord 0x20 0
  | .rderr => cmdWord 0x21 0
  | .sreset => cmdWord 0x2F 0

/-- One row of the opcode table: a word spells the row's command exactly when `cw & mask = match` (R93). -/
structure OpRow where
  /-- the row's mnemonic -/
  mnemonic : String
  /-- the fixed bits' values -/
  pattern : Word32
  /-- the fixed bits' positions -/
  mask : Word32
deriving DecidableEq, Repr

/-- The columns `match` and `mask` of the opcode table (R93), kept beside the decoder so that the two can be compared. -/
def opTable : List OpRow :=
  [ ⟨"NOP", 0x00000000, 0xFFFFFFFF⟩, ⟨"SETW", 0x01000000, 0xFFFF0000⟩,
    ⟨"SETH", 0x02000000, 0xFFFF0000⟩, ⟨"SETMODE", 0x03000000, 0xFFFFFFFC⟩,
    ⟨"SETBG", 0x04000000, 0xFFFFFFF0⟩, ⟨"SETPTR", 0x05000000, 0xFFFC0000⟩,
    ⟨"WRPIX", 0x06000000, 0xFFFFFF00⟩, ⟨"RDPIX", 0x07000000, 0xFFFFFFFF⟩,
    ⟨"RDBMP", 0x08000000, 0xFFFFE000⟩, ⟨"RDCRAM", 0x09000000, 0xFFFFFC00⟩,
    ⟨"RDASG", 0x0A000000, 0xFFFFF800⟩, ⟨"RDDIM", 0x0B000000, 0xFFFFFFFF⟩,
    ⟨"RDPAL", 0x0C000000, 0xFFFFFFF0⟩, ⟨"NEAREST", 0x10000000, 0xFF000000⟩,
    ⟨"DITHER", 0x11000000, 0xFFFFFFFF⟩, ⟨"REDUCE", 0x12000000, 0xFFFFFFFF⟩,
    ⟨"ENCODE", 0x13000000, 0xFFFFFFFF⟩, ⟨"RDSTAT", 0x20000000, 0xFFFFFFFF⟩,
    ⟨"RDERR", 0x21000000, 0xFFFFFFFF⟩, ⟨"SRESET", 0x2F000000, 0xFFFFFFFF⟩ ]

/-- The command the decoder reads from a table word of `nbits` bits, the bits above them being 0. The block takes one whole
32-bit word on its command port, described by bit numbers only, so there is no byte order to lay out (R63, R90). -/
def decodeTableWord (nbits w : Nat) : Option Instr :=
  if 32 < nbits then none
  else match decode (BitVec.ofNat 32 (w % 2 ^ nbits)) with
    | .command i => some i
    | .illegal _ => none

end Sys2Proof
end

