-- ==== Sys2Proof/Config.lean ====
section
/-! DEFINITION. What is fixed for the block and is no state: the layout constants of spec/00_scope.md R5, and the
palette `PAL`, an open parameter (R6, R35, spec/92_eei_decisions.md D2). -/

namespace Sys2Proof

/-- `MAXW`: the largest WIDTH the block accepts (R5, R21). -/
def Config.maxW : Nat := 320

/-- `MAXH`: the largest HEIGHT the block accepts (R5, R22). -/
def Config.maxH : Nat := 200

/-- `PIX_CAP`: bytes of pixel memory, `MAXW * MAXH * 3` (R5, R36). -/
def Config.pixCap : Nat := 192000

/-- `ASG_CAP`: entries of assignment memory (R5, R37). -/
def Config.asgCap : Nat := 2000

/-- `BH`: block height in pixels, both modes (R5). -/
def Config.blockH : Nat := 8

/-- `BW_HIRES`: block width in hires mode (R5). -/
def Config.blockWHires : Nat := 8

/-- `BW_MC`: block width in multicolour mode (R5). -/
def Config.blockWMc : Nat := 4

/-- `CELL_COLS`: cells per row of cells of the screen (R5, R217). -/
def Config.cellCols : Nat := 40

/-- `ROW_STRIDE`: bitmap bytes per row of cells, `CELL_COLS * 8` (R5, R214). -/
def Config.rowStride : Nat := 320

/-- `BITMAP_BYTES`: size of the bitmap plane (R5, R38). -/
def Config.bitmapBytes : Nat := 8000

/-- `CRAM_BYTES`: size of the colour plane (R5, R39). -/
def Config.cramBytes : Nat := 1000

/-- A palette: sixteen RGB triples (`NPAL = 16`, R5, R35), so it is never empty (R127). -/
abbrev Palette := Vector Rgb 16

/-- `PAL`, the block's palette: an injected configuration value that no command and no reset changes. The spec gives no
value of any entry and forbids assuming any (R5, R6; spec/91_not_in_source.md N1), so this constant has no body to reason from
(notes/assumptions/1.md). Every algorithm takes the palette as an argument; only the meanings in `exec` use this one. -/
opaque Config.pal : Palette

end Sys2Proof
end

