-- ==== Sys2Proof/Machine/State.lean ====
section
/-! DEFINITION. The state of BCQ as plain data (spec/10_state.md R20 to R44), the kinds of error it records (spec/60_exceptions.md
R271), the reasons the model stops, and the state after reset (R42). -/

namespace Sys2Proof.Machine

/-- The four memories (R60); an address means something only together with its space. -/
inductive Space where
  /-- `PIX`, the pixel buffer (R36) -/
  | pix
  /-- `ASG`, the per-block colour assignment (R37) -/
  | asg
  /-- `BITMAP`, the bitmap plane (R38) -/
  | bitmap
  /-- `CRAM`, the colour plane (R39) -/
  | cram
deriving DecidableEq, Repr

/-- The five kinds of error the block can record (R271). The block takes these itself: recording one is a NEXT state. -/
inductive ErrKind where
  /-- code 1 (R272) -/
  | paletteOverflow
  /-- code 2, raised by nothing (R273) -/
  | invalidPalette
  /-- code 3 (R274) -/
  | unsupportedMode
  /-- code 4 (R275) -/
  | blockOverflow
  /-- code 5 (R276) -/
  | illegalCommand
deriving DecidableEq, Repr

/-- The machine never stops with a fault: every word in every state has a successor, and the block's own errors are recorded in
`ERR`, `ERRCODE` and `ERRINFO` and the block goes on (R270, R279, R294). So there is no constructor, and no step answers one. -/
inductive Fault where
deriving DecidableEq, Repr

/-- Why the model gives a step no meaning. -/
inductive Refusal where
  /-- Raised by `exec` alone, for a command that has no meaning yet; no arm raises it now. Safe. -/
  | notModelled (mnemonic : String)
  /-- Raised by `RDPIX`, `DITHER`, `REDUCE` and `ENCODE` on reading a byte of `PIX` that nothing has written since reset: the
  spec has the model refuse that run (R67, R313, U5). For the other spaces it is raised only in states no run reaches, since
  `ASGV` and `OUTV` guard them (R42, U6). Safe: the model stops where a device goes on. -/
  | unwritten (space : Space) (addr : Nat)
deriving DecidableEq, Repr

/-- A memory: a list of (address, element) pairs, the addresses strictly rising (`Memory.wf`). An address that is not
listed holds no value: it has not been written since reset (R42, R67). `Memory Byte` is a list of `Host.Cell`. -/
abbrev Memory (α : Type) := List (Nat × α)

/-- What the host presents on the two input ports at one moment between commands (R44, R285). -/
structure PortInput where
  /-- the level of `rst` -/
  rst : Bool
  /-- the word presented on `cmd`, if one is -/
  cmd : Option Word32
deriving DecidableEq, Repr

/-- The state of the block (R20), and in `port` what the host will present, which is the model's own field and no state of the
block (R26, R41; notes/assumptions/2.md). The palette is configuration (R6). -/
structure State where
  /-- `WIDTH`, the image width in pixels (R21) -/
  width : BitVec 16
  /-- `HEIGHT`, the image height in pixels (R22) -/
  height : BitVec 16
  /-- `BGIDX`, the multicolour mode's global background index (R23) -/
  bgidx : Idx
  /-- `PTR`, the byte address of the pixel port (R24) -/
  ptr : BitVec 18
  /-- `RESP`, the response register (R25) -/
  resp : Word32
  /-- `MODE.MC`: multicolour mode (R27) -/
  mc : Bool
  /-- `MODE.STRICT`: the strict single-pass variant (R27) -/
  strict : Bool
  /-- `ERR`: a fault is recorded (R29) -/
  err : Bool
  /-- `ERRCODE`: the code of the recorded fault (R30) -/
  errcode : BitVec 3
  /-- `ERRINFO`: its details, `hi` in bits 15:8 and `lo` in bits 7:0 (R31) -/
  errinfo : BitVec 16
  /-- `ASGV`: `ASG` holds the assignment of the current image (R32) -/
  asgv : Bool
  /-- `OUTV`: `BITMAP`, `CRAM` and `MCFLAG` hold a completed encode (R33) -/
  outv : Bool
  /-- `MCFLAG`: the multicolour flag of the output aggregate (R34) -/
  mcflag : Bool
  /-- `PIX`, the pixel buffer (R36) -/
  pix : Memory Byte
  /-- `ASG`, the assignment memory (R37) -/
  asg : Memory AsgEntry
  /-- `BITMAP`, the bitmap plane (R38) -/
  bitmap : Memory Byte
  /-- `CRAM`, the colour plane (R39) -/
  cram : Memory Byte
  /-- what the host presents next on `rst` and `cmd`, first moment first (R44): the model's own field -/
  port : List PortInput
deriving DecidableEq, Repr

/-- The state after reset (R42, R311): every register and flag 0, every memory byte unspecified, so nothing listed. The host
has presented nothing yet. -/
def State.reset : State where
  width := 0
  height := 0
  bgidx := 0
  ptr := 0
  resp := 0
  mc := false
  strict := false
  err := false
  errcode := 0
  errinfo := 0
  asgv := false
  outv := false
  mcflag := false
  pix := []
  asg := []
  bitmap := []
  cram := []
  port := []

/-- What every step and every meaning answers. -/
abbrev Result := Host.Outcome State Fault Refusal

end Sys2Proof.Machine
end

