-- ==== Sys2Proof/Machine/Ops.lean ====
section
/-! DEFINITION. The named operations over memories and registers, and taking an error, the block's one trap mechanism
(spec/00_scope.md R9, spec/20_memory.md R60 to R67, spec/60_exceptions.md R279 to R282). -/

namespace Sys2Proof.Machine

variable {α : Type}

/-! ## Memories -/

/-- One element of a memory: `none` where nothing has written it since reset (R67). -/
def Memory.read : Memory α → Nat → Option α
  | [], _ => none
  | c :: m, a => if c.1 = a then some c.2 else Memory.read m a

/-- Write one element, keeping the addresses strictly rising (R9). -/
def Memory.write : Memory α → Nat → α → Memory α
  | [], a, v => [(a, v)]
  | c :: m, a, v =>
    if a < c.1 then (a, v) :: c :: m
    else if c.1 = a then (a, v) :: m
    else c :: Memory.write m a v

/-- A memory whose addresses 0 to `n - 1` all hold `v` and that lists nothing else (the clearing loops of R221). -/
def Memory.fill (n : Nat) (v : α) : Memory α := (List.range n).map fun a => (a, v)

/-- The canonical form: strictly rising addresses. No entry can equal what an unlisted address reads as, which is no value. -/
abbrev Memory.wf (m : Memory α) : Prop := (m.map Prod.fst).Pairwise (· < ·)

/-- Every listed address is below the capacity of the space (R60). -/
abbrev Memory.within (m : Memory α) (cap : Nat) : Prop := ∀ c ∈ m, c.1 < cap

/-- Every address below `n` has been written since reset. -/
abbrev Memory.writtenBelow (m : Memory α) (n : Nat) : Prop := ∀ a < n, (m.read a).isSome

/-! ## Register updates -/

/-- Write `WIDTH` (R21). -/
def State.setWidth (v : BitVec 16) (s : State) : State := { s with width := v }

/-- Write `HEIGHT` (R22). -/
def State.setHeight (v : BitVec 16) (s : State) : State := { s with height := v }

/-- Write `BGIDX` (R23). -/
def State.setBgidx (v : Idx) (s : State) : State := { s with bgidx := v }

/-- Write `PTR` (R24). -/
def State.setPtr (v : BitVec 18) (s : State) : State := { s with ptr := v }

/-- Write `RESP` (R25). -/
def State.setResp (v : Word32) (s : State) : State := { s with resp := v }

/-- Write both bits of `MODE` (R27). -/
def State.setMode (mc strict : Bool) (s : State) : State := { s with mc := mc, strict := strict }

/-- Write `ASGV` (R32). -/
def State.setAsgv (v : Bool) (s : State) : State := { s with asgv := v }

/-- Replace `PIX` (R36). -/
def State.setPix (m : Memory Byte) (s : State) : State := { s with pix := m }

/-- Replace `ASG` (R37). -/
def State.setAsg (m : Memory AsgEntry) (s : State) : State := { s with asg := m }

/-- Write the output aggregate: both planes and their flag, and mark it valid (R33, R34, R219). -/
def State.setOutput (bitmap cram : Memory Byte) (mcflag : Bool) (s : State) : State :=
  { s with bitmap := bitmap, cram := cram, mcflag := mcflag, outv := true }

/-- Set what the host presents from now on (R44). -/
def State.setPort (l : List PortInput) (s : State) : State := { s with port := l }

/-! ## Ports -/

/-- The output port `resp`: the value of `RESP` (R44). -/
def State.respPort (s : State) : Word32 := s.resp

/-- The output port `err`: the level of `ERR` (R29, R44). -/
def State.errPort (s : State) : Bool := s.err

/-! ## Taking an error, and leaving it -/

/-- The code that `ERRCODE` takes (R271). -/
def ErrKind.code : ErrKind → BitVec 3
  | .paletteOverflow => 1
  | .invalidPalette => 2
  | .unsupportedMode => 3
  | .blockOverflow => 4
  | .illegalCommand => 5

/-- Fault entry, `raise E(hi, lo)` (R279): `ERR`, `ERRCODE` and `ERRINFO` are written and nothing else; there is no program
counter to save and no handler to go to. -/
def raise (e : ErrKind) (hi lo : Byte) (s : State) : State :=
  { s with err := true, errcode := e.code, errinfo := hi ++ lo }

/-- Reset (R42, R310): every register and flag at its reset value and every memory unspecified. It is the only way to leave a
fault (R282). What the host goes on to present is no state of the block and stays. -/
def resetBlock (s : State) : State := State.reset.setPort s.port

/-! ## How a command ends -/

/-- Why a command ends early: it raises an error (R270), or it reads a byte that holds no value (R67). -/
inductive Abort where
  /-- `raise E(hi, lo)` (R279) -/
  | raise (e : ErrKind) (hi lo : Byte)
  /-- the model gives the run no meaning -/
  | refuse (r : Refusal)
deriving DecidableEq, Repr

/-- The end of a command that started in `s`: the completed state, or the error entry upon `s` itself, so that an error is
precise (R280), or the refusal. -/
def finish (s : State) : Except Abort State → Result
  | .ok t => .next t
  | .error (.raise e hi lo) => .next (raise e hi lo s)
  | .error (.refuse r) => .refused r

/-- Read one element that the command needs; the run has no meaning where nothing wrote it (R67). -/
def readCell (sp : Space) (m : Memory α) (a : Nat) : Except Abort α :=
  match m.read a with
  | some v => .ok v
  | none => .error (.refuse (.unwritten sp a))

/-- End a command by `IllegalCommandError` with a reason and the command's opcode byte (R276). -/
def illegal (reason opcode : Byte) : Except Abort State := .error (.raise .illegalCommand reason opcode)

end Sys2Proof.Machine
end

