-- ==== Sys2Proof/Machine/Operands.lean ====
section
/-! DEFINITION. Operand forms and geometry: the pointer and the absolute address (spec/45_setup_and_access.md R241), the layout
of the pixel buffer (spec/20_memory.md R61, R62) and the geometry helpers (spec/00_scope.md R10). -/

namespace Sys2Proof.Machine

/-- `ceil_div(a, b) = (a + b - 1) / b`, for `b > 0` (R8). -/
def ceilDiv (a b : Nat) : Nat := (a + b - 1) / b

/-- The run of numbers `a .. b - 1`, ascending, empty when `b <= a` (R9). -/
def span (a b : Nat) : List Nat := List.range' a (b - a)

/-- What the geometry helpers of R10 read: WIDTH, HEIGHT and the block width. -/
structure Geometry where
  /-- image width in pixels -/
  width : Nat
  /-- image height in pixels -/
  height : Nat
  /-- `BW`, block width in pixels -/
  bw : Nat
deriving DecidableEq, Repr

/-- `BW = 4 if MODE.MC = 1 else 8` (R10). -/
def blockWidth (mc : Bool) : Nat := if mc then Config.blockWMc else Config.blockWHires

/-- The geometry at the time of use (R10). -/
def State.geom (s : State) : Geometry := ⟨s.width.toNat, s.height.toNat, blockWidth s.mc⟩

/-- `NBX`, blocks per row of blocks (R10). -/
def Geometry.nbx (g : Geometry) : Nat := ceilDiv g.width g.bw

/-- `NBY`, rows of blocks (R10). -/
def Geometry.nby (g : Geometry) : Nat := ceilDiv g.height Config.blockH

/-- `NBLK` (R10). -/
def Geometry.nblk (g : Geometry) : Nat := g.nbx * g.nby

/-- `EXT`, the bytes of `PIX` the image occupies (R10). -/
def Geometry.ext (g : Geometry) : Nat := 3 * g.width * g.height

/-- `addr(x, y)`, the address of the red byte of a pixel (R10, R61). -/
def Geometry.addr (g : Geometry) (x y : Nat) : Nat := (y * g.width + x) * 3

/-- The entry of block `(row, col)` in `ASG`: `row * NBX + col` (R37). -/
def Geometry.asgIndex (g : Geometry) (row col : Nat) : Nat := row * g.nbx + col

/-- All blocks in row-major block order (R10). -/
def Geometry.blocks (g : Geometry) : List (Nat × Nat) :=
  (List.range g.nby).flatMap fun row => (List.range g.nbx).map fun col => (row, col)

/-- `blockpixels(row, col)`: the in-bounds pixels `(x, y)` of a block in raster order (R10). -/
def Geometry.blockPixels (g : Geometry) (row col : Nat) : List (Nat × Nat) :=
  (span (8 * row) (min (8 * row + 8) g.height)).flatMap fun y =>
    (span (g.bw * col) (min (g.bw * col + g.bw) g.width)).map fun x => (x, y)

/-- All pixels `(x, y)` of the image in raster order (R141). -/
def Geometry.raster (g : Geometry) : List (Nat × Nat) :=
  (List.range g.height).flatMap fun y => (List.range g.width).map fun x => (x, y)

/-- `pixel(x, y)`: three bytes, red at the lowest address (R10, R62). -/
def getPixel (g : Geometry) (pix : Memory Byte) (x y : Nat) : Except Abort Rgb := do
  let r ← readCell .pix pix (g.addr x y)
  let gr ← readCell .pix pix (g.addr x y + 1)
  let b ← readCell .pix pix (g.addr x y + 2)
  .ok ⟨r, gr, b⟩

/-- `setpixel(x, y, c)` (R10). -/
def setPixel (g : Geometry) (pix : Memory Byte) (x y : Nat) (c : Rgb) : Memory Byte :=
  ((pix.write (g.addr x y) c.r).write (g.addr x y + 1) c.g).write (g.addr x y + 2) c.b

/-- `PTR + 1`, the post-increment of the pixel port; it never wraps after a checked access (R24, R241). -/
def nextPtr (p : BitVec 18) : BitVec 18 := p + 1

end Sys2Proof.Machine
end

