-- ==== Sys2Proof/Machine/Access.lean ====
section
/-! DEFINITION. The data-movement commands `WRPIX`, `RDPIX`, `RDBMP`, `RDCRAM`, `RDASG`, `RDDIM`
(spec/45_setup_and_access.md R235 to R240). -/

namespace Sys2Proof.Machine

/-- `WRPIX v`: store at `PTR`, then increase it (R235). -/
def execWrpix (v : Byte) (s : State) : Result :=
  finish s (if s.geom.ext ≤ s.ptr.toNat then illegal 5 0x06
    else .ok ((s.setPix (s.pix.write s.ptr.toNat v)).setPtr (nextPtr s.ptr)))

/-- `RDPIX`: load from `PTR`, then increase it (R236); a byte nothing has written has no meaning (R67). -/
def execRdpix (s : State) : Result :=
  finish s (if s.geom.ext ≤ s.ptr.toNat then illegal 5 0x07
    else do
      let v ← readCell .pix s.pix s.ptr.toNat
      .ok ((s.setResp (v.setWidth 32)).setPtr (nextPtr s.ptr)))

/-- The shared body of `RDBMP` and `RDCRAM`: the range check, then `OUTV`, then the byte (R237, R238). -/
def readPlane (sp : Space) (m : Memory Byte) (size : Nat) (opcode : Byte) (a : Nat) (s : State) : Except Abort State :=
  if size ≤ a then illegal 3 opcode
  else if !s.outv then illegal 4 opcode
  else do
    let v ← readCell sp m a
    .ok (s.setResp (v.setWidth 32))

/-- `RDBMP a` (R237). -/
def execRdbmp (a : BitVec 13) (s : State) : Result :=
  finish s (readPlane .bitmap s.bitmap Config.bitmapBytes 0x08 a.toNat s)

/-- `RDCRAM a` (R238). -/
def execRdcram (a : BitVec 10) (s : State) : Result :=
  finish s (readPlane .cram s.cram Config.cramBytes 0x09 a.toNat s)

/-- `RDASG n`: `ASGV`, then the bound, then the entry (R239). -/
def execRdasg (n : BitVec 11) (s : State) : Result :=
  finish s (if !s.asgv then illegal 4 0x0A
    else if s.geom.nblk ≤ n.toNat then illegal 5 0x0A
    else do
      let e ← readCell .asg s.asg n.toNat
      .ok (s.setResp (e.setWidth 32)))

/-- `RDDIM`: `RESP <- (HEIGHT << 16) | WIDTH` (R240). -/
def execRddim (s : State) : Result := .next (s.setResp (s.height ++ s.width))

end Sys2Proof.Machine
end

