-- ==== Sys2Proof/Machine/Palette.lean ====
section
/-! DEFINITION. The palette and the nearest-colour lookup, and the two commands that expose them: `NEAREST` and `RDPAL`
(spec/40_palette_nearest.md). -/

namespace Sys2Proof.Machine

/-- `PAL[i]` (R35). -/
def palAt (pal : Palette) (i : Idx) : Rgb := pal[i.toNat]

/-- All sixteen palette indices, ascending. -/
def allIdx : List Idx := (List.range 16).map (BitVec.ofNat 4)

/-- The signed difference of two channel bytes, -255 to 255 (R120, R143). -/
def chanDiff (a b : Byte) : Int := (a.toNat : Int) - (b.toNat : Int)

/-- `dist2(a, b)`, the squared Euclidean distance, on mathematical integers (R120). -/
def dist2 (a b : Rgb) : Int :=
  chanDiff a.r b.r * chanDiff a.r b.r + chanDiff a.g b.g * chanDiff a.g b.g + chanDiff a.b b.b * chanDiff a.b b.b

/-- The scan of R122 from position `i` on: an equal distance does not replace. -/
def nearestScan (p : Rgb) : List Rgb → (i best : Nat) → (bestd : Int) → Nat
  | [], _, best, _ => best
  | c :: cs, i, best, bestd =>
    if dist2 p c < bestd then nearestScan p cs (i + 1) i (dist2 p c) else nearestScan p cs (i + 1) best bestd

/-- `nearestOf(p, c0 :: cs)` (R122): the least position whose candidate is nearest. The first candidate is an argument of its
own, so the list is never empty (R127). -/
def nearestOf (p c0 : Rgb) (cs : List Rgb) : Nat := nearestScan p cs 1 0 (dist2 p c0)

/-- `nearest16(p)` (R123): the nearest palette index, the lowest on a tie. -/
def nearest16 (pal : Palette) (p : Rgb) : Idx :=
  BitVec.ofNat 4 (nearestOf p (palAt pal 0) (allIdx.tail.map (palAt pal)))

/-- A colour as a word: `R` in bits 23:16, `G` in 15:8, `B` in 7:0, bits 31:24 zero (R63, R126). -/
def rgbWord (c : Rgb) : Word32 := (c.r ++ c.g ++ c.b).setWidth 32

/-- `NEAREST` for any palette: `RESP <- zext_32(nearest16((r, g, b)))` (R125). -/
def nearestWith (pal : Palette) (c : Rgb) (s : State) : State := s.setResp ((nearest16 pal c).setWidth 32)

/-- `RDPAL` for any palette: `RESP <- PAL[i]` (R126). -/
def rdpalWith (pal : Palette) (i : Idx) (s : State) : State := s.setResp (rgbWord (palAt pal i))

/-- `NEAREST r, g, b` (R125). -/
def execNearest (r g b : Byte) (s : State) : Result := .next (nearestWith Config.pal ⟨r, g, b⟩ s)

/-- `RDPAL i` (R126). -/
def execRdpal (i : Idx) (s : State) : Result := .next (rdpalWith Config.pal i s)

end Sys2Proof.Machine
end

