-- ==== Sys2Proof/Machine/Dither.lean ====
section
/-! DEFINITION. Floyd-Steinberg dither, the command `DITHER` (spec/41_dither.md). -/

namespace Sys2Proof.Machine

/-- `fs_share(e, k) = tquot(e * k, 16)`, rounded toward zero (R8, R145). -/
def fsShare (e k : Int) : Int := Int.tdiv (e * k) 16

/-- `clamp(v)`, stored as a byte (R8, R146). -/
def clamp (v : Int) : Byte := if v < 0 then 0 else if 255 < v then 255 else BitVec.ofNat 8 v.toNat

/-- The residual of one pixel, original minus quantised, one signed integer a channel (R143). -/
structure Residual where
  /-- red -/
  r : Int
  /-- green -/
  g : Int
  /-- blue -/
  b : Int
deriving DecidableEq, Repr

/-- `e = old - q`, channel by channel (R143). -/
def residual (old q : Rgb) : Residual := ⟨chanDiff old.r q.r, chanDiff old.g q.g, chanDiff old.b q.b⟩

/-- One neighbour of the kernel: its offset and its weight over 16 (R144). -/
structure Tap where
  /-- column offset -/
  dx : Int
  /-- row offset -/
  dy : Nat
  /-- weight over 16 -/
  k : Int
deriving DecidableEq, Repr

/-- The kernel: right 7, below-left 3, below 5, below-right 1 (R144). -/
def kernel : List Tap := [⟨1, 0, 7⟩, ⟨-1, 1, 3⟩, ⟨0, 1, 5⟩, ⟨1, 1, 1⟩]

/-- A neighbour's colour after its share of the residual is added and clamped (R146). -/
def addShare (share : Int → Int → Int) (e : Residual) (k : Int) (n : Rgb) : Rgb :=
  ⟨clamp (n.r.toNat + share e.r k), clamp (n.g.toNat + share e.g k), clamp (n.b.toNat + share e.b k)⟩

/-- Give one neighbour of pixel `(x, y)` its share; a neighbour outside the image gets nothing (R144). -/
def diffuse (share : Int → Int → Int) (g : Geometry) (x y : Nat) (e : Residual) (pix : Memory Byte) (t : Tap) :
    Except Abort (Memory Byte) :=
  let nx : Int := (x : Int) + t.dx
  let ny : Nat := y + t.dy
  if 0 ≤ nx ∧ nx < g.width ∧ ny < g.height then do
    let n ← getPixel g pix nx.toNat ny
    .ok (setPixel g pix nx.toNat ny (addShare share e t.k n))
  else .ok pix

/-- The visit of one pixel: quantise, write back, diffuse the residual (R140, R142, R143). -/
def ditherPixel (pal : Palette) (share : Int → Int → Int) (g : Geometry) (pix : Memory Byte) (xy : Nat × Nat) :
    Except Abort (Memory Byte) := do
  let old ← getPixel g pix xy.1 xy.2
  let q := palAt pal (nearest16 pal old)
  kernel.foldlM (diffuse share g xy.1 xy.2 (residual old q)) (setPixel g pix xy.1 xy.2 q)

/-- The single forward raster pass (R140, R141). -/
def ditherImage (pal : Palette) (share : Int → Int → Int) (g : Geometry) (pix : Memory Byte) :
    Except Abort (Memory Byte) :=
  g.raster.foldlM (ditherPixel pal share g) pix

/-- `DITHER` for any palette and any share function, which the spec advises a model to carry (R140, R145). -/
def ditherWith (pal : Palette) (share : Int → Int → Int) (s : State) : Except Abort State := do
  let pix ← ditherImage pal share s.geom s.pix
  .ok (s.setPix pix)

/-- `DITHER` (R140), with the palette of the block and the share function that R145 fixes. -/
def execDither (s : State) : Result := finish s (ditherWith Config.pal fsShare s)

end Sys2Proof.Machine
end

