-- ==== Sys2Proof/Machine/Encode.lean ====
section
/-! DEFINITION. The memory encoder, the command `ENCODE` (spec/44_encode.md). -/

namespace Sys2Proof.Machine

/-- The class of a pixel against its cell's pair (R212). -/
inductive PixelClass where
  /-- equals the background colour -/
  | background
  /-- is not the background colour and equals the foreground colour -/
  | foreground
  /-- equals neither -/
  | neither
deriving DecidableEq, Repr

/-- `class(p, bg, fg)`: the background is tested first (R212). -/
def classify (pal : Palette) (bg fg : Idx) (p : Rgb) : PixelClass :=
  if p = palAt pal bg then .background else if p = palAt pal fg then .foreground else .neither

/-- `byte_offset = row*320 + col*8 + line`, with `row = y/8`, `col = x/8`, `line = y&7` (R214). -/
def bitmapOffset (x y : Nat) : Nat := y / 8 * Config.rowStride + x / 8 * 8 + y % 8

/-- `bit = 7 - (x&7)`: the leftmost pixel of a cell is bit 7 (R214, R215). -/
def bitmapBit (x : Nat) : Nat := 7 - x % 8

/-- The index of cell `(row, col)` in the colour plane, `row * 40 + col` (R217). -/
def cramIndex (row col : Nat) : Nat := row * Config.cellCols + col

/-- The colour byte: background in the low nibble, foreground in the high nibble (R216). -/
def colourByte (bg fg : Idx) : Byte := (bg.setWidth 8 &&& 0x0F) ||| ((fg.setWidth 8 &&& 0x0F) <<< 4)

/-- The assignment entry of a cell (R37, R212). -/
def cellEntry (g : Geometry) (asg : Memory AsgEntry) (rc : Nat × Nat) : Except Abort AsgEntry :=
  readCell .asg asg (g.asgIndex rc.1 rc.2)

/-! ## The check pass -/

/-- One pixel of the check pass (R213). -/
def checkPixel (pal : Palette) (g : Geometry) (pix : Memory Byte) (e : AsgEntry) (rc : Nat × Nat) (xy : Nat × Nat) :
    Except Abort Unit := do
  let p ← getPixel g pix xy.1 xy.2
  if classify pal (asgN0 e) (asgN1 e) p = .neither then
    .error (.raise .blockOverflow (BitVec.ofNat 8 rc.1) (BitVec.ofNat 8 rc.2))
  else .ok ()

/-- One cell of the check pass (R221). -/
def checkCell (pal : Palette) (g : Geometry) (pix : Memory Byte) (asg : Memory AsgEntry) (rc : Nat × Nat) :
    Except Abort Unit := do
  let e ← cellEntry g asg rc
  (g.blockPixels rc.1 rc.2).foldlM (fun _ xy => checkPixel pal g pix e rc xy) ()

/-- The check pass: every cell in row-major order, reading only; the first offending cell is reported (R213, R221). -/
def checkCells (pal : Palette) (g : Geometry) (pix : Memory Byte) (asg : Memory AsgEntry) : Except Abort Unit :=
  g.blocks.foldlM (fun _ rc => checkCell pal g pix asg rc) ()

/-! ## The write pass -/

/-- One pixel of the write pass: a foreground pixel sets its bit (R215, R221). -/
def encodePixel (pal : Palette) (g : Geometry) (pix : Memory Byte) (e : AsgEntry) (bitmap : Memory Byte)
    (xy : Nat × Nat) : Except Abort (Memory Byte) := do
  let p ← getPixel g pix xy.1 xy.2
  if classify pal (asgN0 e) (asgN1 e) p = .foreground then do
    let v ← readCell .bitmap bitmap (bitmapOffset xy.1 xy.2)
    .ok (bitmap.write (bitmapOffset xy.1 xy.2) (v ||| (1#8 <<< bitmapBit xy.1)))
  else .ok bitmap

/-- One cell of the write pass: its colour byte, then its pixels (R216, R221). -/
def encodeCell (pal : Palette) (g : Geometry) (pix : Memory Byte) (asg : Memory AsgEntry)
    (planes : Memory Byte × Memory Byte) (rc : Nat × Nat) : Except Abort (Memory Byte × Memory Byte) := do
  let e ← cellEntry g asg rc
  let bitmap ← (g.blockPixels rc.1 rc.2).foldlM (encodePixel pal g pix e) planes.1
  .ok (bitmap, planes.2.write (cramIndex rc.1 rc.2) (colourByte (asgN0 e) (asgN1 e)))

/-- The two planes, bitmap first: all 8000 and all 1000 bytes zero, then every covered cell (R218, R221). -/
def encodePlanes (pal : Palette) (g : Geometry) (pix : Memory Byte) (asg : Memory AsgEntry) :
    Except Abort (Memory Byte × Memory Byte) :=
  g.blocks.foldlM (encodeCell pal g pix asg) (Memory.fill Config.bitmapBytes 0, Memory.fill Config.cramBytes 0)

/-- `EncodeHires` (R221). -/
def encodeHires (pal : Palette) (s : State) : Except Abort State := do
  checkCells pal s.geom s.pix s.asg
  let planes ← encodePlanes pal s.geom s.pix s.asg
  .ok (s.setOutput planes.1 planes.2 s.mc)

/-- `ENCODE` for any palette: the mode check, then the assignment check, then the encoder (R210, R220). -/
def encodeWith (pal : Palette) (s : State) : Except Abort State :=
  if s.mc then .error (.raise .unsupportedMode 2 0x13)
  else if !s.asgv then illegal 4 0x13
  else encodeHires pal s

/-- `ENCODE` (R210). -/
def execEncode (s : State) : Result := finish s (encodeWith Config.pal s)

end Sys2Proof.Machine
end

