-- ==== Sys2Proof/Machine/Reduce.lean ====
section
/-! DEFINITION. The block reducer, the command `REDUCE`: the hires two-pass policy and the hires strict variant
(spec/42_reduce_hires.md), and multicolour mode (spec/43_reduce_multicolor.md). -/

namespace Sys2Proof.Machine

/-! ## Tally and selection -/

/-- The nearest palette indices of a list of pixels, in the order given (R162, R169). -/
def pixelIndices (pal : Palette) (g : Geometry) (pix : Memory Byte) : List (Nat × Nat) → Except Abort (List Idx)
  | [] => .ok []
  | xy :: rest => do
    let p ← getPixel g pix xy.1 xy.2
    let is ← pixelIndices pal g pix rest
    .ok (nearest16 pal p :: is)

/-- `tally`: how often each palette index occurs (R162). -/
def tally (is : List Idx) (i : Idx) : Nat := is.count i

/-- The first of `i :: js` whose count is the greatest (R163). -/
def argmaxCount (cnt : Idx → Nat) (i : Idx) : List Idx → Idx
  | [] => i
  | j :: js => if cnt i < cnt j then argmaxCount cnt j js else argmaxCount cnt i js

/-- `fallback(first) = (first + 1) mod 16`, the second slot of a monochrome block (R164). -/
def fallback (first : Idx) : Idx := first + 1

/-- `first` and `second` of the two-pass policy (R163, R164). -/
def selectHires (cnt : Idx → Nat) : Idx × Idx :=
  let first := argmaxCount cnt 0 allIdx.tail
  match allIdx.filter fun i => i != first && decide (1 ≤ cnt i) with
  | [] => (first, fallback first)
  | i :: is => (first, argmaxCount cnt i is)

/-! ## Remap -/

/-- The colour a pixel becomes: the nearest of the slots `c0 :: cs`, the earliest on a tie (R166, R123). -/
def remapColour (pal : Palette) (c0 : Idx) (cs : List Idx) (p : Rgb) : Rgb :=
  palAt pal ((c0 :: cs).getD (nearestOf p (palAt pal c0) (cs.map (palAt pal))) c0)

/-- Remap one pixel, measuring from its current bytes (R166). -/
def remapPixel (pal : Palette) (g : Geometry) (c0 : Idx) (cs : List Idx) (pix : Memory Byte) (xy : Nat × Nat) :
    Except Abort (Memory Byte) := do
  let p ← getPixel g pix xy.1 xy.2
  .ok (setPixel g pix xy.1 xy.2 (remapColour pal c0 cs p))

/-- `remap(row, col, slots)` (R166, R195). -/
def remapBlock (pal : Palette) (g : Geometry) (c0 : Idx) (cs : List Idx) (row col : Nat) (pix : Memory Byte) :
    Except Abort (Memory Byte) :=
  (g.blockPixels row col).foldlM (remapPixel pal g c0 cs) pix

/-- The memories a reducer writes: `PIX` and `ASG` (R160). -/
abbrev ReduceMem := Memory Byte × Memory AsgEntry

/-! ## Hires mode, two-pass policy -/

/-- `{n2 = 0, n1 = second, n0 = first}` (R167). -/
def hiresEntry (first second : Idx) : AsgEntry := (0 : Idx) ++ second ++ first

/-- Remap a block to its pair and write its entry (R166, R167). -/
def writeHiresBlock (pal : Palette) (g : Geometry) (fs : Idx × Idx) (m : ReduceMem) (rc : Nat × Nat) :
    Except Abort ReduceMem := do
  let pix ← remapBlock pal g fs.1 [fs.2] rc.1 rc.2 m.1
  .ok (pix, m.2.write (g.asgIndex rc.1 rc.2) (hiresEntry fs.1 fs.2))

/-- One block of the two-pass policy (R168). -/
def twoPassBlock (pal : Palette) (g : Geometry) (m : ReduceMem) (rc : Nat × Nat) : Except Abort ReduceMem := do
  let is ← pixelIndices pal g m.1 (g.blockPixels rc.1 rc.2)
  writeHiresBlock pal g (selectHires (tally is)) m rc

/-- `ReduceHiresTwoPass` (R168). -/
def reduceTwoPass (pal : Palette) (g : Geometry) (m : ReduceMem) : Except Abort ReduceMem :=
  g.blocks.foldlM (twoPassBlock pal g) m

/-! ## Hires mode, strict variant -/

/-- The scan of R169 over the pixels still to come, `seen` being the colours met so far, oldest first. -/
def scanPixels (pal : Palette) (g : Geometry) (pix : Memory Byte) (row col : Nat) :
    List (Nat × Nat) → List Idx → Except Abort (List Idx)
  | [], seen => .ok seen
  | xy :: rest, seen => do
    let p ← getPixel g pix xy.1 xy.2
    let i := nearest16 pal p
    if i ∈ seen then scanPixels pal g pix row col rest seen
    else if seen.length = 2 then .error (.raise .paletteOverflow (BitVec.ofNat 8 row) (BitVec.ofNat 8 col))
    else scanPixels pal g pix row col rest (seen ++ [i])

/-- `first` and `second` from the colours seen; a block is never empty, so neither is `seen` (R10, R169). -/
def seenPair (seen : List Idx) : Idx × Idx :=
  let first := seen.getD 0 0
  (first, if seen.length = 2 then seen.getD 1 0 else fallback first)

/-- `scan(row, col)` (R169). -/
def scanBlock (pal : Palette) (g : Geometry) (pix : Memory Byte) (rc : Nat × Nat) : Except Abort (Idx × Idx) := do
  let seen ← scanPixels pal g pix rc.1 rc.2 (g.blockPixels rc.1 rc.2) []
  .ok (seenPair seen)

/-- The check pass: the plan of every block, in row-major order, reading only (R171, R172). -/
def scanBlocks (pal : Palette) (g : Geometry) (pix : Memory Byte) :
    List (Nat × Nat) → Except Abort (List ((Nat × Nat) × (Idx × Idx)))
  | [] => .ok []
  | rc :: rest => do
    let fs ← scanBlock pal g pix rc
    let plan ← scanBlocks pal g pix rest
    .ok ((rc, fs) :: plan)

/-- `ReduceHiresStrict`: the check pass over every block, then the write pass (R172). -/
def reduceStrict (pal : Palette) (g : Geometry) (m : ReduceMem) : Except Abort ReduceMem := do
  let plan ← scanBlocks pal g m.1 g.blocks
  plan.foldlM (fun m e => writeHiresBlock pal g e.2 m e.1) m

/-! ## Multicolour mode -/

/-- The ranking of R193: count descending, then index ascending. -/
def rankedBefore (cnt : Idx → Nat) (i j : Idx) : Bool := decide (cnt j < cnt i ∨ (cnt i = cnt j ∧ i < j))

/-- Insert a candidate into a ranked list. -/
def rankInsert (cnt : Idx → Nat) (i : Idx) : List Idx → List Idx
  | [] => [i]
  | j :: js => if rankedBefore cnt i j then i :: j :: js else j :: rankInsert cnt i js

/-- The candidates `C`: observed and not the background (R192). -/
def candidates (cnt : Idx → Nat) (bg : Idx) : List Idx := allIdx.filter fun i => i != bg && decide (1 ≤ cnt i)

/-- The selected locals: the first `min(3, |C|)` of `C` as ranked (R193). -/
def selectLocals (cnt : Idx → Nat) (bg : Idx) : List Idx := ((candidates cnt bg).foldr (rankInsert cnt) []).take 3

/-- The inner loop of R194, at most `fuel` rounds; sixteen are always enough. -/
def nextFree (used : List Idx) : (fuel : Nat) → Idx → Idx
  | 0, c => c
  | fuel + 1, c => if c ∈ used then nextFree used fuel (c + 1) else c

/-- One filler: the next palette index after the last slot that is not already in the list (R194). -/
def addFiller (slots : List Idx) : List Idx := slots ++ [nextFree slots 16 (slots.getLastD 0 + 1)]

/-- `fill(slots)`, `n` being the rounds still allowed (R194). -/
def fillSlots : (n : Nat) → List Idx → List Idx
  | 0, slots => slots
  | n + 1, slots => if slots.length < 4 then fillSlots n (addFiller slots) else slots

/-- The three local slots of a block after the background: the selected locals, then the fillers (R193, R194). -/
def localSlots (cnt : Idx → Nat) (bg : Idx) : List Idx := (fillSlots 4 (bg :: selectLocals cnt bg)).tail

/-- `{n2 = l2, n1 = l1, n0 = l0}` (R196). -/
def mcEntry (locals : List Idx) : AsgEntry := locals.getD 2 0 ++ locals.getD 1 0 ++ locals.getD 0 0

/-- One block of the multicolour reducer (R197). -/
def multicolorBlock (pal : Palette) (bg : Idx) (g : Geometry) (m : ReduceMem) (rc : Nat × Nat) :
    Except Abort ReduceMem := do
  let is ← pixelIndices pal g m.1 (g.blockPixels rc.1 rc.2)
  let locals := localSlots (tally is) bg
  let pix ← remapBlock pal g bg locals rc.1 rc.2 m.1
  .ok (pix, m.2.write (g.asgIndex rc.1 rc.2) (mcEntry locals))

/-- `ReduceMulticolor` (R197). -/
def reduceMulticolor (pal : Palette) (bg : Idx) (g : Geometry) (m : ReduceMem) : Except Abort ReduceMem :=
  g.blocks.foldlM (multicolorBlock pal bg g) m

/-! ## The command -/

/-- Which reducer `MODE` selects (R99, R160); multicolour with strict is no supported combination (R190). -/
def reduceMem (pal : Palette) (s : State) : Except Abort ReduceMem :=
  if s.mc then
    if s.strict then .error (.raise .unsupportedMode 1 0x12)
    else reduceMulticolor pal s.bgidx s.geom (s.pix, s.asg)
  else if s.strict then reduceStrict pal s.geom (s.pix, s.asg)
  else reduceTwoPass pal s.geom (s.pix, s.asg)

/-- `REDUCE` for any palette (R160): `PIX`, `ASG` and `ASGV` are written on completion. -/
def reduceWith (pal : Palette) (s : State) : Except Abort State := do
  let m ← reduceMem pal s
  .ok (((s.setPix m.1).setAsg m.2).setAsgv true)

/-- `REDUCE` (R160). -/
def execReduce (s : State) : Result := finish s (reduceWith Config.pal s)

end Sys2Proof.Machine
end

