-- ==== Sys2Proof/Machine/Setup.lean ====
section
/-! DEFINITION. The set-up commands `SETW`, `SETH`, `SETMODE`, `SETBG`, `SETPTR` (spec/45_setup_and_access.md R230 to R234). -/

namespace Sys2Proof.Machine

/-- `SETW imm` (R230). -/
def execSetw (imm : BitVec 16) (s : State) : Result :=
  finish s (if Config.maxW < imm.toNat then illegal 3 0x01 else .ok ((s.setWidth imm).setAsgv false))

/-- `SETH imm` (R231). -/
def execSeth (imm : BitVec 16) (s : State) : Result :=
  finish s (if Config.maxH < imm.toNat then illegal 3 0x02 else .ok ((s.setHeight imm).setAsgv false))

/-- `SETMODE m` (R232). -/
def execSetmode (mc strict : Bool) (s : State) : Result := .next ((s.setMode mc strict).setAsgv false)

/-- `SETBG i` (R233). -/
def execSetbg (i : Idx) (s : State) : Result := .next ((s.setBgidx i).setAsgv false)

/-- `SETPTR a` (R234). -/
def execSetptr (a : BitVec 18) (s : State) : Result := .next (s.setPtr a)

end Sys2Proof.Machine
end

