-- ==== Sys2Proof/Machine/Flags.lean ====
section
/-! DEFINITION. The read-only view `STATUS`, assembled when `RDSTAT` executes (spec/10_state.md R28, spec/46_system.md R261). -/

namespace Sys2Proof.Machine

/-- One flag as a bit of the status word at position `n`. -/
def flagAt (b : Bool) (n : Nat) : Word32 := (BitVec.ofBool b).setWidth 32 <<< n

/-- `STATUS`: `ERR | ERRCODE << 1 | ASGV << 4 | OUTV << 5 | MCFLAG << 6 | MC << 8 | STRICT << 9 | BGIDX << 10` (R261); bits 7
and 31:14 are reserved and read 0 (R28). -/
def status (s : State) : Word32 :=
  flagAt s.err 0 ||| (s.errcode.setWidth 32 <<< 1) ||| flagAt s.asgv 4 ||| flagAt s.outv 5 ||| flagAt s.mcflag 6
    ||| flagAt s.mc 8 ||| flagAt s.strict 9 ||| (s.bgidx.setWidth 32 <<< 10)

end Sys2Proof.Machine
end

