-- ==== Sys2Proof/Machine/System.lean ====
section
/-! DEFINITION. The system commands `NOP`, `RDSTAT`, `RDERR`, `SRESET` (spec/46_system.md R260 to R263). -/

namespace Sys2Proof.Machine

/-- `NOP`: no state change (R260). -/
def execNop (s : State) : Result := .next s

/-- `RDSTAT`: `RESP <- STATUS` (R261). -/
def execRdstat (s : State) : Result := .next (s.setResp (status s))

/-- `RDERR`: `RESP <- zext_32(ERRINFO)` (R262). -/
def execRderr (s : State) : Result := .next (s.setResp (s.errinfo.setWidth 32))

/-- `SRESET`: exactly the effect of asserting `rst` (R263, R310). -/
def execSreset (s : State) : Result := .next (resetBlock s)

end Sys2Proof.Machine
end

