-- ==== Sys2Proof/Machine/Dispatch.lean ====
section
/-! DEFINITION. The execution of a decoded command: one arm per command (spec/30_encoding.md R93, R97). -/

namespace Sys2Proof.Machine

def exec (i : Instr) (s : State) : Host.Outcome State Fault Refusal :=
  match i with
  | .nop => Sys2Proof.Machine.execNop s
  | .setw imm => Sys2Proof.Machine.execSetw imm s
  | .seth imm => Sys2Proof.Machine.execSeth imm s
  | .setmode mc strict => Sys2Proof.Machine.execSetmode mc strict s
  | .setbg k => Sys2Proof.Machine.execSetbg k s
  | .setptr a => Sys2Proof.Machine.execSetptr a s
  | .wrpix v => Sys2Proof.Machine.execWrpix v s
  | .rdpix => Sys2Proof.Machine.execRdpix s
  | .rdbmp a => Sys2Proof.Machine.execRdbmp a s
  | .rdcram a => Sys2Proof.Machine.execRdcram a s
  | .rdasg n => Sys2Proof.Machine.execRdasg n s
  | .rddim => Sys2Proof.Machine.execRddim s
  | .rdpal k => Sys2Proof.Machine.execRdpal k s
  | .nearest r g b => Sys2Proof.Machine.execNearest r g b s
  | .dither => Sys2Proof.Machine.execDither s
  | .reduce => Sys2Proof.Machine.execReduce s
  | .encode => Sys2Proof.Machine.execEncode s
  | .rdstat => Sys2Proof.Machine.execRdstat s
  | .rderr => Sys2Proof.Machine.execRderr s
  | .sreset => Sys2Proof.Machine.execSreset s

end Sys2Proof.Machine
end

