-- ==== Sys2Proof/Machine/Issue.lean ====
section
/-! DEFINITION. How a presented word is processed: the prologue of spec/30_encoding.md R97, and the two input ports
(spec/10_state.md R44, spec/60_exceptions.md R285). -/

namespace Sys2Proof.Machine

/-- The word has passed the `ERR` check: decode it, and execute it or raise the illegal-command error (R95 to R97). -/
def issueAccepted (cw : Word32) (s : State) : Result :=
  match decode cw with
  | .command i => exec i s
  | .illegal .unknownOpcode => .next (raise .illegalCommand 1 (opField cw) s)
  | .illegal .reservedBit => .next (raise .illegalCommand 2 (opField cw) s)

/-- While a fault is recorded exactly three words are honoured; every other word is discarded (R97, R281). -/
def issueFaulted (cw : Word32) (s : State) : Result :=
  if cw = 0x20000000 then exec .rdstat s
  else if cw = 0x21000000 then exec .rderr s
  else if cw = 0x2F000000 then exec .sreset s
  else .next s

/-- One command word presented on `cmd`: the block's step function `step(cw)` (R97). -/
def issue (cw : Word32) (s : State) : Result := if s.err then issueFaulted cw s else issueAccepted cw s

/-- What the block does with one moment of its input ports: an asserted `rst` resets, and a word presented with it is lost; else
a presented word is processed; else the block is idle and holds its state (R285, R293). -/
def takeInput (p : PortInput) (s : State) : Result :=
  if p.rst then .next (resetBlock s)
  else match p.cmd with
    | some cw => issue cw s
    | none => .next s

/-- The port input that presents one command word. -/
def present (cw : Word32) : PortInput := ⟨false, some cw⟩

/-- The command word of a table word: its low `nbits` bits, the bits above them 0. -/
def tableWord (nbits w : Nat) : Word32 := BitVec.ofNat 32 (w % 2 ^ nbits)

end Sys2Proof.Machine
end

