-- ==== Sys2Proof/Machine/Step.lean ====
section
/-! DEFINITION. One step of the machine: the block takes what the host presents next (spec/00_scope.md R12, spec/30_encoding.md
R97, R98). There is no program counter and no fetch from memory (spec/10_state.md R26). -/

namespace Sys2Proof.Machine

/-- One step: the first moment of `port` is taken off and acted upon; with nothing presented the block is idle and holds its
state (R12, R293). -/
def step (s : State) : Host.Outcome State Fault Refusal :=
  match s.port with
  | [] => .next s
  | p :: rest => takeInput p (s.setPort rest)

/-- The host presents one command word before everything else it will present, so that the next step runs it. -/
def State.withFetchWord (s : State) (nbits w : Nat) : State := s.setPort (present (tableWord nbits w) :: s.port)

end Sys2Proof.Machine
end

