-- ==== Sys2Proof/Safety.lean ====
section
/-! DEFINITION. What counts as a safe run, in the terms that the statements use: the host's duty `PixWritten`
(spec/70_reset_and_hazards.md R313), the invariant of spec/10_state.md R43, and the conditions under which a block or a cell
overflows (spec/42_reduce_hires.md R176, spec/44_encode.md R213). -/

namespace Sys2Proof.Machine

/-- The premise `PixWritten`: every byte of `PIX` below `EXT` has been written since the last reset (R313). -/
abbrev PixWritten (s : State) : Prop := s.pix.writtenBelow s.geom.ext

/-- The named premise `PalDistinct`: no two palette entries are equal (R6). -/
def PalDistinct (pal : Palette) : Prop := ∀ i j : Idx, i ≠ j → palAt pal i ≠ palAt pal j

/-- What an assignment entry satisfies (R43): in hires mode `n2 = 0` and `n0 != n1`; in multicolour mode the background and the
three locals are pairwise distinct. -/
def EntryOk (mc : Bool) (bg : Idx) (e : AsgEntry) : Prop :=
  if mc then [bg, asgN0 e, asgN1 e, asgN2 e].Nodup else asgN2 e = 0 ∧ asgN0 e ≠ asgN1 e

/-- Every entry of `ASG` below `NBLK` is written and satisfies `EntryOk`. -/
def EntriesOk (s : State) : Prop := ∀ n < s.geom.nblk, ∃ e, s.asg.read n = some e ∧ EntryOk s.mc s.bgidx e

/-- The invariant of R43, with the canonical form and the bounds of the four memories (R60). -/
structure Inv (s : State) : Prop where
  /-- `WIDTH <= 320` -/
  width_le : s.width.toNat ≤ 320
  /-- `HEIGHT <= 200` -/
  height_le : s.height.toNat ≤ 200
  /-- `ERR = 0` exactly when `ERRCODE = 0` -/
  err_iff : s.err = false ↔ s.errcode = 0
  /-- `ERRCODE` is never 2, 6 or 7 -/
  errcode_legal : s.errcode ≠ 2 ∧ s.errcode ≠ 6 ∧ s.errcode ≠ 7
  /-- `ERRINFO` is 0 until the first fault (R262) -/
  errinfo_clear : s.err = false → s.errinfo = 0
  /-- `MCFLAG = 0` -/
  mcflag_clear : s.mcflag = false
  /-- with `OUTV = 1` the bitmap plane is fully written -/
  bitmap_written : s.outv = true → s.bitmap.writtenBelow 8000
  /-- with `OUTV = 1` the colour plane is fully written -/
  cram_written : s.outv = true → s.cram.writtenBelow 1000
  /-- with `ASGV = 1` the assignment of the present image is written and well formed -/
  entries_ok : s.asgv = true → EntriesOk s
  /-- `PIX` is in canonical form and within its capacity -/
  pix_ok : s.pix.wf ∧ s.pix.within 192000
  /-- `ASG` is in canonical form and within its capacity -/
  asg_ok : s.asg.wf ∧ s.asg.within 2000
  /-- `BITMAP` is in canonical form and within its capacity -/
  bitmap_ok : s.bitmap.wf ∧ s.bitmap.within 8000
  /-- `CRAM` is in canonical form and within its capacity -/
  cram_ok : s.cram.wf ∧ s.cram.within 1000

/-- Block `(row, col)` comes before block `(row', col')` in row-major block order (R10). -/
def BlockBefore (row col row' col' : Nat) : Prop := row < row' ∨ (row = row' ∧ col < col')

/-- The pixels of block `(row, col)` have the nearest palette indices `is`, in raster order (R162, R169). -/
def BlockIndices (pal : Palette) (s : State) (row col : Nat) (is : List Idx) : Prop :=
  pixelIndices pal s.geom s.pix (s.geom.blockPixels row col) = .ok is

/-- Three different values of `nearest16` occur in block `(row, col)` (R176). -/
def ThreeColours (pal : Palette) (s : State) (row col : Nat) : Prop :=
  ∃ is, BlockIndices pal s row col is ∧ ∃ i ∈ is, ∃ j ∈ is, ∃ k ∈ is, i ≠ j ∧ i ≠ k ∧ j ≠ k

/-- The strict variant's pair: the first colour seen, and the first seen after it that differs, or the fallback (R169). -/
def strictPair (is : List Idx) : Idx × Idx :=
  (is.headD 0, (is.find? fun i => i != is.headD 0).getD (fallback (is.headD 0)))

/-- Some pixel of cell `(row, col)` equals neither of the cell's two colours (R213). -/
def CellOverflows (pal : Palette) (s : State) (row col : Nat) : Prop :=
  ∃ e, s.asg.read (s.geom.asgIndex row col) = some e ∧ ∃ xy ∈ s.geom.blockPixels row col, ∃ p,
    getPixel s.geom s.pix xy.1 xy.2 = .ok p ∧ classify pal (asgN0 e) (asgN1 e) p = .neither

/-- Every pixel of the image equals a palette entry (R147, R148). -/
def AllPaletteColours (pal : Palette) (s : State) : Prop :=
  ∀ x < s.geom.width, ∀ y < s.geom.height, ∃ i, getPixel s.geom s.pix x y = .ok (palAt pal i)

/-- The opcode byte of a command, which `ERRINFO.lo` takes for the errors that carry a reason (R276, R277). -/
def opcodeOf (i : Instr) : Byte := opField (encode i)

/-- The errors a decoded command can raise, each a code and, where `ERRINFO.hi` is a reason number, that reason (R294). -/
def errorsOf : Instr → List (BitVec 3 × Option Byte)
  | .setw _ | .seth _ => [(5, some 3)]
  | .wrpix _ | .rdpix => [(5, some 5)]
  | .rdbmp _ | .rdcram _ => [(5, some 3), (5, some 4)]
  | .rdasg _ => [(5, some 4), (5, some 5)]
  | .reduce => [(3, some 1), (1, none)]
  | .encode => [(3, some 2), (5, some 4), (4, none)]
  | .nop | .setmode _ _ | .setbg _ | .setptr _ | .rddim | .rdpal _ | .nearest _ _ _ | .dither | .rdstat | .rderr
  | .sreset => []

/-- The commands that write `RESP` when they complete; reset writes it too (R25). -/
def writesResp : Instr → Bool
  | .rdpix | .rdbmp _ | .rdcram _ | .rdasg _ | .rddim | .rdpal _ | .nearest _ _ _ | .rdstat | .rderr | .sreset => true
  | .nop | .setw _ | .seth _ | .setmode _ _ | .setbg _ | .setptr _ | .wrpix _ | .dither | .reduce | .encode => false

/-- The commands that write `PIX`: host data, the two processing commands that work in place, and reset (R36). -/
def writesPix : Instr → Bool
  | .wrpix _ | .dither | .reduce | .sreset => true
  | .nop | .setw _ | .seth _ | .setmode _ _ | .setbg _ | .setptr _ | .rdpix | .rdbmp _ | .rdcram _ | .rdasg _ | .rddim
  | .rdpal _ | .nearest _ _ _ | .encode | .rdstat | .rderr => false

/-- The commands that clear `ASGV` when they complete (R32). -/
def clearsAsgv : Instr → Bool
  | .setw _ | .seth _ | .setmode _ _ | .setbg _ | .sreset => true
  | .nop | .setptr _ | .wrpix _ | .rdpix | .rdbmp _ | .rdcram _ | .rdasg _ | .rddim | .rdpal _ | .nearest _ _ _ | .dither
  | .reduce | .encode | .rdstat | .rderr => false

end Sys2Proof.Machine
end

