-- ==== Sys2Proof/Certificates/Slice0/Obligations.lean ====
section
/-! DEFINITION. The statements about the model, for the provers. Each docstring says which rule of spec/ it formalises. A
statement about what a command does gives the whole next state, so that its frame is said with its effect. -/

open Sys2Proof Sys2Proof.Machine

/-! ## Encoding -/

/-- R91 to R93, R96: no bit of an operand is dropped by the encoding, for every command and every operand; and a word that
spells a command is the one word that does, so that no reserved bit is ignored. -/
def Obligations.EncodeThenDecodeGivesTheCommand : Prop :=
  (∀ i : Instr, decode (encode i) = .command i) ∧ ∀ (cw : Word32) (i : Instr), decode cw = .command i → encode i = cw

/-- R94: the decoder answers the command of the row whose mask and match the word meets, or `Illegal(1)`, or `Illegal(2)`; the
operand ranges of `SETW`, `SETH`, `RDBMP` and `RDCRAM` are no part of decoding. -/
def Obligations.DecoderFollowsMaskAndMatch : Prop :=
  ∀ cw : Word32,
    (∀ row ∈ opTable, (∃ i, decode cw = .command i ∧ i.mnemonic = row.mnemonic) ↔ cw &&& row.mask = row.pattern) ∧
    (decode cw = .illegal .unknownOpcode ↔ ∀ row ∈ opTable, opField cw ≠ opField row.pattern) ∧
    (decode cw = .illegal .reservedBit ↔
      ∃ row ∈ opTable, opField cw = opField row.pattern ∧ cw &&& row.mask ≠ row.pattern) ∧
    (∀ v : BitVec 16, decode (0x01#8 ++ 0#8 ++ v) = .command (.setw v) ∧ decode (0x02#8 ++ 0#8 ++ v) = .command (.seth v)) ∧
    (∀ v : BitVec 13, decode (0x08#8 ++ 0#11 ++ v) = .command (.rdbmp v)) ∧
    (∀ v : BitVec 10, decode (0x09#8 ++ 0#14 ++ v) = .command (.rdcram v))

/-- R102: the worked encodings, in both directions. -/
def Obligations.WorkedEncodingsDecode : Prop :=
  ∀ p ∈ ([(.setw 320, 0x01000140), (.seth 200, 0x020000C8), (.setmode true false, 0x03000001),
      (.setmode false true, 0x03000002), (.setbg 12, 0x0400000C), (.setptr 27, 0x0500001B), (.wrpix 0xFA, 0x060000FA),
      (.rdbmp 7997, 0x08001F3D), (.rdcram 999, 0x090003E7), (.rdasg 41, 0x0A000029), (.rdpal 8, 0x0C000008),
      (.nearest 255 64 0, 0x10FF4000), (.dither, 0x11000000), (.reduce, 0x12000000), (.encode, 0x13000000),
      (.rdstat, 0x20000000), (.rderr, 0x21000000), (.sreset, 0x2F000000)] : List (Instr × Word32)),
    encode p.1 = p.2 ∧ decode p.2 = .command p.1

/-! ## The step -/

/-- R97: what the block does with a word presented on `cmd`. The step takes the word off the port and runs the decoded
command; while a fault is recorded it honours three words and discards every other. That the word stands at the head of `port`
is the model's choice (notes/assumptions/2.md). -/
def Obligations.StepRunsTheDecodedCommand : Prop :=
  ∀ (s : State) (p : PortInput) (rest : List PortInput) (cw : Word32),
    s.port = p :: rest → p.rst = false → p.cmd = some cw →
    (s.err = true →
      (cw = 0x20000000 → step s = exec .rdstat (s.setPort rest)) ∧
      (cw = 0x21000000 → step s = exec .rderr (s.setPort rest)) ∧
      (cw = 0x2F000000 → step s = exec .sreset (s.setPort rest)) ∧
      (cw ≠ 0x20000000 → cw ≠ 0x21000000 → cw ≠ 0x2F000000 → step s = .next (s.setPort rest))) ∧
    (s.err = false →
      (∀ i, decode cw = .command i → step s = exec i (s.setPort rest)) ∧
      (decode cw = .illegal .unknownOpcode → step s = .next (raise .illegalCommand 1 (opField cw) (s.setPort rest))) ∧
      (decode cw = .illegal .reservedBit → step s = .next (raise .illegalCommand 2 (opField cw) (s.setPort rest))))

/-- R285, R293: an asserted `rst` resets the block whatever stands on `cmd`; a moment with nothing presented, and the time
after the last moment, leave the block as it is. That the host's inputs stand in `port` is the model's choice
(notes/assumptions/2.md). -/
def Obligations.ResetInputWinsAndIdleHolds : Prop :=
  (∀ (s : State) (p : PortInput) (rest : List PortInput), s.port = p :: rest →
    (p.rst = true → step s = .next (State.reset.setPort rest)) ∧
    (p.rst = false → p.cmd = none → step s = .next (s.setPort rest))) ∧
  (∀ s : State, s.port = [] → step s = .next s)

/-- R95, R96: with `ERR = 0` a word with a reserved opcode, or with a reserved bit set, raises `IllegalCommandError` with
reason 1 or 2 and changes nothing else; with `ERR = 1` it is discarded. -/
def Obligations.IllegalWordsRaiseAndChangeNothingElse : Prop :=
  ∀ (cw : Word32) (s : State),
    ((∀ row ∈ opTable, opField cw ≠ opField row.pattern) →
      issue cw s = if s.err then .next s
        else .next { s with err := true, errcode := 5, errinfo := 0x01#8 ++ opField cw }) ∧
    ((∃ row ∈ opTable, opField cw = opField row.pattern ∧ cw &&& row.mask ≠ row.pattern) →
      issue cw s = if s.err then .next s
        else .next { s with err := true, errcode := 5, errinfo := 0x02#8 ++ opField cw })

/-- R281 to R283: in a faulted state every step completes; either it leaves the recorded error and everything but `RESP` as it
was, or it is a reset. -/
def Obligations.RecordedFaultStaysUntilReset : Prop :=
  ∀ (s : State) (p : PortInput) (rest : List PortInput), s.err = true → s.port = p :: rest →
    ∃ t, step s = .next t ∧ (t = { s with resp := t.resp, port := rest } ∨ t = State.reset.setPort rest)

/-! ## Reset -/

/-- R311: the state after reset. Every register and flag is 0, `err` is low, and the block waits for the first command word
(that waiting is a step that changes nothing is the model's choice, notes/assumptions/2.md). -/
def Obligations.ResetStateIsAllZero : Prop :=
  State.reset.width = 0 ∧ State.reset.height = 0 ∧ State.reset.bgidx = 0 ∧ State.reset.ptr = 0 ∧ State.reset.resp = 0 ∧
  State.reset.mc = false ∧ State.reset.strict = false ∧ State.reset.err = false ∧ State.reset.errcode = 0 ∧
  State.reset.errinfo = 0 ∧ State.reset.asgv = false ∧ State.reset.outv = false ∧ State.reset.mcflag = false ∧
  State.reset.errPort = false ∧ step State.reset = .next State.reset

/-- R263, R310, R312: `SRESET` completes in every state, faulted or not, with the reset state and exactly as an asserted `rst`
does; no element of any memory holds a value then (that unspecified contents hold none is notes/assumptions/3.md). -/
def Obligations.SresetEqualsTheResetPort : Prop :=
  (∀ (s : State) (cmd : Option Word32),
    exec .sreset s = .next { State.reset with port := s.port } ∧
    takeInput ⟨true, cmd⟩ s = exec .sreset s ∧ issue 0x2F000000 s = exec .sreset s) ∧
  ∀ a, State.reset.pix.read a = none ∧ State.reset.asg.read a = none ∧ State.reset.bitmap.read a = none ∧
    State.reset.cram.read a = none

/-! ## Set-up commands -/

/-- R230: `SETW`. -/
def Obligations.SetwWritesWidth : Prop :=
  ∀ (imm : BitVec 16) (s : State),
    (imm.toNat ≤ 320 → exec (.setw imm) s = .next { s with width := imm, asgv := false }) ∧
    (320 < imm.toNat → exec (.setw imm) s = .next { s with err := true, errcode := 5, errinfo := 0x0301 })

/-- R231: `SETH`. -/
def Obligations.SethWritesHeight : Prop :=
  ∀ (imm : BitVec 16) (s : State),
    (imm.toNat ≤ 200 → exec (.seth imm) s = .next { s with height := imm, asgv := false }) ∧
    (200 < imm.toNat → exec (.seth imm) s = .next { s with err := true, errcode := 5, errinfo := 0x0302 })

/-- R232, R233, R234: `SETMODE`, `SETBG` and `SETPTR` complete in every state with every operand. -/
def Obligations.SetmodeSetbgSetptrWriteTheirRegister : Prop :=
  (∀ (mc strict : Bool) (s : State),
    exec (.setmode mc strict) s = .next { s with mc := mc, strict := strict, asgv := false }) ∧
  (∀ (i : BitVec 4) (s : State), exec (.setbg i) s = .next { s with bgidx := i, asgv := false }) ∧
  (∀ (a : BitVec 18) (s : State), exec (.setptr a) s = .next { s with ptr := a })

/-! ## Data movement -/

/-- R235: `WRPIX` stores its byte at `PTR`, when `PTR` is below `EXT`, and increases `PTR`; every other byte and everything else
is unchanged. At or above `EXT` it raises reason 5 and `PTR` stays. -/
def Obligations.WrpixStoresAtPtr : Prop :=
  ∀ (v : BitVec 8) (s : State),
    (s.ptr.toNat < 3 * s.width.toNat * s.height.toNat →
      ∃ t, exec (.wrpix v) s = .next t ∧ t = { s with pix := t.pix, ptr := s.ptr + 1 } ∧
        ∀ a, t.pix.read a = if a = s.ptr.toNat then some v else s.pix.read a) ∧
    (3 * s.width.toNat * s.height.toNat ≤ s.ptr.toNat →
      exec (.wrpix v) s = .next { s with err := true, errcode := 5, errinfo := 0x0506 })

/-- R236, R67: `RDPIX` loads the byte at `PTR` and increases `PTR`; at or above `EXT` it raises reason 5; where nothing has
written the byte since reset the model refuses, as R67 has a model do. -/
def Obligations.RdpixLoadsAtPtr : Prop :=
  ∀ s : State,
    (∀ v, s.ptr.toNat < 3 * s.width.toNat * s.height.toNat → s.pix.read s.ptr.toNat = some v →
      exec .rdpix s = .next { s with resp := v.setWidth 32, ptr := s.ptr + 1 }) ∧
    (3 * s.width.toNat * s.height.toNat ≤ s.ptr.toNat →
      exec .rdpix s = .next { s with err := true, errcode := 5, errinfo := 0x0507 }) ∧
    (s.ptr.toNat < 3 * s.width.toNat * s.height.toNat → s.pix.read s.ptr.toNat = none →
      exec .rdpix s = .refused (.unwritten .pix s.ptr.toNat))

/-- R237, R238, R278: `RDBMP` and `RDCRAM` check the range first, then `OUTV`, then give the byte in `RESP` and change nothing
else. -/
def Obligations.RdbmpAndRdcramReadThePlanes : Prop :=
  (∀ (a : BitVec 13) (s : State),
    (8000 ≤ a.toNat → exec (.rdbmp a) s = .next { s with err := true, errcode := 5, errinfo := 0x0308 }) ∧
    (a.toNat < 8000 → s.outv = false →
      exec (.rdbmp a) s = .next { s with err := true, errcode := 5, errinfo := 0x0408 }) ∧
    (∀ v, a.toNat < 8000 → s.outv = true → s.bitmap.read a.toNat = some v →
      exec (.rdbmp a) s = .next { s with resp := v.setWidth 32 })) ∧
  (∀ (a : BitVec 10) (s : State),
    (1000 ≤ a.toNat → exec (.rdcram a) s = .next { s with err := true, errcode := 5, errinfo := 0x0309 }) ∧
    (a.toNat < 1000 → s.outv = false →
      exec (.rdcram a) s = .next { s with err := true, errcode := 5, errinfo := 0x0409 }) ∧
    (∀ v, a.toNat < 1000 → s.outv = true → s.cram.read a.toNat = some v →
      exec (.rdcram a) s = .next { s with resp := v.setWidth 32 }))

/-- R239: `RDASG` checks `ASGV` first, then the bound `NBLK`, then gives the entry in `RESP` and changes nothing else. -/
def Obligations.RdasgReadsTheAssignment : Prop :=
  ∀ (n : BitVec 11) (s : State),
    (s.asgv = false → exec (.rdasg n) s = .next { s with err := true, errcode := 5, errinfo := 0x040A }) ∧
    (s.asgv = true → s.geom.nblk ≤ n.toNat →
      exec (.rdasg n) s = .next { s with err := true, errcode := 5, errinfo := 0x050A }) ∧
    (∀ e, s.asgv = true → n.toNat < s.geom.nblk → s.asg.read n.toNat = some e →
      exec (.rdasg n) s = .next { s with resp := e.setWidth 32 })

/-- R240: `RDDIM` gives `(HEIGHT << 16) | WIDTH` and changes nothing else. -/
def Obligations.RddimGivesTheDimensions : Prop :=
  ∀ s : State, ∃ t, exec .rddim s = .next t ∧ t = { s with resp := t.resp } ∧
    t.resp = (s.height.setWidth 32 <<< 16) ||| s.width.setWidth 32

/-! ## System commands -/

/-- R28: `RDSTAT` completes in every state and puts the view `STATUS` in `RESP`, bit 0 last, its reserved bits 0. -/
def Obligations.RdstatAssemblesStatus : Prop :=
  ∀ s : State, ∃ r : Word32, exec .rdstat s = .next { s with resp := r } ∧
    r = 0#18 ++ s.bgidx ++ BitVec.ofBool s.strict ++ BitVec.ofBool s.mc ++ 0#1 ++ BitVec.ofBool s.mcflag ++
      BitVec.ofBool s.outv ++ BitVec.ofBool s.asgv ++ s.errcode ++ BitVec.ofBool s.err

/-- R262: `RDERR` completes in every state and puts `ERRINFO` in `RESP`; in every state of the invariant with `ERR = 0` that
is 0. -/
def Obligations.RderrGivesErrinfo : Prop :=
  ∀ s : State, exec .rderr s = .next { s with resp := 0#16 ++ s.errinfo } ∧
    (Inv s → s.err = false → exec .rderr s = .next { s with resp := 0 })

/-- R260: `NOP` changes nothing, executed or discarded; any other word with opcode 0 is a reserved-bit fault. -/
def Obligations.NopChangesNothing : Prop :=
  ∀ s : State, exec .nop s = .next s ∧ issue 0 s = .next s ∧
    ∀ cw : Word32, opField cw = 0 → cw ≠ 0 → s.err = false →
      issue cw s = .next { s with err := true, errcode := 5, errinfo := 0x0200 }

/-! ## The palette -/

/-- R120: the squared distance, the ranges of its parts, and when it is 0. -/
def Obligations.DistanceIsSquaredEuclidean : Prop :=
  (∀ x y : Byte, -255 ≤ (x.toNat : Int) - y.toNat ∧ (x.toNat : Int) - y.toNat ≤ 255 ∧
    0 ≤ ((x.toNat : Int) - y.toNat) ^ 2 ∧ ((x.toNat : Int) - y.toNat) ^ 2 ≤ 65025) ∧
  ∀ a b : Rgb,
    dist2 a b = ((a.r.toNat : Int) - b.r.toNat) ^ 2 + ((a.g.toNat : Int) - b.g.toNat) ^ 2 +
      ((a.b.toNat : Int) - b.b.toNat) ^ 2 ∧
    0 ≤ dist2 a b ∧ dist2 a b ≤ 195075 ∧ (dist2 a b = 0 ↔ a = b) ∧ dist2 a b = dist2 b a

/-- R122: the lookup gives the least position whose candidate is at the least distance. -/
def Obligations.LookupGivesTheLeastNearestPosition : Prop :=
  ∀ (p c0 : Rgb) (cs : List Rgb),
    ∃ h : nearestOf p c0 cs < (c0 :: cs).length, ∀ (j : Nat) (hj : j < (c0 :: cs).length),
      dist2 p (c0 :: cs)[nearestOf p c0 cs] ≤ dist2 p (c0 :: cs)[j] ∧
      (j < nearestOf p c0 cs → dist2 p (c0 :: cs)[nearestOf p c0 cs] < dist2 p (c0 :: cs)[j])

/-- R123, R125: `NEAREST` completes in every state for every colour; `RESP` is the index of a nearest entry of the block's
palette, the least such index, and nothing else changes. -/
def Obligations.NearestGivesTheLeastNearestIndex : Prop :=
  ∀ (r g b : BitVec 8) (s : State), ∃ i : Idx,
    exec (.nearest r g b) s = .next { s with resp := 0#28 ++ i } ∧
    ∀ j : Idx, dist2 ⟨r, g, b⟩ (palAt Config.pal i) ≤ dist2 ⟨r, g, b⟩ (palAt Config.pal j) ∧
      (j < i → dist2 ⟨r, g, b⟩ (palAt Config.pal i) < dist2 ⟨r, g, b⟩ (palAt Config.pal j))

/-- R124 (b): quantising a palette colour gives the least index that holds the same colour, and so the index itself when the
entries are pairwise distinct. For every palette. -/
def Obligations.PaletteColourQuantisesToItself : Prop :=
  ∀ (pal : Palette) (i : Idx),
    palAt pal (nearest16 pal (palAt pal i)) = palAt pal i ∧
    (∀ j, palAt pal j = palAt pal i → nearest16 pal (palAt pal i) ≤ j) ∧
    (PalDistinct pal → nearest16 pal (palAt pal i) = i)

/-- R126: `RDPAL` completes in every state for every index: red in bits 23:16, green in 15:8, blue in 7:0. -/
def Obligations.RdpalGivesTheEntry : Prop :=
  ∀ (i : BitVec 4) (s : State), ∃ r : Word32, exec (.rdpal i) s = .next { s with resp := r } ∧
    r = 0#8 ++ (palAt Config.pal i).r ++ (palAt Config.pal i).g ++ (palAt Config.pal i).b

/-! ## Dither -/

/-- R145, R146: the share is the product over 16 rounded toward zero; the four shares of a residual never exceed it and lose
at most 3; a share of a byte's residual is at most 111 either way. -/
def Obligations.SharesTruncateTowardZero : Prop :=
  (∀ e k : Int, (0 ≤ e * k → fsShare e k = e * k / 16) ∧ (e * k < 0 → fsShare e k = -(-(e * k) / 16))) ∧
  (∀ e : Int, 0 ≤ e → e - 3 ≤ fsShare e 7 + fsShare e 3 + fsShare e 5 + fsShare e 1 ∧
    fsShare e 7 + fsShare e 3 + fsShare e 5 + fsShare e 1 ≤ e) ∧
  (∀ e : Int, e < 0 → e ≤ fsShare e 7 + fsShare e 3 + fsShare e 5 + fsShare e 1 ∧
    fsShare e 7 + fsShare e 3 + fsShare e 5 + fsShare e 1 ≤ e + 3) ∧
  (∀ e : Int, -255 ≤ e → e ≤ 255 → ∀ t ∈ kernel, -111 ≤ fsShare e t.k ∧ fsShare e t.k ≤ 111)

/-- R140, R147 (c): on a written image `DITHER` completes; it changes no register, no flag and no other memory, and no byte of
`PIX` at or above `EXT`. -/
def Obligations.DitherCompletesAndKeepsTheRest : Prop :=
  ∀ s : State, PixWritten s →
    ∃ t, exec .dither s = .next t ∧ t = { s with pix := t.pix } ∧ t.pix.writtenBelow s.geom.ext ∧
      ∀ a, s.geom.ext ≤ a → t.pix.read a = s.pix.read a

/-- R147: after `DITHER` every pixel of the image equals a palette entry; every byte of the image holds a byte (so it lies in
0 to 255); the bytes at and above `EXT` are unchanged. -/
def Obligations.DitherLeavesPaletteColours : Prop :=
  ∀ s t : State, exec .dither s = .next t →
    AllPaletteColours Config.pal t ∧ t.pix.writtenBelow t.geom.ext ∧
      ∀ a, s.geom.ext ≤ a → t.pix.read a = s.pix.read a

/-- R148: an image whose pixels are all palette colours is unchanged by `DITHER`. -/
def Obligations.DitherKeepsPaletteImages : Prop :=
  ∀ s : State, s.pix.wf → AllPaletteColours Config.pal s → exec .dither s = .next s

/-- R140 to R146 on a 2×2 image, where every weight of the kernel is used: each pixel is quantised from its bytes after the
shares of the pixels before it, each share clamped when it is added. -/
def Obligations.DitherOfTwoByTwoUsesTheKernel : Prop :=
  ∀ (s : State) (p00 p10 p01 p11 : Rgb), s.width = 2 → s.height = 2 →
    getPixel s.geom s.pix 0 0 = .ok p00 → getPixel s.geom s.pix 1 0 = .ok p10 →
    getPixel s.geom s.pix 0 1 = .ok p01 → getPixel s.geom s.pix 1 1 = .ok p11 →
    ∃ t, exec .dither s = .next t ∧
      let quant := fun p => palAt Config.pal (nearest16 Config.pal p)
      let q00 := quant p00
      let e00 := residual p00 q00
      let o10 := addShare fsShare e00 7 p10
      let q10 := quant o10
      let e10 := residual o10 q10
      let o01 := addShare fsShare e10 3 (addShare fsShare e00 5 p01)
      let q01 := quant o01
      let e01 := residual o01 q01
      let q11 := quant (addShare fsShare e01 7 (addShare fsShare e10 5 (addShare fsShare e00 1 p11)))
      getPixel t.geom t.pix 0 0 = .ok q00 ∧ getPixel t.geom t.pix 1 0 = .ok q10 ∧
      getPixel t.geom t.pix 0 1 = .ok q01 ∧ getPixel t.geom t.pix 1 1 = .ok q11

/-! ## The reducer -/

/-- R190: `REDUCE` in multicolour mode with the strict variant raises `UnsupportedModeError` reason 1 and writes nothing,
whatever `PIX` holds. -/
def Obligations.ReduceInStrictMulticolourIsUnsupported : Prop :=
  ∀ s : State, s.mc = true → s.strict = true →
    exec .reduce s = .next { s with err := true, errcode := 3, errinfo := 0x0112 }

/-- R163, R164: the two most frequent colours, ties to the lower index, and the fallback of a monochrome block. -/
def Obligations.TwoPassSelectsTheMostFrequent : Prop :=
  ∀ cnt : Idx → Nat,
    let f := (selectHires cnt).1
    let k := (selectHires cnt).2
    (∀ j, cnt j ≤ cnt f ∧ (j < f → cnt j < cnt f)) ∧ ((∃ j, 1 ≤ cnt j) → 1 ≤ cnt f) ∧ f ≠ k ∧
    ((∀ j, j ≠ f → cnt j = 0) → k = f + 1) ∧
    ((∃ j, j ≠ f ∧ 1 ≤ cnt j) → 1 ≤ cnt k ∧ ∀ j, j ≠ f → cnt j ≤ cnt k ∧ (j < k → cnt j < cnt k))

/-- R162 to R168: under the two-pass policy `REDUCE` completes on a written image. Every block is selected from the tally of
the pixels it had before the command, has its pair written to `ASG`, and each of its pixels becomes the nearer of the two,
measured from the bytes it had, `first` on a tie. Nothing else changes. -/
def Obligations.TwoPassReduceWorksFromTheOriginalPixels : Prop :=
  ∀ s : State, s.mc = false → s.strict = false → PixWritten s →
    ∃ t, exec .reduce s = .next t ∧ t = { s with pix := t.pix, asg := t.asg, asgv := true } ∧
      (∀ a, s.geom.ext ≤ a → t.pix.read a = s.pix.read a) ∧
      (∀ n, s.geom.nblk ≤ n → t.asg.read n = s.asg.read n) ∧
      ∀ row < s.geom.nby, ∀ col < s.geom.nbx, ∃ is, BlockIndices Config.pal s row col is ∧
        let f := (selectHires fun i => is.count i).1
        let k := (selectHires fun i => is.count i).2
        t.asg.read (row * s.geom.nbx + col) = some (0#4 ++ k ++ f) ∧
        ∀ xy ∈ s.geom.blockPixels row col, ∃ p, getPixel s.geom s.pix xy.1 xy.2 = .ok p ∧
          getPixel s.geom t.pix xy.1 xy.2 = .ok
            (if dist2 p (palAt Config.pal k) < dist2 p (palAt Config.pal f) then palAt Config.pal k else palAt Config.pal f)

/-- R173: after a completed hires `REDUCE`, of either policy, every pixel of a block equals one of the two colours of its
entry, the two indices differ and `n2` is 0; the bytes at and above `EXT` are unchanged and `ASGV` is 1. -/
def Obligations.HiresReduceLeavesTwoColoursPerBlock : Prop :=
  ∀ s t : State, s.mc = false → exec .reduce s = .next t → s.err = false → t.err = false →
    t.asgv = true ∧ (∀ a, s.geom.ext ≤ a → t.pix.read a = s.pix.read a) ∧
    ∀ row < s.geom.nby, ∀ col < s.geom.nbx, ∃ e, t.asg.read (row * s.geom.nbx + col) = some e ∧
      asgN0 e ≠ asgN1 e ∧ asgN2 e = 0 ∧
      ∀ xy ∈ s.geom.blockPixels row col,
        getPixel s.geom t.pix xy.1 xy.2 = .ok (palAt Config.pal (asgN0 e)) ∨
        getPixel s.geom t.pix xy.1 xy.2 = .ok (palAt Config.pal (asgN1 e))

/-- R174: a second two-pass `REDUCE` leaves `PIX` byte-identical, for any input. -/
def Obligations.TwoPassReduceIsIdempotentOnPixels : Prop :=
  ∀ s t : State, s.pix.wf → s.mc = false → s.strict = false → exec .reduce s = .next t →
    ∃ u, exec .reduce t = .next u ∧ u.pix = t.pix

/-- R170, R171, R176: under the strict variant, when three different nearest colours occur in a block, `REDUCE` raises
`PaletteOverflowError` for the first such block in row-major order and changes nothing else. For every palette; `exec .reduce s`
is `finish s (reduceWith Config.pal s)`. In a state of the invariant row and column fit their bytes (R277); the cut to a byte in
states no run reaches is the model's choice (notes/assumptions/12.md). -/
def Obligations.StrictReduceReportsTheFirstOverflow : Prop :=
  ∀ (pal : Palette) (s : State) (row col : Nat), s.mc = false → s.strict = true → PixWritten s →
    row < s.geom.nby → col < s.geom.nbx → ThreeColours pal s row col →
    (∀ r < s.geom.nby, ∀ c < s.geom.nbx, BlockBefore r c row col → ¬ ThreeColours pal s r c) →
    finish s (reduceWith pal s) = .next { s with
      err := true, errcode := 1, errinfo := BitVec.ofNat 8 row ++ BitVec.ofNat 8 col }

/-- R169, R172: under the strict variant, when no block has three different nearest colours, `REDUCE` completes on a written
image: a block's pair is its first colour seen and the first that differs, or the fallback, and each pixel becomes the nearer of
the two, measured from the bytes it had. Nothing else changes. -/
def Obligations.StrictReduceKeepsTheFirstSeenPair : Prop :=
  ∀ s : State, s.mc = false → s.strict = true → PixWritten s →
    (∀ row < s.geom.nby, ∀ col < s.geom.nbx, ¬ ThreeColours Config.pal s row col) →
    ∃ t, exec .reduce s = .next t ∧ t = { s with pix := t.pix, asg := t.asg, asgv := true } ∧
      (∀ a, s.geom.ext ≤ a → t.pix.read a = s.pix.read a) ∧
      (∀ n, s.geom.nblk ≤ n → t.asg.read n = s.asg.read n) ∧
      ∀ row < s.geom.nby, ∀ col < s.geom.nbx, ∃ is, BlockIndices Config.pal s row col is ∧
        let f := (strictPair is).1
        let k := (strictPair is).2
        t.asg.read (row * s.geom.nbx + col) = some (0#4 ++ k ++ f) ∧
        ∀ xy ∈ s.geom.blockPixels row col, ∃ p, getPixel s.geom s.pix xy.1 xy.2 = .ok p ∧
          getPixel s.geom t.pix xy.1 xy.2 = .ok
            (if dist2 p (palAt Config.pal k) < dist2 p (palAt Config.pal f) then palAt Config.pal k else palAt Config.pal f)

/-- R192, R193: the selected locals are the first three of the candidates (observed, not the background) as ranked by count
descending, then index ascending; all of them where there are fewer. -/
def Obligations.LocalsAreTheTopRankedCandidates : Prop :=
  ∀ (cnt : Idx → Nat) (bg : Idx),
    let before := fun i j : Idx => cnt j < cnt i ∨ (cnt i = cnt j ∧ i < j)
    (∀ i ∈ selectLocals cnt bg, i ≠ bg ∧ 1 ≤ cnt i) ∧
    (selectLocals cnt bg).Pairwise before ∧
    (selectLocals cnt bg).length ≤ 3 ∧
    ∀ j, j ≠ bg → 1 ≤ cnt j → j ∉ selectLocals cnt bg →
      (selectLocals cnt bg).length = 3 ∧ ∀ i ∈ selectLocals cnt bg, before i j

/-- R194: the background and three locals are four different slots, the selected locals first; each filler is the first index
after the slot before it, modulo 16, that is in no earlier slot. -/
def Obligations.FillersAreTheNextFreeIndices : Prop :=
  ∀ (cnt : Idx → Nat) (bg : Idx),
    let slots := bg :: localSlots cnt bg
    slots.length = 4 ∧ slots.Nodup ∧ bg :: selectLocals cnt bg <+: slots ∧
    ∀ n, (selectLocals cnt bg).length < n → n < 4 →
      ∀ d : Nat, 0 < d → d < (slots.getD n 0 - slots.getD (n - 1) 0).toNat →
        slots.getD (n - 1) 0 + BitVec.ofNat 4 d ∈ slots.take n

/-- R192 to R197: in multicolour mode without the strict variant `REDUCE` completes on a written image. Every block's locals
come from the tally of the pixels it had before the command; its entry and its pixels follow. A pixel becomes a nearest of the
four slots, measured from the bytes it had, the earliest slot on a tie. Nothing else changes. -/
def Obligations.MulticolourReduceWorksFromTheOriginalPixels : Prop :=
  ∀ s : State, s.mc = true → s.strict = false → PixWritten s →
    ∃ t, exec .reduce s = .next t ∧ t = { s with pix := t.pix, asg := t.asg, asgv := true } ∧
      (∀ a, s.geom.ext ≤ a → t.pix.read a = s.pix.read a) ∧
      (∀ n, s.geom.nblk ≤ n → t.asg.read n = s.asg.read n) ∧
      ∀ row < s.geom.nby, ∀ col < s.geom.nbx, ∃ is l0 l1 l2, BlockIndices Config.pal s row col is ∧
        localSlots (fun i => is.count i) s.bgidx = [l0, l1, l2] ∧
        t.asg.read (row * s.geom.nbx + col) = some (l2 ++ l1 ++ l0) ∧
        ∀ xy ∈ s.geom.blockPixels row col, ∃ p, getPixel s.geom s.pix xy.1 xy.2 = .ok p ∧
          ∃ n, ∃ h : n < [s.bgidx, l0, l1, l2].length,
            getPixel s.geom t.pix xy.1 xy.2 = .ok (palAt Config.pal [s.bgidx, l0, l1, l2][n]) ∧
            ∀ (j : Nat) (hj : j < [s.bgidx, l0, l1, l2].length),
              dist2 p (palAt Config.pal [s.bgidx, l0, l1, l2][n]) ≤ dist2 p (palAt Config.pal [s.bgidx, l0, l1, l2][j]) ∧
              (j < n →
                dist2 p (palAt Config.pal [s.bgidx, l0, l1, l2][n]) < dist2 p (palAt Config.pal [s.bgidx, l0, l1, l2][j]))

/-- R198 (a) to (c): after a completed multicolour `REDUCE` every pixel of a block equals the background or one of the three
colours of its entry, and the four indices are pairwise distinct. -/
def Obligations.MulticolourReduceLeavesFourColoursPerBlock : Prop :=
  ∀ s t : State, s.mc = true → exec .reduce s = .next t → s.err = false → t.err = false →
    t.asgv = true ∧ t.bgidx = s.bgidx ∧
    ∀ row < s.geom.nby, ∀ col < s.geom.nbx, ∃ e, t.asg.read (row * s.geom.nbx + col) = some e ∧
      [s.bgidx, asgN0 e, asgN1 e, asgN2 e].Nodup ∧
      ∀ xy ∈ s.geom.blockPixels row col, ∃ i ∈ [s.bgidx, asgN0 e, asgN1 e, asgN2 e],
        getPixel s.geom t.pix xy.1 xy.2 = .ok (palAt Config.pal i)

/-- R198 (d), with the named premise `PalDistinct` of R6: for every palette of pairwise distinct entries a second multicolour
`REDUCE` leaves `PIX` byte-identical. Without the premise it does not hold (NOTES.md). -/
def Obligations.MulticolourReduceIsIdempotentWhenPalDistinct : Prop :=
  ∀ (pal : Palette) (s t : State), PalDistinct pal → s.pix.wf → s.mc = true → reduceWith pal s = .ok t →
    ∃ u, reduceWith pal t = .ok u ∧ u.pix = t.pix

/-- R199: a pixel whose nearest palette colour is the background becomes the background colour. -/
def Obligations.BackgroundPixelsStayBackground : Prop :=
  ∀ (s t : State) (x y : Nat) (p : Rgb), s.mc = true → s.err = false → exec .reduce s = .next t → t.err = false →
    x < s.geom.width → y < s.geom.height → getPixel s.geom s.pix x y = .ok p → nearest16 Config.pal p = s.bgidx →
    getPixel s.geom t.pix x y = .ok (palAt Config.pal s.bgidx)

/-- R23, R161: in hires mode `REDUCE` does not read `BGIDX`: with another background it does the same and keeps that
background. -/
def Obligations.HiresReduceIgnoresTheBackground : Prop :=
  ∀ (s t : State) (i : Idx), s.mc = false → exec .reduce s = .next t →
    exec .reduce { s with bgidx := i } = .next { t with bgidx := i }

/-! ## The encoder -/

/-- R210, R220, R278: `ENCODE` checks the mode first, then the assignment, and writes nothing where a check fails. -/
def Obligations.EncodeChecksModeThenAssignment : Prop :=
  ∀ s : State,
    (s.mc = true → exec .encode s = .next { s with err := true, errcode := 3, errinfo := 0x0213 }) ∧
    (s.mc = false → s.asgv = false → exec .encode s = .next { s with err := true, errcode := 5, errinfo := 0x0413 })

/-- R213: `ENCODE` raises `BlockOverflowError` for the first cell, in row-major order, that holds a pixel outside its two
colours, and changes nothing else. In a state of the invariant row and column fit their bytes (R277); the cut to a byte in
states no run reaches is the model's choice (notes/assumptions/12.md). -/
def Obligations.EncodeReportsTheFirstOverflowingCell : Prop :=
  ∀ (s : State) (row col : Nat), s.mc = false → s.asgv = true → PixWritten s → s.asg.writtenBelow s.geom.nblk →
    row < s.geom.nby → col < s.geom.nbx → CellOverflows Config.pal s row col →
    (∀ r < s.geom.nby, ∀ c < s.geom.nbx, BlockBefore r c row col → ¬ CellOverflows Config.pal s r c) →
    exec .encode s = .next { s with
      err := true, errcode := 4, errinfo := BitVec.ofNat 8 row ++ BitVec.ofNat 8 col }

/-- R211, R214 to R219: `ENCODE` completes on a written hires image whose pixels all have their cell's colours. Both planes are
written whole: the bit of screen pixel `(x, y)`, bit `7 - (x & 7)` of byte `(y/8)*320 + (x/8)*8 + (y&7)`, is 1 exactly when the
pixel is in the image and differs from its cell's background; the colour byte of a covered cell is its two indices, of an
uncovered cell 0. Nothing else changes. -/
def Obligations.EncodeWritesTheHiresLayout : Prop :=
  ∀ s : State, s.mc = false → s.asgv = true → s.width.toNat ≤ 320 → s.height.toNat ≤ 200 → PixWritten s →
    s.asg.writtenBelow s.geom.nblk →
    (∀ row < s.geom.nby, ∀ col < s.geom.nbx, ¬ CellOverflows Config.pal s row col) →
    ∃ t, exec .encode s = .next t ∧
      t = { s with bitmap := t.bitmap, cram := t.cram, outv := true, mcflag := false } ∧
      (∀ a, (t.bitmap.read a).isSome ↔ a < 8000) ∧ (∀ a, (t.cram.read a).isSome ↔ a < 1000) ∧
      (∀ x < 320, ∀ y < 200, ∃ v, t.bitmap.read (y / 8 * 320 + x / 8 * 8 + y % 8) = some v ∧
        (v.getLsbD (7 - x % 8) = true ↔ x < s.width.toNat ∧ y < s.height.toNat ∧
          ∃ e, s.asg.read (y / 8 * s.geom.nbx + x / 8) = some e ∧
            getPixel s.geom s.pix x y ≠ .ok (palAt Config.pal (asgN0 e)))) ∧
      (∀ row < 25, ∀ col < 40,
        (∀ e, row < s.geom.nby → col < s.geom.nbx → s.asg.read (row * s.geom.nbx + col) = some e →
          t.cram.read (row * 40 + col) = some (asgN1 e ++ asgN0 e)) ∧
        (¬ (row < s.geom.nby ∧ col < s.geom.nbx) → t.cram.read (row * 40 + col) = some 0))

/-- R213, R275: `ENCODE` straight after a completed hires `REDUCE` completes: its overflow check is unreachable there. -/
def Obligations.EncodeAfterReduceCompletes : Prop :=
  ∀ s t : State, Inv s → s.mc = false → s.err = false → exec .reduce s = .next t → t.err = false →
    ∃ u, exec .encode t = .next u ∧ u.err = false ∧ u.outv = true ∧ u.pix = t.pix ∧ u.asg = t.asg

/-- R222: after a completed `ENCODE` every pixel of the image can be read back from its bit and its cell's two nibbles. -/
def Obligations.EncodedPlanesDecodeToThePicture : Prop :=
  ∀ s t : State, Inv s → s.err = false → exec .encode s = .next t → t.err = false →
    ∀ x < s.width.toNat, ∀ y < s.height.toNat, ∃ v c : Byte,
      t.bitmap.read (y / 8 * 320 + x / 8 * 8 + y % 8) = some v ∧ t.cram.read (y / 8 * 40 + x / 8) = some c ∧
      getPixel s.geom s.pix x y = .ok (palAt Config.pal
        (if v.getLsbD (7 - x % 8) then (c >>> 4).setWidth 4 else (c &&& 0x0F).setWidth 4))

/-! ## Rules about the whole machine -/

/-- R280: a command that faults changes `ERR`, `ERRCODE` and `ERRINFO` and nothing else. -/
def Obligations.FaultsArePrecise : Prop :=
  ∀ (i : Instr) (s t : State), exec i s = .next t → s.err = false → t.err = true →
    t = { s with err := true, errcode := t.errcode, errinfo := t.errinfo }

/-- R276, R277, R294: the errors each command can raise, with the reason and the opcode byte in `ERRINFO` where it carries a
reason. -/
def Obligations.CommandsRaiseOnlyTheirErrors : Prop :=
  ∀ (i : Instr) (s t : State), exec i s = .next t → s.err = false → t.err = true →
    ∃ e ∈ errorsOf i, t.errcode = e.1 ∧ ∀ reason, e.2 = some reason → t.errinfo = reason ++ opcodeOf i

/-- R25: `RESP` is written only by the read commands and by reset; every other command, and every command that faults, leaves
it unchanged. -/
def Obligations.OnlyReadCommandsWriteResp : Prop :=
  ∀ (i : Instr) (s t : State), exec i s = .next t →
    (writesResp i = false → t.resp = s.resp) ∧ (s.err = false → t.err = true → t.resp = s.resp)

/-- R36, R37: `PIX` is written only by `WRPIX`, `DITHER`, `REDUCE` and reset, and only below `EXT` except by reset; `ASG` is
written only by `REDUCE` and reset. -/
def Obligations.PixelAndAssignmentMemoryHaveFewWriters : Prop :=
  ∀ (i : Instr) (s t : State), exec i s = .next t →
    (writesPix i = false → t.pix = s.pix) ∧
    (i ≠ .sreset → ∀ a, s.geom.ext ≤ a → t.pix.read a = s.pix.read a) ∧
    (i ≠ .reduce → i ≠ .sreset → t.asg = s.asg)

/-- R33, R34, R38, R39, R319: the output aggregate is written only by a completed `ENCODE` and by reset; `OUTV` is cleared only
by reset. -/
def Obligations.OutputsStayUntilTheNextEncode : Prop :=
  ∀ (i : Instr) (s t : State), exec i s = .next t →
    (i ≠ .encode → i ≠ .sreset →
      t.bitmap = s.bitmap ∧ t.cram = s.cram ∧ t.mcflag = s.mcflag ∧ t.outv = s.outv) ∧
    (i ≠ .sreset → s.outv = true → t.outv = true)

/-- R32: a completed `REDUCE` sets `ASGV`; `SETW`, `SETH`, `SETMODE`, `SETBG` and reset clear it when they complete; nothing
else changes it. -/
def Obligations.AsgvFollowsItsRule : Prop :=
  ∀ (i : Instr) (s t : State), exec i s = .next t →
    (clearsAsgv i = true → t.err = false → t.asgv = false) ∧
    (i = .reduce → s.err = false → t.err = false → t.asgv = true) ∧
    (clearsAsgv i = false → i ≠ .reduce → t.asgv = s.asgv) ∧
    (s.err = false → t.err = true → t.asgv = s.asgv)

/-- R43: the invariant holds after reset. -/
def Obligations.InvariantHoldsAtReset : Prop := Inv State.reset

/-- R43: every step from a state of the invariant that answers a next state keeps the invariant. -/
def Obligations.EveryStepKeepsTheInvariant : Prop := ∀ s t : State, Inv s → step s = .next t → Inv t

/-- R313: once every byte of the image has been written, it stays so under every command but `SETW` and `SETH`. -/
def Obligations.WrittenImageStaysWritten : Prop :=
  ∀ (i : Instr) (s t : State), PixWritten s → exec i s = .next t →
    (∀ v, i ≠ .setw v) → (∀ v, i ≠ .seth v) → PixWritten t

/-- R67, R294, U5: from a state of the invariant, a command is given no meaning only where it reads a byte of the image that
nothing has written since reset, and only `RDPIX`, `DITHER`, `REDUCE` and `ENCODE` do. -/
def Obligations.OnlyUnwrittenPixelsAreRefused : Prop :=
  ∀ (i : Instr) (s : State) (r : Refusal), Inv s → exec i s = .refused r →
    (i = .rdpix ∨ i = .dither ∨ i = .reduce ∨ i = .encode) ∧
    ∃ a < s.geom.ext, r = .unwritten .pix a ∧ s.pix.read a = none

/-- R294: from a state of the invariant whose image is written, every step completes, whatever is presented. -/
def Obligations.StepsOfWrittenImagesComplete : Prop :=
  ∀ s : State, Inv s → PixWritten s → ∃ t, step s = .next t
end

