-- ==== Sys2Proof/Laws/Loops.lean ====
section
/-! SUPPORT. The one induction behind every loop of the command rules: a fold whose step may end the command early. -/

namespace Sys2Proof.Machine

variable {σ β ε : Type}

/-- What a loop that completes has kept, `P` speaking of the elements done so far and the state reached. -/
theorem foldlM_inv_prefix {f : σ → β → Except ε σ} (P : List β → σ → Prop) (l : List β) {init r : σ} (h0 : P [] init)
    (hstep : ∀ pre x post s t, l = pre ++ x :: post → P pre s → f s x = .ok t → P (pre ++ [x]) t)
    (h : l.foldlM f init = .ok r) : P l r := by
  suffices H : ∀ (post pre : List β) (s : σ), l = pre ++ post → P pre s → post.foldlM f s = .ok r → P l r from
    H l [] init rfl h0 h
  intro post
  induction post with
  | nil => intro pre s hl hp hr; cases hr; simpa [hl] using hp
  | cons x post ih =>
    intro pre s hl hp hr
    rw [List.foldlM_cons] at hr
    cases ht : f s x with
    | error e => rw [ht] at hr; cases hr
    | ok t =>
      rw [ht] at hr
      exact ih (pre ++ [x]) t (by simp [hl]) (hstep pre x post s t hl hp ht) hr

/-- A loop completes, and keeps `P`, when every round can and does. -/
theorem foldlM_ok_prefix {f : σ → β → Except ε σ} (P : List β → σ → Prop) (l : List β) {init : σ} (h0 : P [] init)
    (hstep : ∀ pre x post s, l = pre ++ x :: post → P pre s → ∃ t, f s x = .ok t ∧ P (pre ++ [x]) t) :
    ∃ r, l.foldlM f init = .ok r ∧ P l r := by
  suffices H : ∀ (post pre : List β) (s : σ), l = pre ++ post → P pre s → ∃ r, post.foldlM f s = .ok r ∧ P l r from
    H l [] init rfl h0
  intro post
  induction post with
  | nil => intro pre s hl hp; exact ⟨s, rfl, by simpa [hl] using hp⟩
  | cons x post ih =>
    intro pre s hl hp
    obtain ⟨t, ht, hpt⟩ := hstep pre x post s hl hp
    obtain ⟨r, hr, hpr⟩ := ih (pre ++ [x]) t (by simp [hl]) hpt
    exact ⟨r, by rw [List.foldlM_cons, ht]; exact hr, hpr⟩

/-- Where a loop ends early: some round ended it, in a state the rounds before it reached. -/
theorem foldlM_error_prefix {f : σ → β → Except ε σ} (P : List β → σ → Prop) (l : List β) {init : σ} {e : ε}
    (h0 : P [] init)
    (hstep : ∀ pre x post s t, l = pre ++ x :: post → P pre s → f s x = .ok t → P (pre ++ [x]) t)
    (h : l.foldlM f init = .error e) : ∃ pre x post s, l = pre ++ x :: post ∧ P pre s ∧ f s x = .error e := by
  suffices H : ∀ (post pre : List β) (s : σ), l = pre ++ post → P pre s → post.foldlM f s = .error e →
      ∃ pre x post s, l = pre ++ x :: post ∧ P pre s ∧ f s x = .error e from H l [] init rfl h0 h
  intro post
  induction post with
  | nil => intro pre s _ _ hr; cases hr
  | cons x post ih =>
    intro pre s hl hp hr
    rw [List.foldlM_cons] at hr
    cases ht : f s x with
    | error e' => rw [ht] at hr; cases hr; exact ⟨pre, x, post, s, hl, hp, ht⟩
    | ok t =>
      rw [ht] at hr
      exact ih (pre ++ [x]) t (by simp [hl]) (hstep pre x post s t hl hp ht) hr

/-- The invariant form of `foldlM_inv_prefix`. -/
theorem foldlM_inv {f : σ → β → Except ε σ} (P : σ → Prop) (l : List β) {init r : σ} (h0 : P init)
    (hstep : ∀ x ∈ l, ∀ s t, P s → f s x = .ok t → P t) (h : l.foldlM f init = .ok r) : P r :=
  foldlM_inv_prefix (fun _ s => P s) l h0 (fun pre x post s t hl hp ht => hstep x (by simp [hl]) s t hp ht) h

/-- The invariant form of `foldlM_ok_prefix`. -/
theorem foldlM_ok {f : σ → β → Except ε σ} (P : σ → Prop) (l : List β) {init : σ} (h0 : P init)
    (hstep : ∀ x ∈ l, ∀ s, P s → ∃ t, f s x = .ok t ∧ P t) : ∃ r, l.foldlM f init = .ok r ∧ P r :=
  foldlM_ok_prefix (fun _ s => P s) l h0 fun pre x post s hl hp => hstep x (by simp [hl]) s hp

/-- The invariant form of `foldlM_error_prefix`. -/
theorem foldlM_error {f : σ → β → Except ε σ} (P : σ → Prop) (l : List β) {init : σ} {e : ε} (h0 : P init)
    (hstep : ∀ x ∈ l, ∀ s t, P s → f s x = .ok t → P t) (h : l.foldlM f init = .error e) :
    ∃ x ∈ l, ∃ s, P s ∧ f s x = .error e := by
  obtain ⟨pre, x, post, s, hl, hp, hf⟩ :=
    foldlM_error_prefix (fun _ s => P s) l h0 (fun pre x post s t hl hp ht => hstep x (by simp [hl]) s t hp ht) h
  exact ⟨x, by simp [hl], s, hp, hf⟩

/-- Doing two things in a row completes when the first completes and then the second does. -/
theorem bind_eq_ok {α β ε : Type} {x : Except ε α} {f : α → Except ε β} {b : β} :
    (x >>= f) = .ok b ↔ ∃ a, x = .ok a ∧ f a = .ok b := by
  cases x with
  | error e => exact ⟨fun h => (nomatch h), fun ⟨_, h, _⟩ => (nomatch h)⟩
  | ok a => exact ⟨fun h => ⟨a, rfl, h⟩, fun ⟨_, h, hf⟩ => by cases h; exact hf⟩

/-- Doing two things in a row ends early when the first does, or when the first completes and then the second does. -/
theorem bind_eq_error {α β ε : Type} {x : Except ε α} {f : α → Except ε β} {e : ε} :
    (x >>= f) = .error e ↔ x = .error e ∨ ∃ a, x = .ok a ∧ f a = .error e := by
  cases x with
  | error e' =>
    exact ⟨fun h => .inl (by cases h; rfl), fun h => h.elim (fun h => by cases h; rfl) fun ⟨_, h, _⟩ => (nomatch h)⟩
  | ok a => exact ⟨fun h => .inr ⟨a, rfl, h⟩, fun h => h.elim (fun h => (nomatch h)) fun ⟨_, h, hf⟩ => by cases h; exact hf⟩

@[simp] theorem ok_bind {α β ε : Type} (a : α) (f : α → Except ε β) : (Except.ok a >>= f) = f a := rfl

@[simp] theorem error_bind {α β ε : Type} (e : ε) (f : α → Except ε β) : ((Except.error e : Except ε α) >>= f) = .error e :=
  rfl

/-! ## How a command ends -/

@[simp] theorem finish_ok (s t : State) : finish s (.ok t) = .next t := rfl

@[simp] theorem finish_raise (s : State) (e : ErrKind) (hi lo : Byte) :
    finish s (.error (.raise e hi lo)) = .next (raise e hi lo s) := rfl

@[simp] theorem finish_refuse (s : State) (r : Refusal) : finish s (.error (.refuse r)) = .refused r := rfl

/-- A command that answers a next state either completed or entered an error upon the state it started in (R270, R280). -/
theorem finish_eq_next {s t : State} {x : Except Abort State} (h : finish s x = .next t) :
    x = .ok t ∨ ∃ e hi lo, x = .error (.raise e hi lo) ∧ t = raise e hi lo s := by
  match x with
  | .ok u => cases h; exact .inl rfl
  | .error (.raise e hi lo) => cases h; exact .inr ⟨e, hi, lo, rfl, rfl⟩
  | .error (.refuse r) => cases h

theorem finish_eq_refused {s : State} {x : Except Abort State} {r : Refusal} (h : finish s x = .refused r) :
    x = .error (.refuse r) := by
  match x with
  | .ok u => cases h
  | .error (.raise e hi lo) => cases h
  | .error (.refuse r) => cases h; rfl

end Sys2Proof.Machine
end

