-- ==== Sys2Proof/Laws/State.lean ====
section
/-! SUPPORT. What each update of the state does to each field, so that no later proof unfolds a record update. -/

namespace Sys2Proof.Machine

variable (s : State)

/-! ## `setWidth` -/

@[simp] theorem State.setWidth_width (v : BitVec 16) : (s.setWidth v).width = v := rfl
@[simp] theorem State.setWidth_height (v : BitVec 16) : (s.setWidth v).height = s.height := rfl
@[simp] theorem State.setWidth_bgidx (v : BitVec 16) : (s.setWidth v).bgidx = s.bgidx := rfl
@[simp] theorem State.setWidth_ptr (v : BitVec 16) : (s.setWidth v).ptr = s.ptr := rfl
@[simp] theorem State.setWidth_resp (v : BitVec 16) : (s.setWidth v).resp = s.resp := rfl
@[simp] theorem State.setWidth_mc (v : BitVec 16) : (s.setWidth v).mc = s.mc := rfl
@[simp] theorem State.setWidth_strict (v : BitVec 16) : (s.setWidth v).strict = s.strict := rfl
@[simp] theorem State.setWidth_err (v : BitVec 16) : (s.setWidth v).err = s.err := rfl
@[simp] theorem State.setWidth_errcode (v : BitVec 16) : (s.setWidth v).errcode = s.errcode := rfl
@[simp] theorem State.setWidth_errinfo (v : BitVec 16) : (s.setWidth v).errinfo = s.errinfo := rfl
@[simp] theorem State.setWidth_asgv (v : BitVec 16) : (s.setWidth v).asgv = s.asgv := rfl
@[simp] theorem State.setWidth_outv (v : BitVec 16) : (s.setWidth v).outv = s.outv := rfl
@[simp] theorem State.setWidth_mcflag (v : BitVec 16) : (s.setWidth v).mcflag = s.mcflag := rfl
@[simp] theorem State.setWidth_pix (v : BitVec 16) : (s.setWidth v).pix = s.pix := rfl
@[simp] theorem State.setWidth_asg (v : BitVec 16) : (s.setWidth v).asg = s.asg := rfl
@[simp] theorem State.setWidth_bitmap (v : BitVec 16) : (s.setWidth v).bitmap = s.bitmap := rfl
@[simp] theorem State.setWidth_cram (v : BitVec 16) : (s.setWidth v).cram = s.cram := rfl
@[simp] theorem State.setWidth_port (v : BitVec 16) : (s.setWidth v).port = s.port := rfl

/-! ## `setHeight` -/

@[simp] theorem State.setHeight_width (v : BitVec 16) : (s.setHeight v).width = s.width := rfl
@[simp] theorem State.setHeight_height (v : BitVec 16) : (s.setHeight v).height = v := rfl
@[simp] theorem State.setHeight_bgidx (v : BitVec 16) : (s.setHeight v).bgidx = s.bgidx := rfl
@[simp] theorem State.setHeight_ptr (v : BitVec 16) : (s.setHeight v).ptr = s.ptr := rfl
@[simp] theorem State.setHeight_resp (v : BitVec 16) : (s.setHeight v).resp = s.resp := rfl
@[simp] theorem State.setHeight_mc (v : BitVec 16) : (s.setHeight v).mc = s.mc := rfl
@[simp] theorem State.setHeight_strict (v : BitVec 16) : (s.setHeight v).strict = s.strict := rfl
@[simp] theorem State.setHeight_err (v : BitVec 16) : (s.setHeight v).err = s.err := rfl
@[simp] theorem State.setHeight_errcode (v : BitVec 16) : (s.setHeight v).errcode = s.errcode := rfl
@[simp] theorem State.setHeight_errinfo (v : BitVec 16) : (s.setHeight v).errinfo = s.errinfo := rfl
@[simp] theorem State.setHeight_asgv (v : BitVec 16) : (s.setHeight v).asgv = s.asgv := rfl
@[simp] theorem State.setHeight_outv (v : BitVec 16) : (s.setHeight v).outv = s.outv := rfl
@[simp] theorem State.setHeight_mcflag (v : BitVec 16) : (s.setHeight v).mcflag = s.mcflag := rfl
@[simp] theorem State.setHeight_pix (v : BitVec 16) : (s.setHeight v).pix = s.pix := rfl
@[simp] theorem State.setHeight_asg (v : BitVec 16) : (s.setHeight v).asg = s.asg := rfl
@[simp] theorem State.setHeight_bitmap (v : BitVec 16) : (s.setHeight v).bitmap = s.bitmap := rfl
@[simp] theorem State.setHeight_cram (v : BitVec 16) : (s.setHeight v).cram = s.cram := rfl
@[simp] theorem State.setHeight_port (v : BitVec 16) : (s.setHeight v).port = s.port := rfl

/-! ## `setBgidx` -/

@[simp] theorem State.setBgidx_width (v : Idx) : (s.setBgidx v).width = s.width := rfl
@[simp] theorem State.setBgidx_height (v : Idx) : (s.setBgidx v).height = s.height := rfl
@[simp] theorem State.setBgidx_bgidx (v : Idx) : (s.setBgidx v).bgidx = v := rfl
@[simp] theorem State.setBgidx_ptr (v : Idx) : (s.setBgidx v).ptr = s.ptr := rfl
@[simp] theorem State.setBgidx_resp (v : Idx) : (s.setBgidx v).resp = s.resp := rfl
@[simp] theorem State.setBgidx_mc (v : Idx) : (s.setBgidx v).mc = s.mc := rfl
@[simp] theorem State.setBgidx_strict (v : Idx) : (s.setBgidx v).strict = s.strict := rfl
@[simp] theorem State.setBgidx_err (v : Idx) : (s.setBgidx v).err = s.err := rfl
@[simp] theorem State.setBgidx_errcode (v : Idx) : (s.setBgidx v).errcode = s.errcode := rfl
@[simp] theorem State.setBgidx_errinfo (v : Idx) : (s.setBgidx v).errinfo = s.errinfo := rfl
@[simp] theorem State.setBgidx_asgv (v : Idx) : (s.setBgidx v).asgv = s.asgv := rfl
@[simp] theorem State.setBgidx_outv (v : Idx) : (s.setBgidx v).outv = s.outv := rfl
@[simp] theorem State.setBgidx_mcflag (v : Idx) : (s.setBgidx v).mcflag = s.mcflag := rfl
@[simp] theorem State.setBgidx_pix (v : Idx) : (s.setBgidx v).pix = s.pix := rfl
@[simp] theorem State.setBgidx_asg (v : Idx) : (s.setBgidx v).asg = s.asg := rfl
@[simp] theorem State.setBgidx_bitmap (v : Idx) : (s.setBgidx v).bitmap = s.bitmap := rfl
@[simp] theorem State.setBgidx_cram (v : Idx) : (s.setBgidx v).cram = s.cram := rfl
@[simp] theorem State.setBgidx_port (v : Idx) : (s.setBgidx v).port = s.port := rfl
@[simp] theorem State.setBgidx_geom (v : Idx) : (s.setBgidx v).geom = s.geom := rfl

/-! ## `setPtr` -/

@[simp] theorem State.setPtr_width (v : BitVec 18) : (s.setPtr v).width = s.width := rfl
@[simp] theorem State.setPtr_height (v : BitVec 18) : (s.setPtr v).height = s.height := rfl
@[simp] theorem State.setPtr_bgidx (v : BitVec 18) : (s.setPtr v).bgidx = s.bgidx := rfl
@[simp] theorem State.setPtr_ptr (v : BitVec 18) : (s.setPtr v).ptr = v := rfl
@[simp] theorem State.setPtr_resp (v : BitVec 18) : (s.setPtr v).resp = s.resp := rfl
@[simp] theorem State.setPtr_mc (v : BitVec 18) : (s.setPtr v).mc = s.mc := rfl
@[simp] theorem State.setPtr_strict (v : BitVec 18) : (s.setPtr v).strict = s.strict := rfl
@[simp] theorem State.setPtr_err (v : BitVec 18) : (s.setPtr v).err = s.err := rfl
@[simp] theorem State.setPtr_errcode (v : BitVec 18) : (s.setPtr v).errcode = s.errcode := rfl
@[simp] theorem State.setPtr_errinfo (v : BitVec 18) : (s.setPtr v).errinfo = s.errinfo := rfl
@[simp] theorem State.setPtr_asgv (v : BitVec 18) : (s.setPtr v).asgv = s.asgv := rfl
@[simp] theorem State.setPtr_outv (v : BitVec 18) : (s.setPtr v).outv = s.outv := rfl
@[simp] theorem State.setPtr_mcflag (v : BitVec 18) : (s.setPtr v).mcflag = s.mcflag := rfl
@[simp] theorem State.setPtr_pix (v : BitVec 18) : (s.setPtr v).pix = s.pix := rfl
@[simp] theorem State.setPtr_asg (v : BitVec 18) : (s.setPtr v).asg = s.asg := rfl
@[simp] theorem State.setPtr_bitmap (v : BitVec 18) : (s.setPtr v).bitmap = s.bitmap := rfl
@[simp] theorem State.setPtr_cram (v : BitVec 18) : (s.setPtr v).cram = s.cram := rfl
@[simp] theorem State.setPtr_port (v : BitVec 18) : (s.setPtr v).port = s.port := rfl
@[simp] theorem State.setPtr_geom (v : BitVec 18) : (s.setPtr v).geom = s.geom := rfl

/-! ## `setResp` -/

@[simp] theorem State.setResp_width (v : Word32) : (s.setResp v).width = s.width := rfl
@[simp] theorem State.setResp_height (v : Word32) : (s.setResp v).height = s.height := rfl
@[simp] theorem State.setResp_bgidx (v : Word32) : (s.setResp v).bgidx = s.bgidx := rfl
@[simp] theorem State.setResp_ptr (v : Word32) : (s.setResp v).ptr = s.ptr := rfl
@[simp] theorem State.setResp_resp (v : Word32) : (s.setResp v).resp = v := rfl
@[simp] theorem State.setResp_mc (v : Word32) : (s.setResp v).mc = s.mc := rfl
@[simp] theorem State.setResp_strict (v : Word32) : (s.setResp v).strict = s.strict := rfl
@[simp] theorem State.setResp_err (v : Word32) : (s.setResp v).err = s.err := rfl
@[simp] theorem State.setResp_errcode (v : Word32) : (s.setResp v).errcode = s.errcode := rfl
@[simp] theorem State.setResp_errinfo (v : Word32) : (s.setResp v).errinfo = s.errinfo := rfl
@[simp] theorem State.setResp_asgv (v : Word32) : (s.setResp v).asgv = s.asgv := rfl
@[simp] theorem State.setResp_outv (v : Word32) : (s.setResp v).outv = s.outv := rfl
@[simp] theorem State.setResp_mcflag (v : Word32) : (s.setResp v).mcflag = s.mcflag := rfl
@[simp] theorem State.setResp_pix (v : Word32) : (s.setResp v).pix = s.pix := rfl
@[simp] theorem State.setResp_asg (v : Word32) : (s.setResp v).asg = s.asg := rfl
@[simp] theorem State.setResp_bitmap (v : Word32) : (s.setResp v).bitmap = s.bitmap := rfl
@[simp] theorem State.setResp_cram (v : Word32) : (s.setResp v).cram = s.cram := rfl
@[simp] theorem State.setResp_port (v : Word32) : (s.setResp v).port = s.port := rfl
@[simp] theorem State.setResp_geom (v : Word32) : (s.setResp v).geom = s.geom := rfl

/-! ## `setMode` -/

@[simp] theorem State.setMode_width (m k : Bool) : (s.setMode m k).width = s.width := rfl
@[simp] theorem State.setMode_height (m k : Bool) : (s.setMode m k).height = s.height := rfl
@[simp] theorem State.setMode_bgidx (m k : Bool) : (s.setMode m k).bgidx = s.bgidx := rfl
@[simp] theorem State.setMode_ptr (m k : Bool) : (s.setMode m k).ptr = s.ptr := rfl
@[simp] theorem State.setMode_resp (m k : Bool) : (s.setMode m k).resp = s.resp := rfl
@[simp] theorem State.setMode_mc (m k : Bool) : (s.setMode m k).mc = m := rfl
@[simp] theorem State.setMode_strict (m k : Bool) : (s.setMode m k).strict = k := rfl
@[simp] theorem State.setMode_err (m k : Bool) : (s.setMode m k).err = s.err := rfl
@[simp] theorem State.setMode_errcode (m k : Bool) : (s.setMode m k).errcode = s.errcode := rfl
@[simp] theorem State.setMode_errinfo (m k : Bool) : (s.setMode m k).errinfo = s.errinfo := rfl
@[simp] theorem State.setMode_asgv (m k : Bool) : (s.setMode m k).asgv = s.asgv := rfl
@[simp] theorem State.setMode_outv (m k : Bool) : (s.setMode m k).outv = s.outv := rfl
@[simp] theorem State.setMode_mcflag (m k : Bool) : (s.setMode m k).mcflag = s.mcflag := rfl
@[simp] theorem State.setMode_pix (m k : Bool) : (s.setMode m k).pix = s.pix := rfl
@[simp] theorem State.setMode_asg (m k : Bool) : (s.setMode m k).asg = s.asg := rfl
@[simp] theorem State.setMode_bitmap (m k : Bool) : (s.setMode m k).bitmap = s.bitmap := rfl
@[simp] theorem State.setMode_cram (m k : Bool) : (s.setMode m k).cram = s.cram := rfl
@[simp] theorem State.setMode_port (m k : Bool) : (s.setMode m k).port = s.port := rfl

/-! ## `setAsgv` -/

@[simp] theorem State.setAsgv_width (v : Bool) : (s.setAsgv v).width = s.width := rfl
@[simp] theorem State.setAsgv_height (v : Bool) : (s.setAsgv v).height = s.height := rfl
@[simp] theorem State.setAsgv_bgidx (v : Bool) : (s.setAsgv v).bgidx = s.bgidx := rfl
@[simp] theorem State.setAsgv_ptr (v : Bool) : (s.setAsgv v).ptr = s.ptr := rfl
@[simp] theorem State.setAsgv_resp (v : Bool) : (s.setAsgv v).resp = s.resp := rfl
@[simp] theorem State.setAsgv_mc (v : Bool) : (s.setAsgv v).mc = s.mc := rfl
@[simp] theorem State.setAsgv_strict (v : Bool) : (s.setAsgv v).strict = s.strict := rfl
@[simp] theorem State.setAsgv_err (v : Bool) : (s.setAsgv v).err = s.err := rfl
@[simp] theorem State.setAsgv_errcode (v : Bool) : (s.setAsgv v).errcode = s.errcode := rfl
@[simp] theorem State.setAsgv_errinfo (v : Bool) : (s.setAsgv v).errinfo = s.errinfo := rfl
@[simp] theorem State.setAsgv_asgv (v : Bool) : (s.setAsgv v).asgv = v := rfl
@[simp] theorem State.setAsgv_outv (v : Bool) : (s.setAsgv v).outv = s.outv := rfl
@[simp] theorem State.setAsgv_mcflag (v : Bool) : (s.setAsgv v).mcflag = s.mcflag := rfl
@[simp] theorem State.setAsgv_pix (v : Bool) : (s.setAsgv v).pix = s.pix := rfl
@[simp] theorem State.setAsgv_asg (v : Bool) : (s.setAsgv v).asg = s.asg := rfl
@[simp] theorem State.setAsgv_bitmap (v : Bool) : (s.setAsgv v).bitmap = s.bitmap := rfl
@[simp] theorem State.setAsgv_cram (v : Bool) : (s.setAsgv v).cram = s.cram := rfl
@[simp] theorem State.setAsgv_port (v : Bool) : (s.setAsgv v).port = s.port := rfl
@[simp] theorem State.setAsgv_geom (v : Bool) : (s.setAsgv v).geom = s.geom := rfl

/-! ## `setPix` -/

@[simp] theorem State.setPix_width (v : Memory Byte) : (s.setPix v).width = s.width := rfl
@[simp] theorem State.setPix_height (v : Memory Byte) : (s.setPix v).height = s.height := rfl
@[simp] theorem State.setPix_bgidx (v : Memory Byte) : (s.setPix v).bgidx = s.bgidx := rfl
@[simp] theorem State.setPix_ptr (v : Memory Byte) : (s.setPix v).ptr = s.ptr := rfl
@[simp] theorem State.setPix_resp (v : Memory Byte) : (s.setPix v).resp = s.resp := rfl
@[simp] theorem State.setPix_mc (v : Memory Byte) : (s.setPix v).mc = s.mc := rfl
@[simp] theorem State.setPix_strict (v : Memory Byte) : (s.setPix v).strict = s.strict := rfl
@[simp] theorem State.setPix_err (v : Memory Byte) : (s.setPix v).err = s.err := rfl
@[simp] theorem State.setPix_errcode (v : Memory Byte) : (s.setPix v).errcode = s.errcode := rfl
@[simp] theorem State.setPix_errinfo (v : Memory Byte) : (s.setPix v).errinfo = s.errinfo := rfl
@[simp] theorem State.setPix_asgv (v : Memory Byte) : (s.setPix v).asgv = s.asgv := rfl
@[simp] theorem State.setPix_outv (v : Memory Byte) : (s.setPix v).outv = s.outv := rfl
@[simp] theorem State.setPix_mcflag (v : Memory Byte) : (s.setPix v).mcflag = s.mcflag := rfl
@[simp] theorem State.setPix_pix (v : Memory Byte) : (s.setPix v).pix = v := rfl
@[simp] theorem State.setPix_asg (v : Memory Byte) : (s.setPix v).asg = s.asg := rfl
@[simp] theorem State.setPix_bitmap (v : Memory Byte) : (s.setPix v).bitmap = s.bitmap := rfl
@[simp] theorem State.setPix_cram (v : Memory Byte) : (s.setPix v).cram = s.cram := rfl
@[simp] theorem State.setPix_port (v : Memory Byte) : (s.setPix v).port = s.port := rfl
@[simp] theorem State.setPix_geom (v : Memory Byte) : (s.setPix v).geom = s.geom := rfl

/-! ## `setAsg` -/

@[simp] theorem State.setAsg_width (v : Memory AsgEntry) : (s.setAsg v).width = s.width := rfl
@[simp] theorem State.setAsg_height (v : Memory AsgEntry) : (s.setAsg v).height = s.height := rfl
@[simp] theorem State.setAsg_bgidx (v : Memory AsgEntry) : (s.setAsg v).bgidx = s.bgidx := rfl
@[simp] theorem State.setAsg_ptr (v : Memory AsgEntry) : (s.setAsg v).ptr = s.ptr := rfl
@[simp] theorem State.setAsg_resp (v : Memory AsgEntry) : (s.setAsg v).resp = s.resp := rfl
@[simp] theorem State.setAsg_mc (v : Memory AsgEntry) : (s.setAsg v).mc = s.mc := rfl
@[simp] theorem State.setAsg_strict (v : Memory AsgEntry) : (s.setAsg v).strict = s.strict := rfl
@[simp] theorem State.setAsg_err (v : Memory AsgEntry) : (s.setAsg v).err = s.err := rfl
@[simp] theorem State.setAsg_errcode (v : Memory AsgEntry) : (s.setAsg v).errcode = s.errcode := rfl
@[simp] theorem State.setAsg_errinfo (v : Memory AsgEntry) : (s.setAsg v).errinfo = s.errinfo := rfl
@[simp] theorem State.setAsg_asgv (v : Memory AsgEntry) : (s.setAsg v).asgv = s.asgv := rfl
@[simp] theorem State.setAsg_outv (v : Memory AsgEntry) : (s.setAsg v).outv = s.outv := rfl
@[simp] theorem State.setAsg_mcflag (v : Memory AsgEntry) : (s.setAsg v).mcflag = s.mcflag := rfl
@[simp] theorem State.setAsg_pix (v : Memory AsgEntry) : (s.setAsg v).pix = s.pix := rfl
@[simp] theorem State.setAsg_asg (v : Memory AsgEntry) : (s.setAsg v).asg = v := rfl
@[simp] theorem State.setAsg_bitmap (v : Memory AsgEntry) : (s.setAsg v).bitmap = s.bitmap := rfl
@[simp] theorem State.setAsg_cram (v : Memory AsgEntry) : (s.setAsg v).cram = s.cram := rfl
@[simp] theorem State.setAsg_port (v : Memory AsgEntry) : (s.setAsg v).port = s.port := rfl
@[simp] theorem State.setAsg_geom (v : Memory AsgEntry) : (s.setAsg v).geom = s.geom := rfl

/-! ## `setOutput` -/

@[simp] theorem State.setOutput_width (v w : Memory Byte) (f : Bool) : (s.setOutput v w f).width = s.width := rfl
@[simp] theorem State.setOutput_height (v w : Memory Byte) (f : Bool) : (s.setOutput v w f).height = s.height := rfl
@[simp] theorem State.setOutput_bgidx (v w : Memory Byte) (f : Bool) : (s.setOutput v w f).bgidx = s.bgidx := rfl
@[simp] theorem State.setOutput_ptr (v w : Memory Byte) (f : Bool) : (s.setOutput v w f).ptr = s.ptr := rfl
@[simp] theorem State.setOutput_resp (v w : Memory Byte) (f : Bool) : (s.setOutput v w f).resp = s.resp := rfl
@[simp] theorem State.setOutput_mc (v w : Memory Byte) (f : Bool) : (s.setOutput v w f).mc = s.mc := rfl
@[simp] theorem State.setOutput_strict (v w : Memory Byte) (f : Bool) : (s.setOutput v w f).strict = s.strict := rfl
@[simp] theorem State.setOutput_err (v w : Memory Byte) (f : Bool) : (s.setOutput v w f).err = s.err := rfl
@[simp] theorem State.setOutput_errcode (v w : Memory Byte) (f : Bool) : (s.setOutput v w f).errcode = s.errcode := rfl
@[simp] theorem State.setOutput_errinfo (v w : Memory Byte) (f : Bool) : (s.setOutput v w f).errinfo = s.errinfo := rfl
@[simp] theorem State.setOutput_asgv (v w : Memory Byte) (f : Bool) : (s.setOutput v w f).asgv = s.asgv := rfl
@[simp] theorem State.setOutput_outv (v w : Memory Byte) (f : Bool) : (s.setOutput v w f).outv = true := rfl
@[simp] theorem State.setOutput_mcflag (v w : Memory Byte) (f : Bool) : (s.setOutput v w f).mcflag = f := rfl
@[simp] theorem State.setOutput_pix (v w : Memory Byte) (f : Bool) : (s.setOutput v w f).pix = s.pix := rfl
@[simp] theorem State.setOutput_asg (v w : Memory Byte) (f : Bool) : (s.setOutput v w f).asg = s.asg := rfl
@[simp] theorem State.setOutput_bitmap (v w : Memory Byte) (f : Bool) : (s.setOutput v w f).bitmap = v := rfl
@[simp] theorem State.setOutput_cram (v w : Memory Byte) (f : Bool) : (s.setOutput v w f).cram = w := rfl
@[simp] theorem State.setOutput_port (v w : Memory Byte) (f : Bool) : (s.setOutput v w f).port = s.port := rfl
@[simp] theorem State.setOutput_geom (v w : Memory Byte) (f : Bool) : (s.setOutput v w f).geom = s.geom := rfl

/-! ## `setPort` -/

@[simp] theorem State.setPort_width (v : List PortInput) : (s.setPort v).width = s.width := rfl
@[simp] theorem State.setPort_height (v : List PortInput) : (s.setPort v).height = s.height := rfl
@[simp] theorem State.setPort_bgidx (v : List PortInput) : (s.setPort v).bgidx = s.bgidx := rfl
@[simp] theorem State.setPort_ptr (v : List PortInput) : (s.setPort v).ptr = s.ptr := rfl
@[simp] theorem State.setPort_resp (v : List PortInput) : (s.setPort v).resp = s.resp := rfl
@[simp] theorem State.setPort_mc (v : List PortInput) : (s.setPort v).mc = s.mc := rfl
@[simp] theorem State.setPort_strict (v : List PortInput) : (s.setPort v).strict = s.strict := rfl
@[simp] theorem State.setPort_err (v : List PortInput) : (s.setPort v).err = s.err := rfl
@[simp] theorem State.setPort_errcode (v : List PortInput) : (s.setPort v).errcode = s.errcode := rfl
@[simp] theorem State.setPort_errinfo (v : List PortInput) : (s.setPort v).errinfo = s.errinfo := rfl
@[simp] theorem State.setPort_asgv (v : List PortInput) : (s.setPort v).asgv = s.asgv := rfl
@[simp] theorem State.setPort_outv (v : List PortInput) : (s.setPort v).outv = s.outv := rfl
@[simp] theorem State.setPort_mcflag (v : List PortInput) : (s.setPort v).mcflag = s.mcflag := rfl
@[simp] theorem State.setPort_pix (v : List PortInput) : (s.setPort v).pix = s.pix := rfl
@[simp] theorem State.setPort_asg (v : List PortInput) : (s.setPort v).asg = s.asg := rfl
@[simp] theorem State.setPort_bitmap (v : List PortInput) : (s.setPort v).bitmap = s.bitmap := rfl
@[simp] theorem State.setPort_cram (v : List PortInput) : (s.setPort v).cram = s.cram := rfl
@[simp] theorem State.setPort_port (v : List PortInput) : (s.setPort v).port = v := rfl
@[simp] theorem State.setPort_geom (v : List PortInput) : (s.setPort v).geom = s.geom := rfl

/-! ## `raise` -/

@[simp] theorem raise_width (e : ErrKind) (hi lo : Byte) : (raise e hi lo s).width = s.width := rfl
@[simp] theorem raise_height (e : ErrKind) (hi lo : Byte) : (raise e hi lo s).height = s.height := rfl
@[simp] theorem raise_bgidx (e : ErrKind) (hi lo : Byte) : (raise e hi lo s).bgidx = s.bgidx := rfl
@[simp] theorem raise_ptr (e : ErrKind) (hi lo : Byte) : (raise e hi lo s).ptr = s.ptr := rfl
@[simp] theorem raise_resp (e : ErrKind) (hi lo : Byte) : (raise e hi lo s).resp = s.resp := rfl
@[simp] theorem raise_mc (e : ErrKind) (hi lo : Byte) : (raise e hi lo s).mc = s.mc := rfl
@[simp] theorem raise_strict (e : ErrKind) (hi lo : Byte) : (raise e hi lo s).strict = s.strict := rfl
@[simp] theorem raise_err (e : ErrKind) (hi lo : Byte) : (raise e hi lo s).err = true := rfl
@[simp] theorem raise_errcode (e : ErrKind) (hi lo : Byte) : (raise e hi lo s).errcode = e.code := rfl
@[simp] theorem raise_errinfo (e : ErrKind) (hi lo : Byte) : (raise e hi lo s).errinfo = hi ++ lo := rfl
@[simp] theorem raise_asgv (e : ErrKind) (hi lo : Byte) : (raise e hi lo s).asgv = s.asgv := rfl
@[simp] theorem raise_outv (e : ErrKind) (hi lo : Byte) : (raise e hi lo s).outv = s.outv := rfl
@[simp] theorem raise_mcflag (e : ErrKind) (hi lo : Byte) : (raise e hi lo s).mcflag = s.mcflag := rfl
@[simp] theorem raise_pix (e : ErrKind) (hi lo : Byte) : (raise e hi lo s).pix = s.pix := rfl
@[simp] theorem raise_asg (e : ErrKind) (hi lo : Byte) : (raise e hi lo s).asg = s.asg := rfl
@[simp] theorem raise_bitmap (e : ErrKind) (hi lo : Byte) : (raise e hi lo s).bitmap = s.bitmap := rfl
@[simp] theorem raise_cram (e : ErrKind) (hi lo : Byte) : (raise e hi lo s).cram = s.cram := rfl
@[simp] theorem raise_port (e : ErrKind) (hi lo : Byte) : (raise e hi lo s).port = s.port := rfl
@[simp] theorem raise_geom (e : ErrKind) (hi lo : Byte) : (raise e hi lo s).geom = s.geom := rfl

/-! ## `resetBlock` -/

@[simp] theorem resetBlock_width : (resetBlock s).width = 0 := rfl
@[simp] theorem resetBlock_height : (resetBlock s).height = 0 := rfl
@[simp] theorem resetBlock_bgidx : (resetBlock s).bgidx = 0 := rfl
@[simp] theorem resetBlock_ptr : (resetBlock s).ptr = 0 := rfl
@[simp] theorem resetBlock_resp : (resetBlock s).resp = 0 := rfl
@[simp] theorem resetBlock_mc : (resetBlock s).mc = false := rfl
@[simp] theorem resetBlock_strict : (resetBlock s).strict = false := rfl
@[simp] theorem resetBlock_err : (resetBlock s).err = false := rfl
@[simp] theorem resetBlock_errcode : (resetBlock s).errcode = 0 := rfl
@[simp] theorem resetBlock_errinfo : (resetBlock s).errinfo = 0 := rfl
@[simp] theorem resetBlock_asgv : (resetBlock s).asgv = false := rfl
@[simp] theorem resetBlock_outv : (resetBlock s).outv = false := rfl
@[simp] theorem resetBlock_mcflag : (resetBlock s).mcflag = false := rfl
@[simp] theorem resetBlock_pix : (resetBlock s).pix = [] := rfl
@[simp] theorem resetBlock_asg : (resetBlock s).asg = [] := rfl
@[simp] theorem resetBlock_bitmap : (resetBlock s).bitmap = [] := rfl
@[simp] theorem resetBlock_cram : (resetBlock s).cram = [] := rfl
@[simp] theorem resetBlock_port : (resetBlock s).port = s.port := rfl

/-! ## Geometry, ports and errors -/

@[simp] theorem State.geom_width : s.geom.width = s.width.toNat := rfl
@[simp] theorem State.geom_height : s.geom.height = s.height.toNat := rfl
@[simp] theorem State.geom_bw : s.geom.bw = blockWidth s.mc := rfl
@[simp] theorem blockWidth_true : blockWidth true = 4 := rfl
@[simp] theorem blockWidth_false : blockWidth false = 8 := rfl
@[simp] theorem State.respPort_eq : s.respPort = s.resp := rfl
@[simp] theorem State.errPort_eq : s.errPort = s.err := rfl
@[simp] theorem present_rst (cw : Word32) : (present cw).rst = false := rfl
@[simp] theorem present_cmd (cw : Word32) : (present cw).cmd = some cw := rfl

theorem blockWidth_pos (mc : Bool) : 0 < blockWidth mc := by cases mc <;> decide

end Sys2Proof.Machine
end

