-- ==== Sys2Proof/Laws/Memory.lean ====
section
/-! SUPPORT. What the memory operations do: reading after writing, the canonical form, the capacity. -/

namespace Sys2Proof.Machine

variable {α : Type}

/-! ## Reading -/

@[simp] theorem Memory.read_nil (a : Nat) : Memory.read ([] : Memory α) a = none := rfl

theorem Memory.read_cons (c : Nat × α) (m : Memory α) (a : Nat) :
    Memory.read (c :: m) a = if c.1 = a then some c.2 else Memory.read m a := rfl

theorem Memory.read_eq_none_of_lt {m : Memory α} {a : Nat} (h : ∀ c ∈ m, a < c.1) : m.read a = none := by
  induction m with
  | nil => rfl
  | cons c m ih =>
    have hc := h c (List.mem_cons_self ..)
    rw [Memory.read_cons, if_neg (by omega)]
    exact ih fun d hd => h d (List.mem_cons_of_mem _ hd)

/-- A read that answers comes from an entry of the list. -/
theorem Memory.mem_of_read {m : Memory α} {a : Nat} {v : α} (h : m.read a = some v) : (a, v) ∈ m := by
  induction m with
  | nil => simp at h
  | cons c m ih =>
    rw [Memory.read_cons] at h
    split at h
    · next hc => cases h; subst hc; exact List.mem_cons_self ..
    · exact List.mem_cons_of_mem _ (ih h)

theorem Memory.read_lt {m : Memory α} {cap a : Nat} {v : α} (hm : m.within cap) (h : m.read a = some v) : a < cap :=
  hm _ (Memory.mem_of_read h)

/-! ## Reading after writing -/

theorem Memory.read_write (m : Memory α) (a : Nat) (v : α) (b : Nat) :
    (m.write a v).read b = if a = b then some v else m.read b := by
  induction m with
  | nil => simp [Memory.write, Memory.read_cons]
  | cons c m ih =>
    unfold Memory.write
    split
    · simp [Memory.read_cons]
    · split
      · next hca => subst hca; by_cases hb : c.1 = b <;> simp [Memory.read_cons, hb]
      · next hlt hne =>
        rw [Memory.read_cons, ih, Memory.read_cons]
        by_cases hb : c.1 = b
        · have : a ≠ b := by omega
          simp [hb, this]
        · simp [hb]

@[simp] theorem Memory.read_write_self (m : Memory α) (a : Nat) (v : α) : (m.write a v).read a = some v := by
  simp [Memory.read_write]

theorem Memory.read_write_of_ne (m : Memory α) {a b : Nat} (v : α) (h : a ≠ b) : (m.write a v).read b = m.read b := by
  simp [Memory.read_write, h]

theorem Memory.isSome_read_write {m : Memory α} {b : Nat} (h : (m.read b).isSome) (a : Nat) (v : α) :
    ((m.write a v).read b).isSome := by
  rw [Memory.read_write]; split <;> simp [h]

theorem Memory.writtenBelow_write {m : Memory α} {n : Nat} (h : m.writtenBelow n) (a : Nat) (v : α) :
    (m.write a v).writtenBelow n := fun b hb => Memory.isSome_read_write (h b hb) a v

/-! ## The canonical form and the capacity -/

theorem Memory.mem_write {m : Memory α} {a : Nat} {v : α} {c : Nat × α} (h : c ∈ m.write a v) : c = (a, v) ∨ c ∈ m := by
  induction m with
  | nil => simpa [Memory.write] using h
  | cons d m ih =>
    unfold Memory.write at h
    split at h
    · simpa using h
    · split at h
      · rcases List.mem_cons.1 h with h | h
        · exact .inl h
        · exact .inr (List.mem_cons_of_mem _ h)
      · rcases List.mem_cons.1 h with h | h
        · exact .inr (h ▸ List.mem_cons_self ..)
        · exact (ih h).imp_right (List.mem_cons_of_mem _)

theorem Memory.wf_cons {c : Nat × α} {m : Memory α} : Memory.wf (c :: m) ↔ (∀ d ∈ m, c.1 < d.1) ∧ m.wf := by
  simp only [Memory.wf, List.map_cons, List.pairwise_cons, List.mem_map, forall_exists_index, and_imp]
  constructor
  · rintro ⟨h, hm⟩; exact ⟨fun d hd => h _ d hd rfl, hm⟩
  · rintro ⟨h, hm⟩; exact ⟨fun a d hd hda => hda ▸ h d hd, hm⟩

/-- A write keeps the canonical form. -/
theorem Memory.wf_write {m : Memory α} (h : m.wf) (a : Nat) (v : α) : (m.write a v).wf := by
  induction m with
  | nil => simp [Memory.write, Memory.wf]
  | cons c m ih =>
    have ⟨hc, hm⟩ := Memory.wf_cons.1 h
    unfold Memory.write
    split
    · next hlt =>
      refine Memory.wf_cons.2 ⟨fun d hd => ?_, h⟩
      rcases List.mem_cons.1 hd with rfl | hd
      · exact hlt
      · have := hc d hd; simp only; omega
    · split
      · next heq => exact Memory.wf_cons.2 ⟨fun d hd => heq ▸ hc d hd, hm⟩
      · refine Memory.wf_cons.2 ⟨fun d hd => ?_, ih hm⟩
        rcases Memory.mem_write hd with rfl | hd
        · simp only; omega
        · exact hc d hd

theorem Memory.within_write {m : Memory α} {cap : Nat} (h : m.within cap) {a : Nat} (ha : a < cap) (v : α) :
    (m.write a v).within cap := fun c hc => by
  rcases Memory.mem_write hc with rfl | hc
  · exact ha
  · exact h c hc

/-- Writing the value that is already there changes nothing. -/
theorem Memory.write_eq_self {m : Memory α} (h : m.wf) {a : Nat} {v : α} (hr : m.read a = some v) :
    m.write a v = m := by
  induction m with
  | nil => simp at hr
  | cons c m ih =>
    have ⟨hc, hm⟩ := Memory.wf_cons.1 h
    rw [Memory.read_cons] at hr
    unfold Memory.write
    by_cases hca : c.1 = a
    · rw [if_pos hca] at hr
      cases hr
      subst hca
      simp
    · rw [if_neg hca] at hr
      have := hc _ (Memory.mem_of_read hr)
      simp only at this
      rw [if_neg (by omega), if_neg hca, ih hm hr]

/-- The canonical form is canonical: memories that read alike are equal. -/
theorem Memory.eq_of_read_eq {m m' : Memory α} (h : m.wf) (h' : m'.wf) (hr : ∀ a, m.read a = m'.read a) : m = m' := by
  have hlow : ∀ (c : Nat × α) (n : Memory α), (∀ d ∈ n, c.1 < d.1) → ∀ a ≤ c.1, n.read a = none := fun c n hn a ha =>
    Memory.read_eq_none_of_lt fun d hd => Nat.lt_of_le_of_lt ha (hn d hd)
  induction m generalizing m' with
  | nil =>
    cases m' with
    | nil => rfl
    | cons c m' => simpa [Memory.read_cons] using hr c.1
  | cons c m ih =>
    have ⟨hc, hm⟩ := Memory.wf_cons.1 h
    cases m' with
    | nil => simpa [Memory.read_cons] using hr c.1
    | cons c' m' =>
      have ⟨hc', hm'⟩ := Memory.wf_cons.1 h'
      have h1 : c.1 = c'.1 := by
        rcases Nat.lt_trichotomy c.1 c'.1 with hlt | heq | hlt
        · have := hr c.1
          rw [Memory.read_cons, if_pos rfl, Memory.read_cons, if_neg (by omega), hlow c' m' hc' _ (by omega)] at this
          cases this
        · exact heq
        · have := hr c'.1
          rw [Memory.read_cons, if_neg (by omega), hlow c m hc _ (by omega), Memory.read_cons, if_pos rfl] at this
          cases this
      have h2 : c.2 = c'.2 := by
        have := hr c.1
        rw [Memory.read_cons, if_pos rfl, Memory.read_cons, if_pos h1.symm] at this
        exact Option.some.inj this
      rw [Prod.ext h1 h2, ih hm hm' fun a => ?_]
      by_cases ha : a ≤ c.1
      · rw [hlow c m hc a ha, hlow c' m' hc' a (by omega)]
      · have := hr a
        rwa [Memory.read_cons, if_neg (by omega), Memory.read_cons, if_neg (by omega)] at this

/-! ## Filling -/

theorem Memory.read_map_range' (f : Nat → α) (n start a : Nat) :
    Memory.read ((List.range' start n).map fun b => (b, f b)) a =
      if start ≤ a ∧ a < start + n then some (f a) else none := by
  induction n generalizing start with
  | zero => simp
  | succ n ih =>
    rw [List.range'_succ, List.map_cons, Memory.read_cons, ih]
    by_cases h : start = a
    · simp [h]
    · by_cases h2 : start ≤ a ∧ a < start + (n + 1)
      · rw [if_neg h, if_pos (by omega), if_pos h2]
      · rw [if_neg h, if_neg (by omega), if_neg h2]

theorem Memory.read_fill (n : Nat) (v : α) (a : Nat) : (Memory.fill n v).read a = if a < n then some v else none := by
  rw [Memory.fill, List.range_eq_range', Memory.read_map_range' fun _ => v]
  simp

theorem Memory.writtenBelow_fill (n : Nat) (v : α) : (Memory.fill n v).writtenBelow n := fun a ha => by
  simp [Memory.read_fill, ha]

theorem Memory.wf_fill (n : Nat) (v : α) : (Memory.fill n v).wf := by
  simp [Memory.wf, Memory.fill, List.map_map, Function.comp_def, List.pairwise_lt_range]

theorem Memory.within_fill (n : Nat) (v : α) : (Memory.fill n v).within n := fun c hc => by
  simp only [Memory.fill, List.mem_map, List.mem_range] at hc
  obtain ⟨a, ha, rfl⟩ := hc
  exact ha

/-! ## Reading what a command needs -/

theorem readCell_of_read {sp : Space} {m : Memory α} {a : Nat} {v : α} (h : m.read a = some v) :
    readCell sp m a = .ok v := by simp [readCell, h]

theorem readCell_ok_iff {sp : Space} {m : Memory α} {a : Nat} {v : α} :
    readCell sp m a = .ok v ↔ m.read a = some v := by
  unfold readCell; split <;> simp_all

/-- A read never raises an error of the block: it answers the element, or it is refused at an unwritten address. -/
theorem readCell_error {sp : Space} {m : Memory α} {a : Nat} {x : Abort} (h : readCell sp m a = .error x) :
    x = .refuse (.unwritten sp a) ∧ m.read a = none := by
  unfold readCell at h; split at h <;> simp_all

end Sys2Proof.Machine
end

