-- ==== Sys2Proof/Laws/Pixels.lean ====
section
/-! SUPPORT. The pixel buffer: pixel addresses are disjoint (R61), what `pixel` and `setpixel` do, and which pixels a block
holds (R10). -/

namespace Sys2Proof.Machine

/-! ## Addresses -/

theorem Geometry.addr_lt_ext (g : Geometry) {x y k : Nat} (hx : x < g.width) (hy : y < g.height) (hk : k < 3) :
    g.addr x y + k < g.ext := by
  have h : (y + 1) * g.width ≤ g.height * g.width := Nat.mul_le_mul_right _ hy
  have h2 : g.ext = 3 * (g.height * g.width) := by rw [Geometry.ext, Nat.mul_assoc, Nat.mul_comm g.width]
  rw [Nat.succ_mul] at h
  simp only [Geometry.addr, h2]
  omega

/-- Different pixels of a row-major image occupy different bytes. -/
theorem Geometry.addr_inj (g : Geometry) {x y x' y' k k' : Nat} (hx : x < g.width) (hx' : x' < g.width) (hk : k < 3)
    (hk' : k' < 3) (h : g.addr x y + k = g.addr x' y' + k') : x = x' ∧ y = y' ∧ k = k' := by
  simp only [Geometry.addr] at h
  have h1 : y * g.width + x = y' * g.width + x' := by omega
  have hy : y = y' := by
    have e : (x + y * g.width) / g.width = (x' + y' * g.width) / g.width := by
      rw [Nat.add_comm x, Nat.add_comm x', h1]
    rwa [Nat.add_mul_div_right _ _ (by omega), Nat.add_mul_div_right _ _ (by omega), Nat.div_eq_of_lt hx,
      Nat.div_eq_of_lt hx', Nat.zero_add, Nat.zero_add] at e
  subst hy
  omega

/-- Every byte of the image belongs to a pixel. -/
theorem Geometry.exists_addr (g : Geometry) {a : Nat} (h : a < g.ext) :
    ∃ x y k, x < g.width ∧ y < g.height ∧ k < 3 ∧ a = g.addr x y + k := by
  have hw : 0 < g.width := by
    rcases Nat.eq_zero_or_pos g.width with h0 | h0
    · simp [Geometry.ext, h0] at h
    · exact h0
  have h2 : g.ext = 3 * (g.width * g.height) := by simp [Geometry.ext, Nat.mul_assoc]
  refine ⟨a / 3 % g.width, a / 3 / g.width, a % 3, Nat.mod_lt _ hw, ?_, Nat.mod_lt _ (by decide), ?_⟩
  · exact Nat.div_lt_of_lt_mul (by omega)
  · have := Nat.div_add_mod (a / 3) g.width
    rw [Nat.mul_comm] at this
    simp only [Geometry.addr]
    omega

/-! ## Reading a pixel -/

theorem getPixel_ok_iff {g : Geometry} {pix : Memory Byte} {x y : Nat} {p : Rgb} :
    getPixel g pix x y = .ok p ↔
      pix.read (g.addr x y) = some p.r ∧ pix.read (g.addr x y + 1) = some p.g ∧ pix.read (g.addr x y + 2) = some p.b := by
  simp only [getPixel, bind_eq_ok, readCell_ok_iff, Except.ok.injEq]
  constructor
  · rintro ⟨r, hr, gr, hg, b, hb, rfl⟩; exact ⟨hr, hg, hb⟩
  · rintro ⟨hr, hg, hb⟩; exact ⟨_, hr, _, hg, _, hb, rfl⟩

/-- Reading a pixel never raises an error of the block: it answers, or it is refused at an unwritten byte of the pixel. -/
theorem getPixel_error {g : Geometry} {pix : Memory Byte} {x y : Nat} {e : Abort} (h : getPixel g pix x y = .error e) :
    ∃ k < 3, e = .refuse (.unwritten .pix (g.addr x y + k)) ∧ pix.read (g.addr x y + k) = none := by
  simp only [getPixel, bind_eq_error] at h
  rcases h with h | ⟨_, _, h | ⟨_, _, h | ⟨_, _, h⟩⟩⟩
  · exact ⟨0, by decide, readCell_error h⟩
  · exact ⟨1, by decide, readCell_error h⟩
  · exact ⟨2, by decide, readCell_error h⟩
  · cases h

theorem getPixel_of_written {g : Geometry} {pix : Memory Byte} (h : pix.writtenBelow g.ext) {x y : Nat}
    (hx : x < g.width) (hy : y < g.height) : ∃ p, getPixel g pix x y = .ok p := by
  have hk : ∀ k < 3, ∃ v, pix.read (g.addr x y + k) = some v := fun k hk =>
    Option.isSome_iff_exists.1 (h _ (g.addr_lt_ext hx hy hk))
  obtain ⟨r, hr⟩ := hk 0 (by decide)
  obtain ⟨gr, hg⟩ := hk 1 (by decide)
  obtain ⟨b, hb⟩ := hk 2 (by decide)
  exact ⟨⟨r, gr, b⟩, getPixel_ok_iff.2 ⟨hr, hg, hb⟩⟩

/-- A memory that reads alike in the image gives the same pixels. -/
theorem getPixel_congr {g : Geometry} {m m' : Memory Byte} {x y : Nat}
    (h : ∀ k < 3, m.read (g.addr x y + k) = m'.read (g.addr x y + k)) : getPixel g m x y = getPixel g m' x y := by
  have h0 := h 0 (by decide)
  have h1 := h 1 (by decide)
  have h2 := h 2 (by decide)
  simp only [Nat.add_zero] at h0
  simp only [getPixel, readCell, h0, h1, h2]

/-! ## Writing a pixel -/

/-- One byte after `setpixel`. -/
theorem read_setPixel (g : Geometry) (pix : Memory Byte) (x y : Nat) (c : Rgb) (a : Nat) :
    (setPixel g pix x y c).read a =
      if a = g.addr x y then some c.r else if a = g.addr x y + 1 then some c.g
      else if a = g.addr x y + 2 then some c.b else pix.read a := by
  simp only [setPixel, Memory.read_write, eq_comm (a := a)]
  by_cases h0 : g.addr x y = a
  · rw [if_neg (by omega), if_neg (by omega), if_pos h0, if_pos h0]
  · by_cases h1 : g.addr x y + 1 = a
    · rw [if_neg (by omega), if_pos h1, if_neg h0, if_pos h1]
    · simp only [if_neg h0, if_neg h1]

theorem read_setPixel_of_ge (g : Geometry) (pix : Memory Byte) {x y : Nat} (c : Rgb) {a : Nat} (hx : x < g.width)
    (hy : y < g.height) (ha : g.ext ≤ a) : (setPixel g pix x y c).read a = pix.read a := by
  have := g.addr_lt_ext hx hy (k := 2) (by decide)
  rw [read_setPixel, if_neg (by omega), if_neg (by omega), if_neg (by omega)]

@[simp] theorem getPixel_setPixel_self (g : Geometry) (pix : Memory Byte) (x y : Nat) (c : Rgb) :
    getPixel g (setPixel g pix x y c) x y = .ok c := by
  rw [getPixel_ok_iff]
  simp [read_setPixel]

theorem getPixel_setPixel_of_ne (g : Geometry) (pix : Memory Byte) {x y x' y' : Nat} (c : Rgb) (hx : x < g.width)
    (hx' : x' < g.width) (h : (x, y) ≠ (x', y')) :
    getPixel g (setPixel g pix x y c) x' y' = getPixel g pix x' y' := by
  refine getPixel_congr fun k hk => ?_
  have hne : ∀ j < 3, g.addr x' y' + k ≠ g.addr x y + j := fun j hj he =>
    h (by obtain ⟨rfl, rfl, -⟩ := g.addr_inj hx' hx hk hj he; rfl)
  have h0 := hne 0 (by decide)
  rw [read_setPixel, if_neg (by simpa using h0), if_neg (hne 1 (by decide)), if_neg (hne 2 (by decide))]

theorem writtenBelow_setPixel {pix : Memory Byte} {n : Nat} (h : pix.writtenBelow n) (g : Geometry) (x y : Nat)
    (c : Rgb) : (setPixel g pix x y c).writtenBelow n :=
  Memory.writtenBelow_write (Memory.writtenBelow_write (Memory.writtenBelow_write h _ _) _ _) _ _

theorem wf_setPixel {pix : Memory Byte} (h : pix.wf) (g : Geometry) (x y : Nat) (c : Rgb) :
    (setPixel g pix x y c).wf :=
  Memory.wf_write (Memory.wf_write (Memory.wf_write h _ _) _ _) _ _

theorem within_setPixel {pix : Memory Byte} {cap : Nat} (h : pix.within cap) {g : Geometry} {x y : Nat}
    (hx : x < g.width) (hy : y < g.height) (hcap : g.ext ≤ cap) (c : Rgb) : (setPixel g pix x y c).within cap := by
  have h2 := g.addr_lt_ext hx hy (k := 2) (by decide)
  exact Memory.within_write (Memory.within_write (Memory.within_write h (by omega) _) (by omega) _) (by omega) _

/-- Writing a pixel that already has the colour changes nothing. -/
theorem setPixel_eq_self {g : Geometry} {pix : Memory Byte} (h : pix.wf) {x y : Nat} {c : Rgb}
    (hp : getPixel g pix x y = .ok c) : setPixel g pix x y c = pix := by
  obtain ⟨h0, h1, h2⟩ := getPixel_ok_iff.1 hp
  rw [setPixel, Memory.write_eq_self h h0, Memory.write_eq_self h h1, Memory.write_eq_self h h2]

/-! ## Which pixels and which blocks there are -/

theorem mem_span {a b n : Nat} : n ∈ span a b ↔ a ≤ n ∧ n < b := by simp [span, List.mem_range'_1]; omega

theorem Geometry.mem_raster {g : Geometry} {xy : Nat × Nat} : xy ∈ g.raster ↔ xy.1 < g.width ∧ xy.2 < g.height := by
  obtain ⟨x, y⟩ := xy
  simp [Geometry.raster, and_comm]

theorem Geometry.mem_blocks {g : Geometry} {rc : Nat × Nat} : rc ∈ g.blocks ↔ rc.1 < g.nby ∧ rc.2 < g.nbx := by
  obtain ⟨r, c⟩ := rc
  simp [Geometry.blocks]

theorem Geometry.mem_blockPixels {g : Geometry} {row col : Nat} {xy : Nat × Nat} :
    xy ∈ g.blockPixels row col ↔ (8 * row ≤ xy.2 ∧ xy.2 < 8 * row + 8 ∧ xy.2 < g.height) ∧
      (g.bw * col ≤ xy.1 ∧ xy.1 < g.bw * col + g.bw ∧ xy.1 < g.width) := by
  obtain ⟨x, y⟩ := xy
  simp only [Geometry.blockPixels, List.mem_flatMap, List.mem_map, mem_span, Prod.mk.injEq, lt_min_iff]
  constructor
  · rintro ⟨_, hy, _, hx, rfl, rfl⟩; exact ⟨hy, hx⟩
  · rintro ⟨hy, hx⟩; exact ⟨y, hy, x, hx, rfl, rfl⟩

theorem Geometry.blockPixels_lt {g : Geometry} {row col : Nat} {xy : Nat × Nat} (h : xy ∈ g.blockPixels row col) :
    xy.1 < g.width ∧ xy.2 < g.height := by
  rw [Geometry.mem_blockPixels] at h; omega

/-- The block a pixel lies in is `(y / 8, x / BW)` (R10, R221). -/
theorem Geometry.block_of_mem {g : Geometry} {row col : Nat} {xy : Nat × Nat} (h : xy ∈ g.blockPixels row col) :
    row = xy.2 / 8 ∧ col = xy.1 / g.bw := by
  obtain ⟨⟨h1, h2, -⟩, h3, h4, -⟩ := Geometry.mem_blockPixels.1 h
  refine ⟨by omega, (Nat.div_eq_of_lt_le ?_ ?_).symm⟩
  · rwa [Nat.mul_comm]
  · rwa [Nat.mul_comm, Nat.mul_succ]

/-- Every pixel of the image lies in a block. -/
theorem Geometry.mem_block {g : Geometry} (hb : 0 < g.bw) {x y : Nat} (hx : x < g.width) (hy : y < g.height) :
    (x, y) ∈ g.blockPixels (y / 8) (x / g.bw) := by
  have h := Nat.div_add_mod x g.bw
  have h2 := Nat.mod_lt x hb
  rw [Geometry.mem_blockPixels]
  simp only
  omega

theorem lt_ceilDiv {a b n : Nat} (hb : 0 < b) : n < ceilDiv a b ↔ b * n < a := by
  rw [ceilDiv, ← Nat.succ_le_iff, Nat.le_div_iff_mul_le hb, Nat.succ_mul, Nat.mul_comm n b]
  omega

theorem Geometry.block_lt {g : Geometry} (hb : 0 < g.bw) {x y : Nat} (hx : x < g.width) (hy : y < g.height) :
    y / 8 < g.nby ∧ x / g.bw < g.nbx := by
  have h := Nat.div_mul_le_self x g.bw
  rw [Nat.mul_comm] at h
  exact ⟨(lt_ceilDiv (by decide)).2 (by simp only [Config.blockH]; omega), (lt_ceilDiv hb).2 (by omega)⟩

/-- A block always has its first pixel, so it is never empty (R10). -/
theorem Geometry.blockPixels_ne_nil {g : Geometry} (hb : 0 < g.bw) {row col : Nat} (hr : row < g.nby)
    (hc : col < g.nbx) : g.blockPixels row col ≠ [] := by
  have h1 := (lt_ceilDiv (show 0 < Config.blockH by decide)).1 hr
  have h2 := (lt_ceilDiv hb).1 hc
  simp only [Config.blockH] at h1
  have : (g.bw * col, 8 * row) ∈ g.blockPixels row col := by
    rw [Geometry.mem_blockPixels]; simp only; omega
  exact List.ne_nil_of_mem this

theorem nodup_span (a b : Nat) : (span a b).Nodup := List.nodup_range'

theorem nodup_grid {l m : List Nat} (hl : l.Nodup) (hm : m.Nodup) :
    (l.flatMap fun y => m.map fun x => (x, y)).Nodup := by
  rw [List.nodup_flatMap]
  refine ⟨fun y _ => hm.map fun a b h => (Prod.mk.inj h).1, hl.imp fun {a b} hab => ?_⟩
  rw [Function.onFun, List.disjoint_left]
  rintro ⟨x, y⟩ h1 h2
  simp only [List.mem_map, Prod.mk.injEq] at h1 h2
  obtain ⟨_, _, _, rfl⟩ := h1
  obtain ⟨_, _, _, rfl⟩ := h2
  exact hab rfl

theorem Geometry.nodup_raster (g : Geometry) : g.raster.Nodup := nodup_grid List.nodup_range List.nodup_range

theorem Geometry.nodup_blockPixels (g : Geometry) (row col : Nat) : (g.blockPixels row col).Nodup :=
  nodup_grid (nodup_span _ _) (nodup_span _ _)

theorem Geometry.nodup_blocks (g : Geometry) : g.blocks.Nodup := by
  have h := (nodup_grid (List.nodup_range (n := g.nby)) (List.nodup_range (n := g.nbx))).map
    (f := Prod.swap) Prod.swap_injective
  rwa [List.map_flatMap, show (fun y => ((List.range g.nbx).map fun x => (x, y)).map Prod.swap)
    = fun row => (List.range g.nbx).map fun col => (row, col) from by funext y; simp [Function.comp_def]] at h

/-- Blocks have different entries of `ASG`. -/
theorem Geometry.asgIndex_inj {g : Geometry} {rc rc' : Nat × Nat} (hc : rc.2 < g.nbx) (hc' : rc'.2 < g.nbx)
    (h : g.asgIndex rc.1 rc.2 = g.asgIndex rc'.1 rc'.2) : rc = rc' := by
  obtain ⟨r, c⟩ := rc
  obtain ⟨r', c'⟩ := rc'
  simp only [Geometry.asgIndex] at h hc hc'
  have e : (c + r * g.nbx) / g.nbx = (c' + r' * g.nbx) / g.nbx := by rw [Nat.add_comm c, Nat.add_comm c', h]
  rw [Nat.add_mul_div_right _ _ (by omega), Nat.add_mul_div_right _ _ (by omega), Nat.div_eq_of_lt hc,
    Nat.div_eq_of_lt hc', Nat.zero_add, Nat.zero_add] at e
  subst e
  simp only [Prod.mk.injEq, true_and]
  omega

theorem Geometry.asgIndex_lt {g : Geometry} {row col : Nat} (hr : row < g.nby) (hc : col < g.nbx) :
    g.asgIndex row col < g.nblk := by
  have h : (row + 1) * g.nbx ≤ g.nby * g.nbx := Nat.mul_le_mul_right _ hr
  rw [Nat.succ_mul] at h
  simp only [Geometry.asgIndex, Geometry.nblk, Nat.mul_comm g.nbx]
  omega

/-- Every entry below `NBLK` belongs to a block. -/
theorem Geometry.exists_block {g : Geometry} {n : Nat} (h : n < g.nblk) :
    ∃ row col, row < g.nby ∧ col < g.nbx ∧ n = g.asgIndex row col := by
  have hx : 0 < g.nbx := by
    rcases Nat.eq_zero_or_pos g.nbx with h0 | h0
    · simp [Geometry.nblk, h0] at h
    · exact h0
  refine ⟨n / g.nbx, n % g.nbx, Nat.div_lt_of_lt_mul h, Nat.mod_lt _ hx, ?_⟩
  have := Nat.div_add_mod n g.nbx
  rw [Nat.mul_comm] at this
  simp only [Geometry.asgIndex]
  omega

end Sys2Proof.Machine
end

