-- ==== Sys2Proof/Laws/Kept.lean ====
section
/-! SUPPORT. What every loop over the pixels of the image keeps of the pixel buffer: it writes only bytes of the image. -/

namespace Sys2Proof.Machine

/-- `m'` comes from `m` by writing bytes of the image of `g`. -/
structure PixKept (g : Geometry) (m m' : Memory Byte) : Prop where
  /-- the canonical form is kept -/
  wf : m.wf → m'.wf
  /-- the capacity is kept -/
  within : ∀ cap, g.ext ≤ cap → m.within cap → m'.within cap
  /-- a byte that has been written stays written -/
  written : ∀ a, (m.read a).isSome → (m'.read a).isSome
  /-- bytes at and above `EXT` are unchanged -/
  above : ∀ a, g.ext ≤ a → m'.read a = m.read a

variable {g : Geometry} {m m' m'' : Memory Byte}

theorem PixKept.refl (g : Geometry) (m : Memory Byte) : PixKept g m m := ⟨id, fun _ _ => id, fun _ => id, fun _ _ => rfl⟩

theorem PixKept.trans (h : PixKept g m m') (h' : PixKept g m' m'') : PixKept g m m'' where
  wf := h'.wf ∘ h.wf
  within cap hc := h'.within cap hc ∘ h.within cap hc
  written a := h'.written a ∘ h.written a
  above a ha := (h'.above a ha).trans (h.above a ha)

theorem PixKept.writtenBelow (h : PixKept g m m') {n : Nat} (hm : m.writtenBelow n) : m'.writtenBelow n :=
  fun a ha => h.written a (hm a ha)

/-- What has not been written after has not been written before. -/
theorem PixKept.read_none (h : PixKept g m m') {a : Nat} (ha : m'.read a = none) : m.read a = none := by
  by_contra hc
  have := h.written a (Option.isSome_iff_ne_none.2 hc)
  rw [ha] at this
  cases this

theorem PixKept.setPixel (g : Geometry) (m : Memory Byte) {x y : Nat} (hx : x < g.width) (hy : y < g.height) (c : Rgb) :
    PixKept g m (setPixel g m x y c) where
  wf h := wf_setPixel h g x y c
  within _ hc h := within_setPixel h hx hy hc c
  written _ h := Memory.isSome_read_write (Memory.isSome_read_write (Memory.isSome_read_write h _ _) _ _) _ _
  above _ ha := read_setPixel_of_ge g m c hx hy ha

/-- A loop whose rounds each keep the pixel buffer keeps it. -/
theorem PixKept.foldlM {β : Type} {f : Memory Byte → β → Except Abort (Memory Byte)} {l : List β}
    (hf : ∀ x ∈ l, ∀ s t, f s x = .ok t → PixKept g s t) (h : l.foldlM f m = .ok m') : PixKept g m m' :=
  foldlM_inv (fun s => PixKept g m s) l (.refl g m) (fun x hx s t hs ht => hs.trans (hf x hx s t ht)) h

/-- The only way to end early that a command which just reads pixels has: a byte of the image that nothing has written. -/
def UnwrittenByte (g : Geometry) (m : Memory Byte) (e : Abort) : Prop :=
  ∃ a < g.ext, e = .refuse (.unwritten .pix a) ∧ m.read a = none

theorem UnwrittenByte.of_kept {e : Abort} (h : PixKept g m m') (he : UnwrittenByte g m' e) : UnwrittenByte g m e := by
  obtain ⟨a, ha, rfl, hr⟩ := he
  exact ⟨a, ha, rfl, h.read_none hr⟩

theorem getPixel_unwritten {x y : Nat} {e : Abort} (hx : x < g.width) (hy : y < g.height)
    (h : getPixel g m x y = .error e) : UnwrittenByte g m e := by
  obtain ⟨k, hk, he, hr⟩ := getPixel_error h
  exact ⟨_, g.addr_lt_ext hx hy hk, he, hr⟩

theorem UnwrittenByte.absurd {e : Abort} (hw : m.writtenBelow g.ext) (h : UnwrittenByte g m e) : False := by
  obtain ⟨a, ha, -, hr⟩ := h
  have := hw a ha
  rw [hr] at this
  cases this

/-- A loop that ends early at an unwritten byte does so because the byte was unwritten when it began. -/
theorem UnwrittenByte.foldlM {β : Type} {f : Memory Byte → β → Except Abort (Memory Byte)} {l : List β} {e : Abort}
    (hk : ∀ x ∈ l, ∀ s t, f s x = .ok t → PixKept g s t) (he : ∀ x ∈ l, ∀ s e, f s x = .error e → UnwrittenByte g s e)
    (h : l.foldlM f m = .error e) : UnwrittenByte g m e := by
  obtain ⟨x, hx, s, hs, hf⟩ :=
    foldlM_error (fun s => PixKept g m s) l (.refl g m) (fun x hx s t hs ht => hs.trans (hk x hx s t ht)) h
  exact .of_kept hs (he x hx s e hf)

/-- A computation that can only end early at an unwritten byte completes when the image is written. -/
theorem ok_of_written {σ : Type} {x : Except Abort σ} (hw : m.writtenBelow g.ext)
    (h : ∀ e, x = .error e → UnwrittenByte g m e) : ∃ r, x = .ok r := by
  cases x with
  | ok r => exact ⟨r, rfl⟩
  | error e => exact ((h e rfl).absurd hw).elim

end Sys2Proof.Machine
end

