-- ==== Sys2Proof/Laws/Palette.lean ====
section
/-! SUPPORT. The distance and the nearest-colour lookup (spec/40_palette_nearest.md R120 to R124). -/

namespace Sys2Proof.Machine

/-! ## The distance -/

theorem chanDiff_self (a : Byte) : chanDiff a a = 0 := by simp [chanDiff]

theorem chanDiff_eq_zero {a b : Byte} (h : chanDiff a b = 0) : a = b := by
  simp only [chanDiff] at h
  exact BitVec.eq_of_toNat_eq (by omega)

theorem dist2_self (a : Rgb) : dist2 a a = 0 := by simp [dist2, chanDiff_self]

theorem dist2_nonneg (a b : Rgb) : 0 ≤ dist2 a b := by
  have h1 := mul_self_nonneg (chanDiff a.r b.r)
  have h2 := mul_self_nonneg (chanDiff a.g b.g)
  have h3 := mul_self_nonneg (chanDiff a.b b.b)
  simp only [dist2]
  omega

theorem eq_of_dist2_le_zero {a b : Rgb} (h : dist2 a b ≤ 0) : a = b := by
  have h1 := mul_self_nonneg (chanDiff a.r b.r)
  have h2 := mul_self_nonneg (chanDiff a.g b.g)
  have h3 := mul_self_nonneg (chanDiff a.b b.b)
  simp only [dist2] at h
  have e1 := chanDiff_eq_zero (mul_self_eq_zero.1 (show chanDiff a.r b.r * chanDiff a.r b.r = 0 by omega))
  have e2 := chanDiff_eq_zero (mul_self_eq_zero.1 (show chanDiff a.g b.g * chanDiff a.g b.g = 0 by omega))
  have e3 := chanDiff_eq_zero (mul_self_eq_zero.1 (show chanDiff a.b b.b * chanDiff a.b b.b = 0 by omega))
  cases a; cases b; simp_all

/-! ## The scan -/

/-- What the scan of R122 keeps: `best` is the least position of the least distance among the candidates `done` so far. -/
structure Leads (p : Rgb) (cands : List Rgb) (k : Nat) : Prop where
  /-- the position is one of the list -/
  lt : k < cands.length
  /-- no candidate is nearer -/
  min : ∀ c ∈ cands, dist2 p cands[k] ≤ dist2 p c
  /-- every earlier candidate is farther -/
  least : ∀ j, (hj : j < k) → dist2 p cands[k] < dist2 p cands[j]

theorem nearestScan_leads (p : Rgb) (cs done : List Rgb) (best : Nat) (h : Leads p done best) :
    Leads p (done ++ cs) (nearestScan p cs done.length best (dist2 p (done[best]'h.lt))) := by
  induction cs generalizing done best with
  | nil => simpa [nearestScan] using h
  | cons c cs ih =>
    rw [nearestScan]
    have hl : (done ++ [c]).length = done.length + 1 := by simp
    split
    · next hlt =>
      have hnew : Leads p (done ++ [c]) done.length :=
        { lt := by simp
          min := fun d hd => by
            rw [List.getElem_concat_length rfl]
            rcases List.mem_append.1 hd with hd | hd
            · exact le_trans (le_of_lt hlt) (h.min d hd)
            · simp_all
          least := fun j hj => by
            rw [List.getElem_concat_length rfl, List.getElem_append_left hj]
            exact lt_of_lt_of_le hlt (h.min _ (List.getElem_mem hj)) }
      have := ih (done ++ [c]) done.length hnew
      rw [List.getElem_concat_length rfl, hl, List.append_assoc] at this
      exact this
    · next hge =>
      have hnew : Leads p (done ++ [c]) best :=
        { lt := by have := h.lt; simp; omega
          min := fun d hd => by
            rw [List.getElem_append_left h.lt]
            rcases List.mem_append.1 hd with hd | hd
            · exact h.min d hd
            · simp_all
          least := fun j hj => by
            rw [List.getElem_append_left h.lt, List.getElem_append_left (lt_trans hj h.lt)]
            exact h.least j hj }
      have := ih (done ++ [c]) best hnew
      rw [List.getElem_append_left h.lt, hl, List.append_assoc] at this
      exact this

/-- The lookup gives the least position of the least distance. -/
theorem nearestOf_leads (p c0 : Rgb) (cs : List Rgb) : Leads p (c0 :: cs) (nearestOf p c0 cs) :=
  nearestScan_leads p cs [c0] 0
    { lt := by simp
      min := fun c hc => by simp_all
      least := fun j hj => absurd hj (Nat.not_lt_zero j) }

/-- A colour that is among the candidates is remapped to itself. -/
theorem nearestOf_self {p c0 : Rgb} {cs : List Rgb} (h : p ∈ c0 :: cs) :
    (c0 :: cs)[nearestOf p c0 cs]'(nearestOf_leads p c0 cs).lt = p := by
  have := (nearestOf_leads p c0 cs).min p h
  rw [dist2_self] at this
  exact (eq_of_dist2_le_zero this).symm

/-! ## The palette -/

theorem mem_allIdx (i : Idx) : i ∈ allIdx := by revert i; decide

theorem allIdx_nodup : allIdx.Nodup := by decide

theorem palette_eq (pal : Palette) : palAt pal 0 :: allIdx.tail.map (palAt pal) = allIdx.map (palAt pal) := rfl

theorem allIdx_getElem (k : Nat) (h : k < allIdx.length) : allIdx[k] = BitVec.ofNat 4 k := by
  simp [allIdx]

/-- `nearest16` gives an entry at the least distance, and no lower index is as near (R122, R123). -/
theorem nearest16_spec (pal : Palette) (p : Rgb) (j : Idx) :
    dist2 p (palAt pal (nearest16 pal p)) ≤ dist2 p (palAt pal j) ∧
      (j < nearest16 pal p → dist2 p (palAt pal (nearest16 pal p)) < dist2 p (palAt pal j)) := by
  have L := nearestOf_leads p (palAt pal 0) (allIdx.tail.map (palAt pal))
  rw [palette_eq] at L
  have hk : nearestOf p (palAt pal 0) (allIdx.tail.map (palAt pal)) < 16 := by simpa [allIdx] using L.lt
  have hn : (nearest16 pal p).toNat = nearestOf p (palAt pal 0) (allIdx.tail.map (palAt pal)) := by
    simp only [nearest16, BitVec.toNat_ofNat]; omega
  have hat : ∀ (k : Nat) (h : k < (allIdx.map (palAt pal)).length), (allIdx.map (palAt pal))[k] = palAt pal (BitVec.ofNat 4 k) := by
    intro k h; rw [List.getElem_map, allIdx_getElem]
  have hj : j = BitVec.ofNat 4 j.toNat := by simp
  constructor
  · have := L.min (palAt pal j) (List.mem_map_of_mem (mem_allIdx j))
    rwa [hat] at this
  · intro hlt
    have := L.least j.toNat (by rw [← hn]; exact hlt)
    rw [hat, hat, ← hj] at this
    exact this

/-- Quantising a palette colour gives the same colour (R124 (b)). -/
theorem palAt_nearest16_palAt (pal : Palette) (i : Idx) : palAt pal (nearest16 pal (palAt pal i)) = palAt pal i := by
  have := (nearest16_spec pal (palAt pal i) i).1
  rw [dist2_self] at this
  exact (eq_of_dist2_le_zero this).symm

end Sys2Proof.Machine
end

