-- ==== Sys2Proof/Laws/Dither.lean ====
section
/-! SUPPORT. What the dither does to the pixel buffer (spec/41_dither.md). -/

namespace Sys2Proof.Machine

variable {g : Geometry} {pal : Palette} {share : Int → Int → Int}

/-! ## Clamp and share -/

theorem clamp_toNat (n : Byte) : clamp (n.toNat : Int) = n := by
  have := n.isLt
  rw [clamp, if_neg (by omega), if_neg (by omega)]
  simp

@[simp] theorem fsShare_zero (k : Int) : fsShare 0 k = 0 := by simp [fsShare]

@[simp] theorem residual_self (c : Rgb) : residual c c = ⟨0, 0, 0⟩ := by simp [residual, chanDiff_self]

theorem addShare_zero (k : Int) (n : Rgb) : addShare fsShare ⟨0, 0, 0⟩ k n = n := by simp [addShare, clamp_toNat]

/-! ## One neighbour -/

/-- A neighbour either is outside the image and gets nothing, or is a pixel of the image and gets its share. -/
theorem diffuse_cases (share : Int → Int → Int) (g : Geometry) (x y : Nat) (e : Residual) (m : Memory Byte) (t : Tap) :
    diffuse share g x y e m t = .ok m ∨
      ∃ nx ny : Nat, (nx : Int) = x + t.dx ∧ ny = y + t.dy ∧ nx < g.width ∧ ny < g.height ∧
        diffuse share g x y e m t = (getPixel g m nx ny >>= fun n => .ok (setPixel g m nx ny (addShare share e t.k n))) := by
  simp only [diffuse]
  split
  · next h => exact .inr ⟨((x : Int) + t.dx).toNat, y + t.dy, by omega, rfl, by omega, h.2.2, rfl⟩
  · exact .inl rfl

theorem diffuse_kept {x y : Nat} {e : Residual} {m m' : Memory Byte} {t : Tap} (h : diffuse share g x y e m t = .ok m') :
    PixKept g m m' := by
  rcases diffuse_cases share g x y e m t with hd | ⟨nx, ny, -, -, hx, hy, hd⟩
  · rw [hd] at h; cases h; exact .refl g m
  · rw [hd, bind_eq_ok] at h
    obtain ⟨n, -, h⟩ := h
    cases h
    exact .setPixel g m hx hy _

theorem diffuse_unwritten {x y : Nat} {e : Residual} {m : Memory Byte} {t : Tap} {a : Abort}
    (h : diffuse share g x y e m t = .error a) : UnwrittenByte g m a := by
  rcases diffuse_cases share g x y e m t with hd | ⟨nx, ny, -, -, hx, hy, hd⟩
  · rw [hd] at h; cases h
  · rw [hd, bind_eq_error] at h
    rcases h with h | ⟨n, -, h⟩
    · exact getPixel_unwritten hx hy h
    · cases h

/-! ## One visit, and the pass -/

theorem ditherPixel_kept {m m' : Memory Byte} {xy : Nat × Nat} (hx : xy.1 < g.width) (hy : xy.2 < g.height)
    (h : ditherPixel pal share g m xy = .ok m') : PixKept g m m' := by
  simp only [ditherPixel, bind_eq_ok] at h
  obtain ⟨old, -, h⟩ := h
  exact (PixKept.setPixel g m hx hy _).trans (PixKept.foldlM (fun _ _ _ _ => diffuse_kept) h)

theorem ditherPixel_unwritten {m : Memory Byte} {xy : Nat × Nat} {a : Abort} (hx : xy.1 < g.width) (hy : xy.2 < g.height)
    (h : ditherPixel pal share g m xy = .error a) : UnwrittenByte g m a := by
  simp only [ditherPixel, bind_eq_error] at h
  rcases h with h | ⟨old, -, h⟩
  · exact getPixel_unwritten hx hy h
  · exact .of_kept (PixKept.setPixel g m hx hy _)
      (UnwrittenByte.foldlM (fun _ _ _ _ => diffuse_kept) (fun _ _ _ _ => diffuse_unwritten) h)

theorem ditherImage_kept {m m' : Memory Byte} (h : ditherImage pal share g m = .ok m') : PixKept g m m' :=
  PixKept.foldlM (fun _ hxy _ _ => ditherPixel_kept (Geometry.mem_raster.1 hxy).1 (Geometry.mem_raster.1 hxy).2) h

theorem ditherImage_unwritten {m : Memory Byte} {a : Abort} (h : ditherImage pal share g m = .error a) :
    UnwrittenByte g m a :=
  UnwrittenByte.foldlM
    (fun _ hxy _ _ => ditherPixel_kept (Geometry.mem_raster.1 hxy).1 (Geometry.mem_raster.1 hxy).2)
    (fun _ hxy _ _ => ditherPixel_unwritten (Geometry.mem_raster.1 hxy).1 (Geometry.mem_raster.1 hxy).2) h

/-! ## The order of the pass -/

/-- Pixel `a` is visited before pixel `b`: row by row, left to right (R141). -/
def RasterBefore (a b : Nat × Nat) : Prop := a.2 < b.2 ∨ (a.2 = b.2 ∧ a.1 < b.1)

theorem Geometry.raster_pairwise (g : Geometry) : g.raster.Pairwise RasterBefore := by
  rw [Geometry.raster, List.pairwise_flatMap]
  constructor
  · intro y _
    rw [List.pairwise_map]
    exact List.pairwise_lt_range.imp fun h => .inr ⟨rfl, h⟩
  · refine List.pairwise_lt_range.imp fun {a b} hab => ?_
    intro x hx y hy
    simp only [List.mem_map, List.mem_range] at hx hy
    obtain ⟨_, _, rfl⟩ := hx
    obtain ⟨_, _, rfl⟩ := hy
    exact .inl hab

/-- Every neighbour of the kernel is visited later (R144, R147). -/
theorem kernel_later {x y nx ny : Nat} {t : Tap} (ht : t ∈ kernel) (hx : (nx : Int) = x + t.dx) (hy : ny = y + t.dy) :
    RasterBefore (x, y) (nx, ny) := by
  simp only [kernel, List.mem_cons, List.not_mem_nil, or_false] at ht
  simp only [RasterBefore]
  rcases ht with rfl | rfl | rfl | rfl <;> simp only at hx hy <;> omega

/-- A visit leaves every pixel visited before as it is, and leaves its own pixel a palette colour. -/
theorem ditherPixel_earlier {m m' : Memory Byte} {xy p : Nat × Nat} (hxy : xy.1 < g.width)
    (hp : p.1 < g.width) (h : ditherPixel pal share g m xy = .ok m') (hb : ¬ RasterBefore xy p) :
    (p ≠ xy ∧ getPixel g m' p.1 p.2 = getPixel g m p.1 p.2) ∨
      (p = xy ∧ ∃ old, getPixel g m xy.1 xy.2 = .ok old ∧ getPixel g m' p.1 p.2 = .ok (palAt pal (nearest16 pal old))) := by
  simp only [ditherPixel, bind_eq_ok] at h
  obtain ⟨old, hold, h⟩ := h
  have hk : getPixel g m' p.1 p.2 = getPixel g (setPixel g m xy.1 xy.2 (palAt pal (nearest16 pal old))) p.1 p.2 := by
    refine foldlM_inv (fun s => getPixel g s p.1 p.2 = getPixel g (setPixel g m xy.1 xy.2 _) p.1 p.2) kernel rfl ?_ h
    intro t ht s s' hs hst
    rcases diffuse_cases share g xy.1 xy.2 (residual old (palAt pal (nearest16 pal old))) s t with
      hd | ⟨nx, ny, hx, hy, hxw, -, hd⟩
    · rw [hd] at hst; cases hst; exact hs
    · rw [hd, bind_eq_ok] at hst
      obtain ⟨n, -, hst⟩ := hst
      cases hst
      rw [← hs]
      refine getPixel_setPixel_of_ne g s _ hxw hp fun he => hb ?_
      have := kernel_later ht hx hy
      rw [he] at this
      exact this
  by_cases he : p = xy
  · subst he
    exact .inr ⟨rfl, old, hold, by rw [hk, getPixel_setPixel_self]⟩
  · refine .inl ⟨he, ?_⟩
    rw [hk]
    exact getPixel_setPixel_of_ne g m _ hxy hp (Ne.symm he)

/-! ## Palette colours -/

/-- A visit to a palette colour, with the share function of R145, changes nothing (R148). -/
theorem ditherPixel_fixed {m : Memory Byte} {xy : Nat × Nat} {i : Idx} (hwf : m.wf)
    (hp : getPixel g m xy.1 xy.2 = .ok (palAt pal i))
    (hall : ∀ x < g.width, ∀ y < g.height, ∃ c, getPixel g m x y = .ok c) :
    ditherPixel pal fsShare g m xy = .ok m := by
  have hq : setPixel g m xy.1 xy.2 (palAt pal i) = m := setPixel_eq_self hwf hp
  simp only [ditherPixel, hp, ok_bind, palAt_nearest16_palAt, residual_self, hq]
  obtain ⟨r, hr, rfl⟩ := foldlM_ok (f := diffuse fsShare g xy.1 xy.2 ⟨0, 0, 0⟩) (fun s => s = m) kernel rfl fun t ht s hs => by
    subst hs
    rcases diffuse_cases fsShare g xy.1 xy.2 ⟨0, 0, 0⟩ s t with hd | ⟨nx, ny, -, -, hx, hy, hd⟩
    · exact ⟨s, hd, rfl⟩
    · obtain ⟨c, hc⟩ := hall nx hx ny hy
      exact ⟨s, by rw [hd, hc, ok_bind, addShare_zero, setPixel_eq_self hwf hc], rfl⟩
  exact hr

end Sys2Proof.Machine
end

