-- ==== Sys2Proof/Laws/Reduce.lean ====
section
/-! SUPPORT. What the block reducer does to `PIX` and `ASG` (spec/42_reduce_hires.md, spec/43_reduce_multicolor.md). -/

namespace Sys2Proof.Machine

variable {g : Geometry} {pal : Palette}

/-! ## The indices of a block -/

theorem pixelIndices_congr {m m' : Memory Byte} {l : List (Nat × Nat)}
    (h : ∀ xy ∈ l, getPixel g m xy.1 xy.2 = getPixel g m' xy.1 xy.2) :
    pixelIndices pal g m l = pixelIndices pal g m' l := by
  induction l with
  | nil => rfl
  | cons xy l ih =>
    simp only [pixelIndices, h xy (List.mem_cons_self ..), ih fun z hz => h z (List.mem_cons_of_mem _ hz)]

theorem pixelIndices_unwritten {m : Memory Byte} {l : List (Nat × Nat)} {e : Abort}
    (hl : ∀ xy ∈ l, xy.1 < g.width ∧ xy.2 < g.height) (h : pixelIndices pal g m l = .error e) : UnwrittenByte g m e := by
  induction l with
  | nil => cases h
  | cons xy l ih =>
    have hxy := hl xy (List.mem_cons_self ..)
    simp only [pixelIndices, bind_eq_error] at h
    rcases h with h | ⟨_, -, h | ⟨_, -, h⟩⟩
    · exact getPixel_unwritten hxy.1 hxy.2 h
    · exact ih (fun z hz => hl z (List.mem_cons_of_mem _ hz)) h
    · cases h

theorem pixelIndices_of_written {m : Memory Byte} (hw : m.writtenBelow g.ext) (row col : Nat) :
    ∃ is, pixelIndices pal g m (g.blockPixels row col) = .ok is :=
  ok_of_written hw fun _ => pixelIndices_unwritten fun _ => Geometry.blockPixels_lt

theorem pixelIndices_cons_ok {m : Memory Byte} {xy : Nat × Nat} {l : List (Nat × Nat)} {is : List Idx} :
    pixelIndices pal g m (xy :: l) = .ok is ↔ ∃ p js, getPixel g m xy.1 xy.2 = .ok p ∧
      pixelIndices pal g m l = .ok js ∧ is = nearest16 pal p :: js := by
  simp only [pixelIndices, bind_eq_ok, Except.ok.injEq]
  constructor
  · rintro ⟨p, hp, js, hjs, rfl⟩; exact ⟨p, js, hp, hjs, rfl⟩
  · rintro ⟨p, js, hp, hjs, rfl⟩; exact ⟨p, hp, js, hjs, rfl⟩

/-- The indices that occur in a block are the nearest indices of its pixels. -/
theorem mem_pixelIndices {m : Memory Byte} {l : List (Nat × Nat)} {is : List Idx} (h : pixelIndices pal g m l = .ok is)
    (i : Idx) : i ∈ is ↔ ∃ xy ∈ l, ∃ p, getPixel g m xy.1 xy.2 = .ok p ∧ nearest16 pal p = i := by
  induction l generalizing is with
  | nil => cases h; simp
  | cons xy l ih =>
    obtain ⟨p, js, hp, hjs, rfl⟩ := pixelIndices_cons_ok.1 h
    simp only [List.mem_cons, ih hjs, exists_eq_or_imp, hp, Except.ok.injEq, exists_eq_left', eq_comm (a := i)]

theorem pixelIndices_length {m : Memory Byte} {l : List (Nat × Nat)} {is : List Idx}
    (h : pixelIndices pal g m l = .ok is) : is.length = l.length := by
  induction l generalizing is with
  | nil => cases h; rfl
  | cons xy l ih =>
    obtain ⟨p, js, -, hjs, rfl⟩ := pixelIndices_cons_ok.1 h
    simp [ih hjs]

theorem tally_pos {is : List Idx} {i : Idx} : 1 ≤ tally is i ↔ i ∈ is := List.count_pos_iff

/-! ## Remapping a block -/

theorem remapPixel_kept {c0 : Idx} {cs : List Idx} {m m' : Memory Byte} {xy : Nat × Nat} (hx : xy.1 < g.width)
    (hy : xy.2 < g.height) (h : remapPixel pal g c0 cs m xy = .ok m') : PixKept g m m' := by
  simp only [remapPixel, bind_eq_ok] at h
  obtain ⟨p, -, h⟩ := h
  cases h
  exact .setPixel g m hx hy _

theorem remapPixel_unwritten {c0 : Idx} {cs : List Idx} {m : Memory Byte} {xy : Nat × Nat} {e : Abort}
    (hx : xy.1 < g.width) (hy : xy.2 < g.height) (h : remapPixel pal g c0 cs m xy = .error e) : UnwrittenByte g m e := by
  simp only [remapPixel, bind_eq_error] at h
  rcases h with h | ⟨p, -, h⟩
  · exact getPixel_unwritten hx hy h
  · cases h

theorem remapBlock_kept {c0 : Idx} {cs : List Idx} {row col : Nat} {m m' : Memory Byte}
    (h : remapBlock pal g c0 cs row col m = .ok m') : PixKept g m m' :=
  PixKept.foldlM (fun _ hxy _ _ => remapPixel_kept (Geometry.blockPixels_lt hxy).1 (Geometry.blockPixels_lt hxy).2) h

theorem remapBlock_unwritten {c0 : Idx} {cs : List Idx} {row col : Nat} {m : Memory Byte} {e : Abort}
    (h : remapBlock pal g c0 cs row col m = .error e) : UnwrittenByte g m e :=
  UnwrittenByte.foldlM
    (fun _ hxy _ _ => remapPixel_kept (Geometry.blockPixels_lt hxy).1 (Geometry.blockPixels_lt hxy).2)
    (fun _ hxy _ _ => remapPixel_unwritten (Geometry.blockPixels_lt hxy).1 (Geometry.blockPixels_lt hxy).2) h

/-- After a block is remapped, each of its pixels has the colour of its nearest slot, measured from the bytes it had, and
every other pixel is unchanged. -/
theorem remapBlock_pixels {c0 : Idx} {cs : List Idx} {row col : Nat} {m m' : Memory Byte}
    (h : remapBlock pal g c0 cs row col m = .ok m') {x y : Nat} (hx : x < g.width) {p : Rgb}
    (hp : getPixel g m x y = .ok p) :
    getPixel g m' x y = .ok (if (x, y) ∈ g.blockPixels row col then remapColour pal c0 cs p else p) := by
  refine foldlM_inv_prefix
    (fun pre s => getPixel g s x y = .ok (if (x, y) ∈ pre then remapColour pal c0 cs p else p)) _ (by simp [hp]) ?_ h
  intro pre xy post s t hl hs ht
  have hxy : xy ∈ g.blockPixels row col := by simp [hl]
  have hnd := g.nodup_blockPixels row col
  rw [hl, List.nodup_append, List.nodup_cons] at hnd
  simp only [remapPixel, bind_eq_ok] at ht
  obtain ⟨q, hq, ht⟩ := ht
  cases ht
  by_cases he : xy = (x, y)
  · subst he
    have hnot : (x, y) ∉ pre := fun hmem => hnd.2.2 _ hmem _ (List.mem_cons_self ..) rfl
    rw [hs, if_neg hnot] at hq
    cases hq
    simp
  · rw [getPixel_setPixel_of_ne g s _ (Geometry.blockPixels_lt hxy).1 hx he, hs]
    simp [List.mem_append, Ne.symm he]

/-! ## The colour a pixel becomes -/

/-- Of two slots the nearer, the first on a tie (R166). -/
theorem remapColour_pair (pal : Palette) (f k : Idx) (p : Rgb) : remapColour pal f [k] p =
    if dist2 p (palAt pal k) < dist2 p (palAt pal f) then palAt pal k else palAt pal f := by
  simp only [remapColour, nearestOf, nearestScan, List.map_cons, List.map_nil]
  split <;> rfl

/-- The nearest slot, the earliest on a tie (R166, R122). -/
theorem remapColour_spec (pal : Palette) (c0 : Idx) (cs : List Idx) (p : Rgb) :
    ∃ n, ∃ h : n < (c0 :: cs).length, remapColour pal c0 cs p = palAt pal (c0 :: cs)[n] ∧
      ∀ (j : Nat) (hj : j < (c0 :: cs).length),
        dist2 p (palAt pal (c0 :: cs)[n]) ≤ dist2 p (palAt pal (c0 :: cs)[j]) ∧
          (j < n → dist2 p (palAt pal (c0 :: cs)[n]) < dist2 p (palAt pal (c0 :: cs)[j])) := by
  have L := nearestOf_leads p (palAt pal c0) (cs.map (palAt pal))
  have hget : ∀ (n : Nat) (h : n < (c0 :: cs).length),
      (palAt pal c0 :: cs.map (palAt pal))[n]'(by simpa using h) = palAt pal (c0 :: cs)[n] :=
    fun n h => List.getElem_map (l := c0 :: cs) (palAt pal) ..
  have hn : nearestOf p (palAt pal c0) (cs.map (palAt pal)) < (c0 :: cs).length := by simpa using L.lt
  refine ⟨_, hn, ?_, fun j hj => ⟨?_, fun hlt => ?_⟩⟩
  · rw [remapColour, List.getD_eq_getElem _ _ hn]
  · have := L.min _ (List.getElem_mem (show j < (palAt pal c0 :: cs.map (palAt pal)).length by simpa using hj))
    rwa [hget _ hn, hget _ hj] at this
  · have := L.least j hlt
    rwa [hget _ hn, hget _ hj] at this

/-- The colour is that of some slot (R173, R198). -/
theorem remapColour_mem (pal : Palette) (c0 : Idx) (cs : List Idx) (p : Rgb) :
    ∃ i ∈ c0 :: cs, remapColour pal c0 cs p = palAt pal i := by
  obtain ⟨n, hn, h, -⟩ := remapColour_spec pal c0 cs p
  exact ⟨_, List.getElem_mem hn, h⟩

/-- A colour of a slot stays (R174). -/
theorem remapColour_slot (pal : Palette) {c0 : Idx} {cs : List Idx} {i : Idx} (h : i ∈ c0 :: cs) :
    remapColour pal c0 cs (palAt pal i) = palAt pal i := by
  obtain ⟨j, hj, rfl⟩ := List.mem_iff_getElem.1 h
  obtain ⟨n, hn, he, hs⟩ := remapColour_spec pal c0 cs (palAt pal (c0 :: cs)[j])
  have := (hs j hj).1
  rw [dist2_self] at this
  rw [he]
  exact (eq_of_dist2_le_zero this).symm

/-! ## The loop over the blocks -/

/-- The plan of a block: its slots and its entry of `ASG`. -/
abbrev BlockPlan := Idx × List Idx × AsgEntry

/-- Remap a block by its plan and write its entry: what one round of each of the three reducers comes to. -/
def writeBlock (pal : Palette) (g : Geometry) (plan : BlockPlan) (m : ReduceMem) (rc : Nat × Nat) :
    Except Abort ReduceMem := do
  let pix ← remapBlock pal g plan.1 plan.2.1 rc.1 rc.2 m.1
  .ok (pix, m.2.write (g.asgIndex rc.1 rc.2) plan.2.2)

theorem writeHiresBlock_eq (pal : Palette) (g : Geometry) (fs : Idx × Idx) :
    writeHiresBlock pal g fs = writeBlock pal g (fs.1, [fs.2], hiresEntry fs.1 fs.2) := rfl

/-- `asg'` comes from `asg` by writing entries of blocks. -/
structure AsgKept (g : Geometry) (asg asg' : Memory AsgEntry) : Prop where
  /-- the canonical form is kept -/
  wf : asg.wf → asg'.wf
  /-- the capacity is kept -/
  within : ∀ cap, g.nblk ≤ cap → asg.within cap → asg'.within cap
  /-- entries at and above `NBLK` are unchanged -/
  above : ∀ n, g.nblk ≤ n → asg'.read n = asg.read n

theorem AsgKept.refl (g : Geometry) (asg : Memory AsgEntry) : AsgKept g asg asg := ⟨id, fun _ _ => id, fun _ _ => rfl⟩

theorem AsgKept.write {asg asg' : Memory AsgEntry} (h : AsgKept g asg asg') {rc : Nat × Nat} (hrc : rc ∈ g.blocks)
    (e : AsgEntry) : AsgKept g asg (asg'.write (g.asgIndex rc.1 rc.2) e) := by
  have hlt := Geometry.asgIndex_lt (Geometry.mem_blocks.1 hrc).1 (Geometry.mem_blocks.1 hrc).2
  exact
    { wf := fun hw => Memory.wf_write (h.wf hw) _ _
      within := fun cap hc hw => Memory.within_write (h.within cap hc hw) (by omega) _
      above := fun n hn => by rw [Memory.read_write_of_ne _ _ (by omega), h.above n hn] }

/-- What a loop over all blocks leaves, given the plan of every block. -/
structure BlocksWritten (pal : Palette) (g : Geometry) (plan : Nat × Nat → BlockPlan) (m r : ReduceMem) : Prop where
  /-- the pixel buffer is kept but for bytes of the image -/
  pix_kept : PixKept g m.1 r.1
  /-- the assignment memory is kept but for entries of blocks -/
  asg_kept : AsgKept g m.2 r.2
  /-- every block has the entry of its plan -/
  entry : ∀ rc ∈ g.blocks, r.2.read (g.asgIndex rc.1 rc.2) = some (plan rc).2.2
  /-- every pixel has the nearest slot of its block's plan, measured from the bytes it had -/
  pixel : ∀ rc ∈ g.blocks, ∀ xy ∈ g.blockPixels rc.1 rc.2, ∀ p, getPixel g m.1 xy.1 xy.2 = .ok p →
    getPixel g r.1 xy.1 xy.2 = .ok (remapColour pal (plan rc).1 (plan rc).2.1 p)

/-- Blocks are disjoint, so a loop whose every round works by a plan made from the block's own pixels leaves the same as if all
plans had been made before the first write (R168). -/
theorem foldlM_blocksWritten {f : ReduceMem → Nat × Nat → Except Abort ReduceMem} (plan : Nat × Nat → BlockPlan)
    {m : ReduceMem} (hw : m.1.writtenBelow g.ext)
    (hf : ∀ rc ∈ g.blocks, ∀ s : ReduceMem,
      (∀ xy ∈ g.blockPixels rc.1 rc.2, getPixel g s.1 xy.1 xy.2 = getPixel g m.1 xy.1 xy.2) →
        f s rc = writeBlock pal g (plan rc) s rc) :
    ∃ r, g.blocks.foldlM f m = .ok r ∧ BlocksWritten pal g plan m r := by
  have H := foldlM_ok_prefix (f := f) (init := m)
    (fun pre s => PixKept g m.1 s.1 ∧ AsgKept g m.2 s.2 ∧
      (∀ rc ∈ pre, s.2.read (g.asgIndex rc.1 rc.2) = some (plan rc).2.2) ∧
      (∀ rc ∈ g.blocks, ∀ xy ∈ g.blockPixels rc.1 rc.2, ∀ p, getPixel g m.1 xy.1 xy.2 = .ok p →
        getPixel g s.1 xy.1 xy.2 = .ok (if rc ∈ pre then remapColour pal (plan rc).1 (plan rc).2.1 p else p)))
    g.blocks ⟨.refl g _, .refl g _, by simp, fun _ _ _ _ p hp => by simpa using hp⟩ ?_
  · obtain ⟨r, hr, hk, ha, he, hp⟩ := H
    refine ⟨r, hr, hk, ha, he, fun rc hrc xy hxy p h => ?_⟩
    rw [hp rc hrc xy hxy p h, if_pos hrc]
  · intro pre rc post s hl ⟨hk, ha, he, hp⟩
    have hrc : rc ∈ g.blocks := by simp [hl]
    have hnd := g.nodup_blocks
    rw [hl, List.nodup_append, List.nodup_cons] at hnd
    have hnot : rc ∉ pre := fun hmem => hnd.2.2 _ hmem _ (List.mem_cons_self ..) rfl
    have hsame : ∀ xy ∈ g.blockPixels rc.1 rc.2, getPixel g s.1 xy.1 xy.2 = getPixel g m.1 xy.1 xy.2 := by
      intro xy hxy
      obtain ⟨p, hpx⟩ := getPixel_of_written hw (Geometry.blockPixels_lt hxy).1 (Geometry.blockPixels_lt hxy).2
      rw [hp rc hrc xy hxy p hpx, hpx, if_neg hnot]
    obtain ⟨pix, hpix⟩ : ∃ pix, remapBlock pal g (plan rc).1 (plan rc).2.1 rc.1 rc.2 s.1 = .ok pix :=
      ok_of_written (hk.writtenBelow hw) fun _ => remapBlock_unwritten
    refine ⟨(pix, s.2.write (g.asgIndex rc.1 rc.2) (plan rc).2.2), ?_, ?_, ?_, ?_, ?_⟩
    · rw [hf rc hrc s hsame, writeBlock, hpix, ok_bind]
    · exact hk.trans (remapBlock_kept hpix)
    · exact ha.write hrc _
    · intro rc' hrc'
      simp only
      rw [Memory.read_write]
      split
      · next hidx =>
        have hin : rc' ∈ g.blocks := by
          rcases List.mem_append.1 hrc' with h | h
          · simp [hl, h]
          · simp_all
        rw [Geometry.asgIndex_inj (Geometry.mem_blocks.1 hrc).2 (Geometry.mem_blocks.1 hin).2 hidx]
      · next hidx =>
        rcases List.mem_append.1 hrc' with h | h
        · exact he rc' h
        · simp only [List.mem_cons, List.not_mem_nil, or_false] at h
          subst h
          exact absurd rfl hidx
    · intro rc' hrc' xy hxy p hpx
      have hlt := Geometry.blockPixels_lt hxy
      rw [remapBlock_pixels hpix hlt.1 (hp rc' hrc' xy hxy p hpx)]
      by_cases heq : rc' = rc
      · subst heq
        simp [hnot, hxy]
      · have hn : xy ∉ g.blockPixels rc.1 rc.2 := fun hmem => heq <| by
          obtain ⟨h1, h2⟩ := Geometry.block_of_mem hxy
          obtain ⟨h3, h4⟩ := Geometry.block_of_mem hmem
          exact Prod.ext (h1.trans h3.symm) (h2.trans h4.symm)
        simp [hn, heq]

/-! ## What a round keeps, whatever it starts from -/

/-- What any loop of block writes keeps. -/
structure ReduceKept (g : Geometry) (m m' : ReduceMem) : Prop where
  /-- the pixel buffer -/
  pix : PixKept g m.1 m'.1
  /-- the assignment memory -/
  asg : AsgKept g m.2 m'.2

theorem ReduceKept.refl (g : Geometry) (m : ReduceMem) : ReduceKept g m m := ⟨.refl g _, .refl g _⟩

theorem writeBlock_kept {plan : BlockPlan} {m s s' : ReduceMem} {rc : Nat × Nat} (hrc : rc ∈ g.blocks)
    (h0 : ReduceKept g m s) (h : writeBlock pal g plan s rc = .ok s') : ReduceKept g m s' := by
  simp only [writeBlock, bind_eq_ok] at h
  obtain ⟨pix, hpix, h⟩ := h
  cases h
  exact ⟨h0.pix.trans (remapBlock_kept hpix), h0.asg.write hrc _⟩

theorem writeBlock_unwritten {plan : BlockPlan} {s : ReduceMem} {rc : Nat × Nat} {e : Abort}
    (h : writeBlock pal g plan s rc = .error e) : UnwrittenByte g s.1 e := by
  simp only [writeBlock, bind_eq_error] at h
  rcases h with h | ⟨_, -, h⟩
  · exact remapBlock_unwritten h
  · cases h

/-! ## Two-pass policy and multicolour mode: one round -/

/-- The plan of a block under the two-pass policy (R163 to R167). -/
def twoPassPlan (is : List Idx) : BlockPlan :=
  let fs := selectHires (tally is)
  (fs.1, [fs.2], hiresEntry fs.1 fs.2)

/-- The plan of a block in multicolour mode (R192 to R196). -/
def multicolorPlan (bg : Idx) (is : List Idx) : BlockPlan :=
  (bg, localSlots (tally is) bg, mcEntry (localSlots (tally is) bg))

theorem twoPassBlock_eq {s : ReduceMem} {rc : Nat × Nat} :
    twoPassBlock pal g s rc =
      (pixelIndices pal g s.1 (g.blockPixels rc.1 rc.2) >>= fun is => writeBlock pal g (twoPassPlan is) s rc) := rfl

theorem multicolorBlock_eq {bg : Idx} {s : ReduceMem} {rc : Nat × Nat} :
    multicolorBlock pal bg g s rc =
      (pixelIndices pal g s.1 (g.blockPixels rc.1 rc.2) >>= fun is => writeBlock pal g (multicolorPlan bg is) s rc) := rfl

/-- A loop of rounds that plan from the indices of the block and then write it completes on a written image; the plans are
those of the image before the loop. -/
theorem foldlM_planned {f : ReduceMem → Nat × Nat → Except Abort ReduceMem} {mk : List Idx → BlockPlan} {m : ReduceMem}
    (hw : m.1.writtenBelow g.ext)
    (hf : ∀ s rc, f s rc = (pixelIndices pal g s.1 (g.blockPixels rc.1 rc.2) >>= fun is => writeBlock pal g (mk is) s rc)) :
    ∃ r plan, g.blocks.foldlM f m = .ok r ∧ BlocksWritten pal g plan m r ∧
      ∀ rc, ∃ is, pixelIndices pal g m.1 (g.blockPixels rc.1 rc.2) = .ok is ∧ plan rc = mk is := by
  have hidx : ∀ rc : Nat × Nat, ∃ is, pixelIndices pal g m.1 (g.blockPixels rc.1 rc.2) = .ok is :=
    fun rc => pixelIndices_of_written hw rc.1 rc.2
  choose idx hidx using hidx
  obtain ⟨r, hr, hb⟩ := foldlM_blocksWritten (pal := pal) (f := f) (fun rc => mk (idx rc)) hw fun rc _ s hs => by
    rw [hf, pixelIndices_congr hs, hidx rc, ok_bind]
  exact ⟨r, _, hr, hb, fun rc => ⟨idx rc, hidx rc, rfl⟩⟩

/-- Such a loop can only end early at an unwritten byte. -/
theorem foldlM_planned_unwritten {f : ReduceMem → Nat × Nat → Except Abort ReduceMem} {mk : List Idx → BlockPlan}
    {m : ReduceMem} {e : Abort}
    (hf : ∀ s rc, f s rc = (pixelIndices pal g s.1 (g.blockPixels rc.1 rc.2) >>= fun is => writeBlock pal g (mk is) s rc))
    (h : g.blocks.foldlM f m = .error e) : UnwrittenByte g m.1 e := by
  obtain ⟨rc, hrc, s, hs, he⟩ := foldlM_error (fun s => ReduceKept g m s) g.blocks (.refl g m)
    (fun rc hrc s t hs ht => by
      rw [hf, bind_eq_ok] at ht
      obtain ⟨is, -, ht⟩ := ht
      exact writeBlock_kept hrc hs ht) h
  rw [hf, bind_eq_error] at he
  rcases he with he | ⟨is, -, he⟩
  · exact .of_kept hs.pix (pixelIndices_unwritten (fun _ => Geometry.blockPixels_lt) he)
  · exact .of_kept hs.pix (writeBlock_unwritten he)

/-! ## The strict variant: the scan -/

/-- The scan of R169 on indices alone: `none` where a third colour appears. -/
def scanIndices : List Idx → List Idx → Option (List Idx)
  | [], seen => some seen
  | i :: is, seen =>
    if i ∈ seen then scanIndices is seen else if seen.length = 2 then none else scanIndices is (seen ++ [i])

/-- On readable pixels the scan is the scan of their indices. -/
theorem scanPixels_eq {m : Memory Byte} {row col : Nat} {l : List (Nat × Nat)} {is seen : List Idx}
    (h : pixelIndices pal g m l = .ok is) :
    scanPixels pal g m row col l seen = match scanIndices is seen with
      | some r => .ok r
      | none => .error (.raise .paletteOverflow (BitVec.ofNat 8 row) (BitVec.ofNat 8 col)) := by
  induction l generalizing is seen with
  | nil => cases h; rfl
  | cons xy l ih =>
    obtain ⟨p, js, hp, hjs, rfl⟩ := pixelIndices_cons_ok.1 h
    simp only [scanPixels, scanIndices, hp, ok_bind]
    split
    · exact ih hjs
    · split
      · rfl
      · exact ih hjs

/-- The scan ends early by a palette overflow of its block, or at an unwritten byte. -/
theorem scanPixels_error {m : Memory Byte} {row col : Nat} {l : List (Nat × Nat)} {seen : List Idx} {e : Abort}
    (hl : ∀ xy ∈ l, xy.1 < g.width ∧ xy.2 < g.height) (h : scanPixels pal g m row col l seen = .error e) :
    e = .raise .paletteOverflow (BitVec.ofNat 8 row) (BitVec.ofNat 8 col) ∨ UnwrittenByte g m e := by
  induction l generalizing seen with
  | nil => cases h
  | cons xy l ih =>
    have hxy := hl xy (List.mem_cons_self ..)
    have hl' : ∀ z ∈ l, z.1 < g.width ∧ z.2 < g.height := fun z hz => hl z (List.mem_cons_of_mem _ hz)
    simp only [scanPixels, bind_eq_error] at h
    rcases h with h | ⟨p, -, h⟩
    · exact .inr (getPixel_unwritten hxy.1 hxy.2 h)
    · split at h
      · exact ih hl' h
      · split at h
        · cases h; exact .inl rfl
        · exact ih hl' h

/-- The check pass over a list of blocks whose scans all pass. -/
theorem scanBlocks_ok {m : Memory Byte} {l : List (Nat × Nat)} {fs : Nat × Nat → Idx × Idx}
    (h : ∀ rc ∈ l, scanBlock pal g m rc = .ok (fs rc)) :
    scanBlocks pal g m l = .ok (l.map fun rc => (rc, fs rc)) := by
  induction l with
  | nil => rfl
  | cons rc l ih =>
    rw [scanBlocks, h rc (List.mem_cons_self ..), ok_bind, ih fun z hz => h z (List.mem_cons_of_mem _ hz), ok_bind,
      List.map_cons]

/-- The check pass stops at the first block whose scan does not pass. -/
theorem scanBlocks_error {m : Memory Byte} {pre post : List (Nat × Nat)} {rc : Nat × Nat} {e : Abort}
    (hpre : ∀ z ∈ pre, ∃ fs, scanBlock pal g m z = .ok fs) (h : scanBlock pal g m rc = .error e) :
    scanBlocks pal g m (pre ++ rc :: post) = .error e := by
  induction pre with
  | nil => rw [List.nil_append, scanBlocks, h, error_bind]
  | cons z pre ih =>
    obtain ⟨fs, hfs⟩ := hpre z (List.mem_cons_self ..)
    rw [List.cons_append, scanBlocks, hfs, ok_bind, ih fun y hy => hpre y (List.mem_cons_of_mem _ hy), error_bind]

/-- Where the check pass ends early, some block's scan did. -/
theorem scanBlocks_error_cases {m : Memory Byte} {l : List (Nat × Nat)} {e : Abort}
    (h : scanBlocks pal g m l = .error e) : ∃ rc ∈ l, scanBlock pal g m rc = .error e := by
  induction l with
  | nil => cases h
  | cons rc l ih =>
    simp only [scanBlocks, bind_eq_error] at h
    rcases h with h | ⟨_, -, h | ⟨_, -, h⟩⟩
    · exact ⟨rc, List.mem_cons_self .., h⟩
    · obtain ⟨z, hz, hs⟩ := ih h
      exact ⟨z, List.mem_cons_of_mem _ hz, hs⟩
    · cases h

/-- Where the check pass completes, every block's scan did. -/
theorem scanBlocks_each {m : Memory Byte} {l : List (Nat × Nat)} {plan : List ((Nat × Nat) × (Idx × Idx))}
    (h : scanBlocks pal g m l = .ok plan) : ∀ rc ∈ l, ∃ fs, scanBlock pal g m rc = .ok fs := by
  induction l generalizing plan with
  | nil => simp
  | cons rc l ih =>
    simp only [scanBlocks, bind_eq_ok] at h
    obtain ⟨fs, hfs, rest, hrest, -⟩ := h
    intro z hz
    rcases List.mem_cons.1 hz with rfl | hz
    · exact ⟨fs, hfs⟩
    · exact ih hrest z hz

/-- The plans of a completed check pass belong to the blocks scanned, in order. -/
theorem scanBlocks_fst {m : Memory Byte} {l : List (Nat × Nat)} {plan : List ((Nat × Nat) × (Idx × Idx))}
    (h : scanBlocks pal g m l = .ok plan) : plan.map Prod.fst = l := by
  induction l generalizing plan with
  | nil => cases h; rfl
  | cons rc l ih =>
    simp only [scanBlocks, bind_eq_ok] at h
    obtain ⟨fs, -, rest, hrest, h⟩ := h
    cases h
    simp [ih hrest]

/-! ## Block order -/

/-- All blocks stand in row-major block order. -/
theorem Geometry.blocks_pairwise (g : Geometry) : g.blocks.Pairwise fun a b => BlockBefore a.1 a.2 b.1 b.2 := by
  rw [Geometry.blocks, List.pairwise_flatMap]
  constructor
  · intro y _
    rw [List.pairwise_map]
    exact List.pairwise_lt_range.imp fun h => .inr ⟨rfl, h⟩
  · refine List.pairwise_lt_range.imp fun {a b} hab => ?_
    intro x hx y hy
    simp only [List.mem_map, List.mem_range] at hx hy
    obtain ⟨_, _, rfl⟩ := hx
    obtain ⟨_, _, rfl⟩ := hy
    exact .inl hab

/-- The blocks before a block in the list are those before it in row-major block order. -/
theorem Geometry.split_blocks {g : Geometry} {rc : Nat × Nat} (h : rc ∈ g.blocks) :
    ∃ pre post, g.blocks = pre ++ rc :: post ∧ ∀ z ∈ pre, z ∈ g.blocks ∧ BlockBefore z.1 z.2 rc.1 rc.2 := by
  obtain ⟨pre, post, hl⟩ := List.append_of_mem h
  refine ⟨pre, post, hl, fun z hz => ⟨by simp [hl, hz], ?_⟩⟩
  have hp := g.blocks_pairwise
  rw [hl, List.pairwise_append] at hp
  exact hp.2.2 z hz rc (List.mem_cons_self ..)

/-! ## Entries -/

@[simp] theorem asgN0_hiresEntry (f s : Idx) : asgN0 (hiresEntry f s) = f := by
  simp only [asgN0, hiresEntry]; revert f s; decide

@[simp] theorem asgN1_hiresEntry (f s : Idx) : asgN1 (hiresEntry f s) = s := by
  simp only [asgN1, hiresEntry]; revert f s; decide

@[simp] theorem asgN2_hiresEntry (f s : Idx) : asgN2 (hiresEntry f s) = 0 := by
  simp only [asgN2, hiresEntry]; revert f s; decide

end Sys2Proof.Machine
end

