-- ==== Sys2Proof/Laws/Encode.lean ====
section
/-! SUPPORT. What the encoder reads, when it ends early, and what it writes (spec/44_encode.md). -/

namespace Sys2Proof.Machine

variable {g : Geometry} {pal : Palette} {pix : Memory Byte} {asg : Memory AsgEntry}

/-! ## The check pass -/

theorem checkPixel_cases (pal : Palette) (g : Geometry) {e : AsgEntry} {rc xy : Nat × Nat} {p : Rgb}
    (hp : getPixel g pix xy.1 xy.2 = .ok p) :
    checkPixel pal g pix e rc xy = if classify pal (asgN0 e) (asgN1 e) p = .neither then
      .error (.raise .blockOverflow (BitVec.ofNat 8 rc.1) (BitVec.ofNat 8 rc.2)) else .ok () := by
  rw [checkPixel, hp, ok_bind]

/-- The check of one pixel ends early by the overflow of its cell, or at an unwritten byte. -/
theorem checkPixel_error {e : AsgEntry} {rc xy : Nat × Nat} {a : Abort} (hx : xy.1 < g.width) (hy : xy.2 < g.height)
    (h : checkPixel pal g pix e rc xy = .error a) :
    (a = .raise .blockOverflow (BitVec.ofNat 8 rc.1) (BitVec.ofNat 8 rc.2) ∧
      ∃ p, getPixel g pix xy.1 xy.2 = .ok p ∧ classify pal (asgN0 e) (asgN1 e) p = .neither) ∨ UnwrittenByte g pix a := by
  cases hp : getPixel g pix xy.1 xy.2 with
  | error b =>
    rw [checkPixel, hp, error_bind] at h
    cases h
    exact .inr (getPixel_unwritten hx hy hp)
  | ok p =>
    rw [checkPixel_cases pal g hp] at h
    split at h
    · next hn => cases h; exact .inl ⟨rfl, p, rfl, hn⟩
    · cases h

/-- The check of one cell whose pixels all belong to its pair passes; the check of an offending one reports it. -/
theorem checkCell_of_written {rc : Nat × Nat} {e : AsgEntry} (hw : pix.writtenBelow g.ext)
    (he : asg.read (g.asgIndex rc.1 rc.2) = some e) :
    ((∀ xy ∈ g.blockPixels rc.1 rc.2, ∀ p, getPixel g pix xy.1 xy.2 = .ok p →
        classify pal (asgN0 e) (asgN1 e) p ≠ .neither) ∧ checkCell pal g pix asg rc = .ok ()) ∨
      ((∃ xy ∈ g.blockPixels rc.1 rc.2, ∃ p, getPixel g pix xy.1 xy.2 = .ok p ∧
        classify pal (asgN0 e) (asgN1 e) p = .neither) ∧
        checkCell pal g pix asg rc = .error (.raise .blockOverflow (BitVec.ofNat 8 rc.1) (BitVec.ofNat 8 rc.2))) := by
  have hcell : checkCell pal g pix asg rc =
      (g.blockPixels rc.1 rc.2).foldlM (fun _ xy => checkPixel pal g pix e rc xy) () := by
    rw [checkCell, cellEntry, readCell_of_read he, ok_bind]
  by_cases hall : ∀ xy ∈ g.blockPixels rc.1 rc.2, ∀ p, getPixel g pix xy.1 xy.2 = .ok p →
      classify pal (asgN0 e) (asgN1 e) p ≠ .neither
  · left
    refine ⟨hall, ?_⟩
    obtain ⟨r, hr, -⟩ := foldlM_ok (f := fun (_ : Unit) xy => checkPixel pal g pix e rc xy) (fun _ => True)
      (g.blockPixels rc.1 rc.2) (init := ()) trivial fun xy hxy s _ => by
        obtain ⟨p, hp⟩ := getPixel_of_written hw (Geometry.blockPixels_lt hxy).1 (Geometry.blockPixels_lt hxy).2
        exact ⟨(), by rw [checkPixel_cases pal g hp, if_neg (hall xy hxy p hp)], trivial⟩
    rw [hcell, hr]
  · right
    push Not at hall
    obtain ⟨xy, hxy, p, hp, hn⟩ := hall
    refine ⟨⟨xy, hxy, p, hp, hn⟩, ?_⟩
    rw [hcell]
    cases hf : (g.blockPixels rc.1 rc.2).foldlM (fun (_ : Unit) xy => checkPixel pal g pix e rc xy) () with
    | ok u =>
      have := foldlM_inv_prefix (f := fun (_ : Unit) xy => checkPixel pal g pix e rc xy)
        (fun pre _ => ∀ z ∈ pre, ∀ q, getPixel g pix z.1 z.2 = .ok q → classify pal (asgN0 e) (asgN1 e) q ≠ .neither)
        (g.blockPixels rc.1 rc.2) (by simp) (fun pre z post s t hl hs ht => by
          intro z' hz' q hq
          rcases List.mem_append.1 hz' with h | h
          · exact hs z' h q hq
          · simp only [List.mem_cons, List.not_mem_nil, or_false] at h
            subst h
            rw [checkPixel_cases pal g hq] at ht
            split at ht
            · cases ht
            · assumption) hf
      exact absurd hn (this xy hxy p hp)
    | error a =>
      obtain ⟨z, hz, -, -, ha⟩ := foldlM_error (f := fun (_ : Unit) xy => checkPixel pal g pix e rc xy) (fun _ => True)
        (g.blockPixels rc.1 rc.2) trivial (fun _ _ _ _ _ _ => trivial) hf
      rcases checkPixel_error (Geometry.blockPixels_lt hz).1 (Geometry.blockPixels_lt hz).2 ha with ⟨rfl, -⟩ | hu
      · rfl
      · exact (hu.absurd hw).elim

/-- The check pass passes when every cell's check does. -/
theorem checkCells_ok (h : ∀ rc ∈ g.blocks, checkCell pal g pix asg rc = .ok ()) : checkCells pal g pix asg = .ok () := by
  obtain ⟨r, hr, -⟩ := foldlM_ok (f := fun (_ : Unit) rc => checkCell pal g pix asg rc) (fun _ => True) g.blocks
    (init := ()) trivial fun rc hrc _ _ => ⟨(), h rc hrc, trivial⟩
  exact hr

/-- The check pass stops at the first cell whose check does not pass. -/
theorem checkCells_error {pre post : List (Nat × Nat)} {rc : Nat × Nat} {a : Abort} (hl : g.blocks = pre ++ rc :: post)
    (hpre : ∀ z ∈ pre, checkCell pal g pix asg z = .ok ()) (h : checkCell pal g pix asg rc = .error a) :
    checkCells pal g pix asg = .error a := by
  rw [checkCells, hl, List.foldlM_append]
  obtain ⟨r, hr, -⟩ := foldlM_ok (f := fun (_ : Unit) rc => checkCell pal g pix asg rc) (fun _ => True) pre
    (init := ()) trivial fun z hz _ _ => ⟨(), hpre z hz, trivial⟩
  rw [hr, ok_bind, List.foldlM_cons, h, error_bind]

/-! ## Bits and bytes -/

/-- The bit of the bitmap plane that stands for a screen pixel (R214, R215). -/
def bitAt (m : Memory Byte) (x y : Nat) : Bool := ((m.read (bitmapOffset x y)).getD 0).getLsbD (bitmapBit x)

theorem bitmapOffset_lt {x y : Nat} (hx : x < 320) (hy : y < 200) : bitmapOffset x y < 8000 := by
  simp only [bitmapOffset, Config.rowStride]; omega

/-- Different screen pixels have different bits. -/
theorem bitmap_place_inj {x y x' y' : Nat} (hx : x < 320) (hx' : x' < 320) (ho : bitmapOffset x y = bitmapOffset x' y')
    (hb : bitmapBit x = bitmapBit x') : (x, y) = (x', y') := by
  simp only [bitmapOffset, bitmapBit, Config.rowStride] at ho hb
  rw [Prod.mk.injEq]
  omega

theorem getLsbD_setBit (v : Byte) {b i : Nat} (hb : b < 8) (hi : i < 8) :
    (v ||| (1#8 <<< b)).getLsbD i = (v.getLsbD i || decide (i = b)) := by
  rw [BitVec.getLsbD_or]
  have h : ∀ b < 8, ∀ i < 8, (1#8 <<< b).getLsbD i = decide (i = b) := by decide
  rw [h b hb i hi]

theorem bitmapBit_lt (x : Nat) : bitmapBit x < 8 := by simp only [bitmapBit]; omega

theorem cramIndex_inj {row col row' col' : Nat} (hc : col < 40) (hc' : col' < 40)
    (h : cramIndex row col = cramIndex row' col') : row = row' ∧ col = col' := by
  simp only [cramIndex, Config.cellCols] at h; omega

theorem cramIndex_lt {row col : Nat} (hr : row < 25) (hc : col < 40) : cramIndex row col < 1000 := by
  simp only [cramIndex, Config.cellCols]; omega

/-! ## The write pass -/

/-- A plane that is written below its size, in canonical form and within it. -/
structure PlaneOk (size : Nat) (m : Memory Byte) : Prop where
  /-- all bytes are written -/
  written : m.writtenBelow size
  /-- the canonical form -/
  wf : m.wf
  /-- the capacity -/
  within : m.within size

theorem PlaneOk.fill (n : Nat) (v : Byte) : PlaneOk n (Memory.fill n v) :=
  ⟨Memory.writtenBelow_fill n v, Memory.wf_fill n v, Memory.within_fill n v⟩

theorem PlaneOk.write {n : Nat} {m : Memory Byte} (h : PlaneOk n m) {a : Nat} (ha : a < n) (v : Byte) :
    PlaneOk n (m.write a v) :=
  ⟨Memory.writtenBelow_write h.written a v, Memory.wf_write h.wf a v, Memory.within_write h.within ha v⟩

/-- Pixel `(x, y)` is in the foreground of its cell (R212). -/
def IsForeground (pal : Palette) (g : Geometry) (pix : Memory Byte) (asg : Memory AsgEntry) (x y : Nat) : Prop :=
  ∃ e p, asg.read (g.asgIndex (y / 8) (x / 8)) = some e ∧ getPixel g pix x y = .ok p ∧
    classify pal (asgN0 e) (asgN1 e) p = .foreground

/-- One pixel of the write pass: its bit is set exactly if it is in the foreground, and no other bit changes. -/
theorem encodePixel_spec {e : AsgEntry} {m : Memory Byte} {xy : Nat × Nat} {p : Rgb} (hm : PlaneOk 8000 m)
    (hp : getPixel g pix xy.1 xy.2 = .ok p) (hx : xy.1 < 320) (hy : xy.2 < 200) :
    ∃ m', encodePixel pal g pix e m xy = .ok m' ∧ PlaneOk 8000 m' ∧
      ∀ x < 320, ∀ y < 200, bitAt m' x y =
        (bitAt m x y || (decide (xy = (x, y)) && decide (classify pal (asgN0 e) (asgN1 e) p = .foreground))) := by
  have hoff := bitmapOffset_lt hx hy
  by_cases hf : classify pal (asgN0 e) (asgN1 e) p = .foreground
  · obtain ⟨v, hv⟩ := Option.isSome_iff_exists.1 (hm.written _ hoff)
    refine ⟨m.write (bitmapOffset xy.1 xy.2) (v ||| (1#8 <<< bitmapBit xy.1)), ?_, hm.write hoff _, ?_⟩
    · rw [encodePixel, hp, ok_bind, if_pos hf, readCell_of_read hv, ok_bind]
    · intro x hx' y hy'
      simp only [bitAt, Memory.read_write]
      split
      · next ho =>
        rw [Option.getD_some, getLsbD_setBit _ (bitmapBit_lt _) (bitmapBit_lt _), ← ho, hv]
        simp only [Option.getD_some, hf, decide_true, Bool.and_true]
        congr 1
        rw [decide_eq_decide]
        constructor
        · intro hb; exact bitmap_place_inj hx hx' ho hb.symm
        · rintro rfl; rfl
      · next ho =>
        have : xy ≠ (x, y) := by rintro rfl; exact ho rfl
        simp [this]
  · refine ⟨m, ?_, hm, fun x _ y _ => by simp [hf]⟩
    rw [encodePixel, hp, ok_bind, if_neg hf]

/-- One cell of the write pass. -/
theorem encodeCell_spec {planes : Memory Byte × Memory Byte} {rc : Nat × Nat} {e : AsgEntry}
    (hw : pix.writtenBelow g.ext) (hwid : g.width ≤ 320) (hhei : g.height ≤ 200) (hbw : g.bw = 8)
    (he : asg.read (g.asgIndex rc.1 rc.2) = some e) (hr : rc.1 < 25) (hc : rc.2 < 40)
    (h1 : PlaneOk 8000 planes.1) (h2 : PlaneOk 1000 planes.2) :
    ∃ planes', encodeCell pal g pix asg planes rc = .ok planes' ∧ PlaneOk 8000 planes'.1 ∧ PlaneOk 1000 planes'.2 ∧
      (∀ x < 320, ∀ y < 200, bitAt planes'.1 x y = true ↔
        bitAt planes.1 x y = true ∨ ((x, y) ∈ g.blockPixels rc.1 rc.2 ∧ IsForeground pal g pix asg x y)) ∧
      (∀ a, planes'.2.read a =
        if cramIndex rc.1 rc.2 = a then some (colourByte (asgN0 e) (asgN1 e)) else planes.2.read a) := by
  have H := foldlM_ok_prefix (f := encodePixel pal g pix e) (init := planes.1)
    (fun pre m => PlaneOk 8000 m ∧ ∀ x < 320, ∀ y < 200, bitAt m x y = true ↔
      bitAt planes.1 x y = true ∨ ((x, y) ∈ pre ∧ IsForeground pal g pix asg x y))
    (g.blockPixels rc.1 rc.2) ⟨h1, by simp⟩ ?_
  · obtain ⟨m, hm, hok, hbits⟩ := H
    refine ⟨(m, planes.2.write (cramIndex rc.1 rc.2) (colourByte (asgN0 e) (asgN1 e))), ?_, hok,
      h2.write (cramIndex_lt hr hc) _, hbits, fun a => Memory.read_write _ _ _ _⟩
    rw [encodeCell, cellEntry, readCell_of_read he, ok_bind, hm, ok_bind]
  · intro pre xy post m hl ⟨hok, hbits⟩
    have hxy : xy ∈ g.blockPixels rc.1 rc.2 := by simp [hl]
    have hlt := Geometry.blockPixels_lt hxy
    obtain ⟨p, hp⟩ := getPixel_of_written hw hlt.1 hlt.2
    obtain ⟨m', hm', hok', hb'⟩ := encodePixel_spec (pal := pal) (e := e) hok hp (by omega) (by omega)
    refine ⟨m', hm', hok', fun x hx y hy => ?_⟩
    rw [hb' x hx y hy, Bool.or_eq_true, hbits x hx y hy]
    simp only [Bool.and_eq_true, decide_eq_true_eq, List.mem_append, List.mem_cons, List.not_mem_nil, or_false]
    have hfg : xy = (x, y) → (classify pal (asgN0 e) (asgN1 e) p = .foreground ↔ IsForeground pal g pix asg x y) := by
      rintro rfl
      obtain ⟨hrow, hcol⟩ := Geometry.block_of_mem hxy
      simp only [hbw] at hrow hcol
      simp only at hp
      rw [hrow, hcol] at he
      simp only [IsForeground, he, hp, Option.some.injEq, Except.ok.injEq]
      exact ⟨fun h => ⟨e, p, rfl, rfl, h⟩, fun ⟨_, _, h1, h2, h3⟩ => by rw [h1, h2]; exact h3⟩
    constructor
    · rintro ((h | ⟨h, hf⟩) | ⟨h, hf⟩)
      · exact .inl h
      · exact .inr ⟨.inl h, hf⟩
      · exact .inr ⟨.inr h.symm, (hfg h).1 hf⟩
    · rintro (h | ⟨h | h, hf⟩)
      · exact .inl (.inl h)
      · exact .inl (.inr ⟨h, hf⟩)
      · exact .inr ⟨h.symm, (hfg h.symm).2 hf⟩

/-- What the two planes hold after the write pass (R214 to R218). -/
structure PlanesWritten (pal : Palette) (g : Geometry) (pix : Memory Byte) (asg : Memory AsgEntry)
    (planes : Memory Byte × Memory Byte) : Prop where
  /-- the bitmap plane is complete -/
  bitmap_ok : PlaneOk 8000 planes.1
  /-- the colour plane is complete -/
  cram_ok : PlaneOk 1000 planes.2
  /-- a bit is 1 exactly for a foreground pixel of the image -/
  bit : ∀ x < 320, ∀ y < 200, bitAt planes.1 x y = true ↔
    x < g.width ∧ y < g.height ∧ IsForeground pal g pix asg x y
  /-- a covered cell has its colour byte -/
  covered : ∀ row < g.nby, ∀ col < g.nbx, ∀ e, asg.read (g.asgIndex row col) = some e →
    planes.2.read (cramIndex row col) = some (colourByte (asgN0 e) (asgN1 e))
  /-- an uncovered cell has colour byte 0 -/
  uncovered : ∀ row < 25, ∀ col < 40, ¬ (row < g.nby ∧ col < g.nbx) → planes.2.read (cramIndex row col) = some 0

/-- The blocks of an image that fits the screen are cells of the screen. -/
theorem Geometry.block_on_screen {g : Geometry} (hwid : g.width ≤ 320) (hhei : g.height ≤ 200) (hbw : g.bw = 8)
    {row col : Nat} (hr : row < g.nby) (hc : col < g.nbx) : row < 25 ∧ col < 40 := by
  have h1 := (lt_ceilDiv (show 0 < Config.blockH by decide)).1 hr
  have h2 := (lt_ceilDiv (show 0 < g.bw by omega)).1 hc
  simp only [Config.blockH, hbw] at h1 h2
  omega

theorem bitAt_fill (x y : Nat) : bitAt (Memory.fill Config.bitmapBytes 0) x y = false := by
  simp only [bitAt, Memory.read_fill]
  split <;> simp

theorem planeOk_bitmap : PlaneOk 8000 (Memory.fill Config.bitmapBytes 0) := by
  simp only [Config.bitmapBytes]; exact PlaneOk.fill _ _

theorem planeOk_cram : PlaneOk 1000 (Memory.fill Config.cramBytes 0) := by
  simp only [Config.cramBytes]; exact PlaneOk.fill _ _

theorem read_fill_cram {a : Nat} (h : a < 1000) : (Memory.fill Config.cramBytes (0 : Byte)).read a = some 0 := by
  simp only [Memory.read_fill, Config.cramBytes, h, if_true]

/-- The write pass completes on a written image whose cells all have entries, whatever the classes of the pixels. -/
theorem encodePlanes_spec (hw : pix.writtenBelow g.ext) (hwid : g.width ≤ 320) (hhei : g.height ≤ 200) (hbw : g.bw = 8)
    (he : ∀ rc ∈ g.blocks, ∃ e, asg.read (g.asgIndex rc.1 rc.2) = some e) :
    ∃ planes, encodePlanes pal g pix asg = .ok planes ∧ PlanesWritten pal g pix asg planes := by
  have H := foldlM_ok_prefix (f := encodeCell pal g pix asg)
    (init := (Memory.fill Config.bitmapBytes 0, Memory.fill Config.cramBytes 0))
    (fun pre planes => PlaneOk 8000 planes.1 ∧ PlaneOk 1000 planes.2 ∧
      (∀ x < 320, ∀ y < 200, bitAt planes.1 x y = true ↔
        (∃ rc ∈ pre, (x, y) ∈ g.blockPixels rc.1 rc.2) ∧ IsForeground pal g pix asg x y) ∧
      (∀ row < 25, ∀ col < 40, (∀ e, (row, col) ∈ pre → asg.read (g.asgIndex row col) = some e →
          planes.2.read (cramIndex row col) = some (colourByte (asgN0 e) (asgN1 e))) ∧
        ((row, col) ∉ pre → planes.2.read (cramIndex row col) = some 0)))
    g.blocks ?_ ?_
  · obtain ⟨planes, hp, h1, h2, h3, h4⟩ := H
    refine ⟨planes, hp, h1, h2, fun x hx y hy => ?_, fun row hr col hc e hre => ?_, fun row hr col hc hn => ?_⟩
    · rw [h3 x hx y hy]
      constructor
      · rintro ⟨⟨rc, -, hmem⟩, hf⟩
        exact ⟨(Geometry.blockPixels_lt hmem).1, (Geometry.blockPixels_lt hmem).2, hf⟩
      · rintro ⟨hxw, hyh, hf⟩
        have hb := Geometry.block_lt (g := g) (by omega) hxw hyh
        exact ⟨⟨(y / 8, x / g.bw), Geometry.mem_blocks.2 hb, Geometry.mem_block (by omega) hxw hyh⟩, hf⟩
    · have hs := Geometry.block_on_screen hwid hhei hbw hr hc
      exact (h4 row hs.1 col hs.2).1 e (Geometry.mem_blocks.2 ⟨hr, hc⟩) hre
    · exact (h4 row hr col hc).2 fun hm => hn (Geometry.mem_blocks.1 hm)
  · dsimp only
    refine ⟨planeOk_bitmap, planeOk_cram, fun x _ y _ => ?_, fun row hr col hc => ⟨by simp, fun _ => ?_⟩⟩
    · exact iff_of_false (Bool.eq_false_iff.1 (bitAt_fill x y)) fun ⟨⟨_, h, _⟩, _⟩ => by cases h
    · exact read_fill_cram (cramIndex_lt hr hc)
  · intro pre rc post planes hl ⟨h1, h2, h3, h4⟩
    have hrc : rc ∈ g.blocks := by simp [hl]
    have hlt := Geometry.mem_blocks.1 hrc
    have hs := Geometry.block_on_screen hwid hhei hbw hlt.1 hlt.2
    have hnd := g.nodup_blocks
    rw [hl, List.nodup_append, List.nodup_cons] at hnd
    obtain ⟨e, hre⟩ := he rc hrc
    obtain ⟨planes', hp, h1', h2', h3', h4'⟩ := encodeCell_spec (pal := pal) hw hwid hhei hbw hre hs.1 hs.2 h1 h2
    refine ⟨planes', hp, h1', h2', fun x hx y hy => ?_, fun row hr col hc => ?_⟩
    · rw [h3' x hx y hy, h3 x hx y hy]
      constructor
      · rintro (⟨⟨z, hz, hm⟩, hf⟩ | ⟨hm, hf⟩)
        · exact ⟨⟨z, List.mem_append_left _ hz, hm⟩, hf⟩
        · exact ⟨⟨rc, by simp, hm⟩, hf⟩
      · rintro ⟨⟨z, hz, hm⟩, hf⟩
        rcases List.mem_append.1 hz with hz | hz
        · exact .inl ⟨⟨z, hz, hm⟩, hf⟩
        · simp only [List.mem_cons, List.not_mem_nil, or_false] at hz
          subst hz
          exact .inr ⟨hm, hf⟩
    · rw [h4']
      split
      · next hidx =>
        obtain ⟨hrow, hcol⟩ := cramIndex_inj hs.2 hc hidx
        subst hrow; subst hcol
        refine ⟨fun e' _ he' => ?_, fun hn => absurd (by simp) hn⟩
        rw [hre] at he'
        cases he'
        rfl
      · next hidx =>
        have hne : (row, col) ≠ rc := by rintro rfl; exact hidx rfl
        refine ⟨fun e' hm he' => (h4 row hr col hc).1 e' ?_ he', fun hn => (h4 row hr col hc).2 fun hm => ?_⟩
        · simpa [hne] using hm
        · exact hn (by simp [hm])

end Sys2Proof.Machine
end

