-- ==== Sys2Proof/Laws/Select.lean ====
section
/-! SUPPORT. The selection of a block's colours: the ranking by count, the fallback and the fillers
(spec/42_reduce_hires.md R163, R164, spec/43_reduce_multicolor.md R192 to R194). -/

namespace Sys2Proof.Machine

variable {cnt : Idx → Nat}

/-! ## The two most frequent colours -/

/-- On an ascending list: the least index among those of the greatest count. -/
theorem argmaxCount_spec (cnt : Idx → Nat) (i : Idx) (js : List Idx) (h : (i :: js).Pairwise (· < ·)) :
    argmaxCount cnt i js ∈ i :: js ∧
      ∀ k ∈ i :: js, cnt k ≤ cnt (argmaxCount cnt i js) ∧
        (k < argmaxCount cnt i js → cnt k < cnt (argmaxCount cnt i js)) := by
  induction js generalizing i with
  | nil => simp [argmaxCount]
  | cons j js ih =>
    simp only [List.pairwise_cons, List.mem_cons, forall_eq_or_imp] at h
    obtain ⟨⟨hij, hi⟩, hj, hjs⟩ := h
    rw [argmaxCount]
    split
    · next hlt =>
      obtain ⟨hm, hs⟩ := ih j (List.pairwise_cons.2 ⟨hj, hjs⟩)
      refine ⟨List.mem_cons_of_mem _ hm, fun k hk => ?_⟩
      rcases List.mem_cons.1 hk with rfl | hk
      · have := (hs j (List.mem_cons_self ..)).1
        exact ⟨by omega, fun _ => by omega⟩
      · exact hs k hk
    · next hge =>
      obtain ⟨hm, hs⟩ := ih i (List.pairwise_cons.2 ⟨hi, hjs⟩)
      have hi' := (hs i (List.mem_cons_self ..)).1
      refine ⟨?_, fun k hk => ?_⟩
      · rcases List.mem_cons.1 hm with h | h
        · rw [h]; exact List.mem_cons_self ..
        · exact List.mem_cons_of_mem _ (List.mem_cons_of_mem _ h)
      · rcases List.mem_cons.1 hk with rfl | hk
        · exact hs k (List.mem_cons_self ..)
        · rcases List.mem_cons.1 hk with rfl | hk
          · refine ⟨by omega, fun hlt => ?_⟩
            rcases List.mem_cons.1 hm with he | he
            · rw [he] at hlt; exact absurd hij (by bv_omega)
            · rcases Nat.lt_or_ge (cnt k) (cnt (argmaxCount cnt i js)) with h | h
              · exact h
              · have := (hs i (List.mem_cons_self ..)).2 (by bv_omega)
                omega
          · exact hs k (List.mem_cons_of_mem _ hk)

theorem allIdx_sorted : allIdx.Pairwise (· < ·) := by decide

theorem allIdx_cons : allIdx = 0 :: allIdx.tail := rfl

/-- `first` has the greatest count, and every lower index a smaller one (R163). -/
theorem selectHires_first (cnt : Idx → Nat) (k : Idx) :
    cnt k ≤ cnt (selectHires cnt).1 ∧ (k < (selectHires cnt).1 → cnt k < cnt (selectHires cnt).1) := by
  have h : (selectHires cnt).1 = argmaxCount cnt 0 allIdx.tail := by
    simp only [selectHires]; split <;> rfl
  rw [h]
  exact (argmaxCount_spec cnt 0 allIdx.tail allIdx_sorted).2 k (mem_allIdx k)

theorem fallback_ne (i : Idx) : fallback i ≠ i := by revert i; decide

/-- `second` is the fallback when no other colour is observed, and else the least of the most frequent others (R163, R164). -/
theorem selectHires_second (cnt : Idx → Nat) :
    ((∀ k, k ≠ (selectHires cnt).1 → cnt k = 0) ∧ (selectHires cnt).2 = fallback (selectHires cnt).1) ∨
      ((selectHires cnt).2 ≠ (selectHires cnt).1 ∧ 1 ≤ cnt (selectHires cnt).2 ∧
        ∀ k, k ≠ (selectHires cnt).1 → cnt k ≤ cnt (selectHires cnt).2 ∧
          (k < (selectHires cnt).2 → cnt k < cnt (selectHires cnt).2)) := by
  have hmem : ∀ f k : Idx, k ∈ allIdx.filter (fun i => i != f && decide (1 ≤ cnt i)) ↔ k ≠ f ∧ 1 ≤ cnt k := by
    intro f k; simp [mem_allIdx]
  simp only [selectHires]
  split
  · next hf =>
    left
    refine ⟨fun k hk => ?_, rfl⟩
    by_contra hc
    have := (hmem _ k).2 ⟨hk, by omega⟩
    rw [hf] at this
    cases this
  · next i is hf =>
    right
    have hs : (i :: is).Pairwise (· < ·) := hf ▸ allIdx_sorted.filter _
    obtain ⟨hm, hspec⟩ := argmaxCount_spec cnt i is hs
    rw [← hf] at hm
    have hm2 := (hmem _ _).1 hm
    refine ⟨hm2.1, hm2.2, fun k hk => ?_⟩
    by_cases hk1 : 1 ≤ cnt k
    · exact hspec k (hf ▸ (hmem _ k).2 ⟨hk, hk1⟩)
    · have := hm2.2
      exact ⟨by omega, fun _ => by dsimp only; omega⟩

theorem selectHires_ne (cnt : Idx → Nat) : (selectHires cnt).1 ≠ (selectHires cnt).2 := by
  rcases selectHires_second cnt with ⟨-, h⟩ | ⟨h, -⟩
  · rw [h]; exact (fallback_ne _).symm
  · exact h.symm

/-- Where at most two colours are observed, the pair holds them (R174). -/
theorem selectHires_observed {a b : Idx} (h : ∀ i, 1 ≤ cnt i → i = a ∨ i = b) {i : Idx} (hi : 1 ≤ cnt i) :
    i ∈ [(selectHires cnt).1, (selectHires cnt).2] := by
  by_cases h1 : i = (selectHires cnt).1
  · simp [h1]
  · rcases selectHires_second cnt with ⟨hz, -⟩ | ⟨hne, h2, -⟩
    · have := hz i h1; omega
    · have hf : 1 ≤ cnt (selectHires cnt).1 := by have := (selectHires_first cnt i).1; omega
      have : i = (selectHires cnt).2 := by
        rcases h _ hf with e1 | e1 <;> rcases h _ h2 with e2 | e2 <;> rcases h _ hi with e3 | e3 <;> simp_all
      simp [this]

/-! ## The ranking of multicolour mode -/

theorem rankedBefore_iff {i j : Idx} : rankedBefore cnt i j = true ↔ cnt j < cnt i ∨ (cnt i = cnt j ∧ i < j) := by
  simp [rankedBefore]

theorem rankedBefore_trans {i j k : Idx} (h : rankedBefore cnt i j = true) (h' : rankedBefore cnt j k = true) :
    rankedBefore cnt i k = true := by
  rw [rankedBefore_iff] at *
  rcases h with h | ⟨h, hl⟩ <;> rcases h' with h' | ⟨h', hl'⟩
  · left; omega
  · left; omega
  · left; omega
  · right; exact ⟨by omega, by bv_omega⟩

theorem rankedBefore_total {i j : Idx} (hne : i ≠ j) (h : ¬ rankedBefore cnt i j = true) : rankedBefore cnt j i = true := by
  rw [rankedBefore_iff] at *
  rcases Nat.lt_trichotomy (cnt i) (cnt j) with hc | hc | hc
  · exact .inl hc
  · right
    refine ⟨hc.symm, ?_⟩
    by_contra hl
    exact h (.inr ⟨hc, by bv_omega⟩)
  · exact absurd (.inl hc) h

theorem rankInsert_perm (i : Idx) (js : List Idx) : (rankInsert cnt i js).Perm (i :: js) := by
  induction js with
  | nil => rfl
  | cons j js ih =>
    rw [rankInsert]
    split
    · rfl
    · exact (ih.cons j).trans (List.Perm.swap i j js)

theorem rankInsert_sorted {i : Idx} {js : List Idx} (hi : i ∉ js) (h : js.Pairwise fun a b => rankedBefore cnt a b = true) :
    (rankInsert cnt i js).Pairwise fun a b => rankedBefore cnt a b = true := by
  induction js with
  | nil => simp [rankInsert]
  | cons j js ih =>
    simp only [List.mem_cons, not_or] at hi
    obtain ⟨hj, hjs⟩ := List.pairwise_cons.1 h
    rw [rankInsert]
    split
    · next hb =>
      refine List.pairwise_cons.2 ⟨fun k hk => ?_, h⟩
      rcases List.mem_cons.1 hk with rfl | hk
      · exact hb
      · exact rankedBefore_trans hb (hj k hk)
    · next hb =>
      refine List.pairwise_cons.2 ⟨fun k hk => ?_, ih hi.2 hjs⟩
      rcases List.mem_cons.1 ((rankInsert_perm i js).mem_iff.1 hk) with rfl | hk
      · exact rankedBefore_total hi.1 hb
      · exact hj k hk

/-- Ranking a list of different indices rearranges it and sorts it. -/
theorem rankSort_spec {l : List Idx} (h : l.Nodup) :
    (l.foldr (rankInsert cnt) []).Perm l ∧
      (l.foldr (rankInsert cnt) []).Pairwise fun a b => rankedBefore cnt a b = true := by
  induction l with
  | nil => exact ⟨.refl _, .nil⟩
  | cons i l ih =>
    obtain ⟨hi, hl⟩ := List.nodup_cons.1 h
    obtain ⟨hp, hs⟩ := ih hl
    exact ⟨(rankInsert_perm i _).trans (hp.cons i), rankInsert_sorted (fun hm => hi (hp.mem_iff.1 hm)) hs⟩

theorem mem_candidates {bg i : Idx} : i ∈ candidates cnt bg ↔ i ≠ bg ∧ 1 ≤ cnt i := by simp [candidates, mem_allIdx]

theorem candidates_nodup (cnt : Idx → Nat) (bg : Idx) : (candidates cnt bg).Nodup := allIdx_nodup.filter _

theorem selectLocals_length (cnt : Idx → Nat) (bg : Idx) :
    (selectLocals cnt bg).length = min 3 (candidates cnt bg).length := by
  rw [selectLocals, List.length_take, (rankSort_spec (candidates_nodup cnt bg)).1.length_eq]

theorem selectLocals_nodup (cnt : Idx → Nat) (bg : Idx) : (selectLocals cnt bg).Nodup :=
  ((rankSort_spec (candidates_nodup cnt bg)).1.nodup_iff.2 (candidates_nodup cnt bg)).sublist (List.take_sublist ..)

theorem mem_selectLocals {bg i : Idx} (h : i ∈ selectLocals cnt bg) : i ∈ candidates cnt bg :=
  (rankSort_spec (candidates_nodup cnt bg)).1.mem_iff.1 (List.mem_of_mem_take h)

/-! ## The fillers -/

/-- Where the search of R194 ends in an occupied index, every index it looked at is occupied. -/
theorem nextFree_mem {used : List Idx} {n : Nat} {c : Idx} (h : nextFree used n c ∈ used) :
    ∀ k ≤ n, c + BitVec.ofNat 4 k ∈ used := by
  induction n generalizing c with
  | zero => intro k hk; obtain rfl : k = 0 := by omega
            simpa [nextFree] using h
  | succ n ih =>
    rw [nextFree] at h
    split at h
    · next hc =>
      intro k hk
      rcases k with _ | k
      · simpa using hc
      · have := ih h k (by omega)
        rwa [show c + BitVec.ofNat 4 (k + 1) = c + 1 + BitVec.ofNat 4 k from by bv_omega]
    · next hc => exact absurd h hc

/-- The search finds a free index as long as fewer than sixteen are occupied. -/
theorem nextFree_free {used : List Idx} (h : used.length < 16) (c : Idx) : nextFree used 16 c ∉ used := by
  intro hm
  have hall : allIdx ⊆ used := fun i _ => by
    have := nextFree_mem hm (i - c).toNat (by have := (i - c).isLt; omega)
    rwa [show c + BitVec.ofNat 4 (i - c).toNat = i from by
      rw [BitVec.ofNat_toNat, BitVec.setWidth_eq, BitVec.add_comm, BitVec.sub_add_cancel]] at this
  have := (allIdx_nodup.subperm hall).length_le
  simp only [show allIdx.length = 16 from rfl] at this
  omega

/-- Every index the search of R194 passes over is occupied. -/
theorem nextFree_skips {used : List Idx} {n : Nat} {c : Idx} {d : Nat} (hd : d < (nextFree used n c - c).toNat) :
    c + BitVec.ofNat 4 d ∈ used := by
  induction n generalizing c d with
  | zero => simp [nextFree] at hd
  | succ n ih =>
    rw [nextFree] at hd
    split at hd
    · next hc =>
      rcases d with _ | d
      · simpa using hc
      · have := ih (c := c + 1) (d := d) (by bv_omega)
        rwa [show c + BitVec.ofNat 4 (d + 1) = c + 1 + BitVec.ofNat 4 d from by bv_omega]
    · simp at hd

/-- Every index between the last slot and its filler is occupied (R194). -/
theorem addFiller_skips {slots : List Idx} (hne : slots ≠ []) {d : Nat} (h0 : 0 < d)
    (hd : d < ((addFiller slots).getD slots.length 0 - (addFiller slots).getD (slots.length - 1) 0).toNat) :
    (addFiller slots).getD (slots.length - 1) 0 + BitVec.ofNat 4 d ∈ slots := by
  have hl : 0 < slots.length := List.length_pos_iff.2 hne
  have e1 : (addFiller slots).getD slots.length 0 = nextFree slots 16 (slots.getLastD 0 + 1) := by simp [addFiller]
  have e2 : (addFiller slots).getD (slots.length - 1) 0 = slots.getLastD 0 := by
    rw [addFiller, List.getD_append _ _ _ _ (by omega), List.getLastD_eq_getLast?, List.getLast?_eq_getElem?,
      List.getD_eq_getElem?_getD]
  rw [e1, e2] at hd
  rw [e2]
  have := nextFree_skips (used := slots) (n := 16) (c := slots.getLastD 0 + 1) (d := d - 1) (by
    generalize nextFree slots 16 (slots.getLastD 0 + 1) = z at hd ⊢
    generalize slots.getLastD 0 = w at hd ⊢
    clear e1 e2
    bv_omega)
  rwa [show slots.getLastD 0 + 1 + BitVec.ofNat 4 (d - 1) = slots.getLastD 0 + BitVec.ofNat 4 d from by bv_omega] at this

theorem addFiller_nodup {slots : List Idx} (h : slots.Nodup) (hl : slots.length < 16) : (addFiller slots).Nodup := by
  rw [addFiller, List.nodup_append]
  refine ⟨h, by simp, ?_⟩
  intro a ha b hb
  simp only [List.mem_cons, List.not_mem_nil, or_false] at hb
  subst hb
  exact fun he => nextFree_free hl _ (he ▸ ha)

/-- Filling keeps the slots it starts from, and ends with four different ones (R194). -/
theorem fillSlots_spec {slots : List Idx} {n : Nat} (h : slots.Nodup) (hl : slots.length ≤ 4) (hn : 4 ≤ slots.length + n) :
    slots <+: fillSlots n slots ∧ (fillSlots n slots).Nodup ∧ (fillSlots n slots).length = 4 := by
  induction n generalizing slots with
  | zero => exact ⟨List.prefix_refl _, h, by rw [fillSlots]; omega⟩
  | succ n ih =>
    rw [fillSlots]
    split
    · next hlt =>
      have hlen : (addFiller slots).length = slots.length + 1 := by simp [addFiller]
      obtain ⟨hp, hd, hl⟩ := ih (addFiller_nodup h (by omega)) (by omega) (by omega)
      exact ⟨(List.prefix_append _ _).trans hp, hd, hl⟩
    · next hge => exact ⟨List.prefix_refl _, h, by omega⟩

/-- The background and the three locals: four different slots, the selected locals first among the three. -/
theorem localSlots_spec (cnt : Idx → Nat) (bg : Idx) :
    (bg :: localSlots cnt bg).Nodup ∧ (localSlots cnt bg).length = 3 ∧ selectLocals cnt bg <+: localSlots cnt bg := by
  have hnd : (bg :: selectLocals cnt bg).Nodup :=
    List.nodup_cons.2 ⟨fun hm => (mem_candidates.1 (mem_selectLocals hm)).1 rfl, selectLocals_nodup cnt bg⟩
  have hlen : (bg :: selectLocals cnt bg).length ≤ 4 := by
    have := selectLocals_length cnt bg; simp only [List.length_cons]; omega
  obtain ⟨hp, hd, hl⟩ := fillSlots_spec (n := 4) hnd hlen (by omega)
  obtain ⟨rest, hr⟩ := hp
  have he : fillSlots 4 (bg :: selectLocals cnt bg) = bg :: localSlots cnt bg := by
    rw [localSlots, ← hr]; rfl
  rw [he] at hd hl
  refine ⟨hd, by simpa using hl, rest, ?_⟩
  rw [localSlots, ← hr]
  rfl

/-- Where at most three colours beside the background are observed, the four slots hold them (R198). -/
theorem localSlots_observed {bg a b c : Idx} (h : ∀ i, 1 ≤ cnt i → i = bg ∨ i = a ∨ i = b ∨ i = c) {i : Idx}
    (hi : 1 ≤ cnt i) : i ∈ bg :: localSlots cnt bg := by
  by_cases h1 : i = bg
  · simp [h1]
  · have hsub : candidates cnt bg ⊆ [a, b, c] := fun j hj => by
      obtain ⟨h2, h3⟩ := mem_candidates.1 hj
      simpa [h2] using h j h3
    have hlen : (candidates cnt bg).length ≤ 3 := by simpa using ((candidates_nodup cnt bg).subperm hsub).length_le
    have hp := (rankSort_spec (cnt := cnt) (candidates_nodup cnt bg)).1
    refine List.mem_cons_of_mem _ ((localSlots_spec cnt bg).2.2.subset ?_)
    rw [selectLocals, List.take_of_length_le (by rw [hp.length_eq]; exact hlen)]
    exact hp.mem_iff.2 (mem_candidates.2 ⟨h1, hi⟩)

/-- The three locals as a list of three. -/
theorem localSlots_eq (cnt : Idx → Nat) (bg : Idx) : ∃ a b c, localSlots cnt bg = [a, b, c] := by
  have h := (localSlots_spec cnt bg).2.1
  match hl : localSlots cnt bg, h with
  | [a, b, c], _ => exact ⟨a, b, c, rfl⟩

@[simp] theorem asgN0_mcEntry (a b c : Idx) : asgN0 (mcEntry [a, b, c]) = a := by
  simp only [asgN0, mcEntry, List.getD_cons_zero, List.getD_cons_succ]; revert a b c; decide

@[simp] theorem asgN1_mcEntry (a b c : Idx) : asgN1 (mcEntry [a, b, c]) = b := by
  simp only [asgN1, mcEntry, List.getD_cons_zero, List.getD_cons_succ]; revert a b c; decide

@[simp] theorem asgN2_mcEntry (a b c : Idx) : asgN2 (mcEntry [a, b, c]) = c := by
  simp only [asgN2, mcEntry, List.getD_cons_zero, List.getD_cons_succ]; revert a b c; decide

/-! ## The pair of the strict variant -/

/-- The scan of a non-empty block fails exactly when three different colours occur, and else gives its pair (R169). -/
theorem scanIndices_spec (is seen : List Idx) (hd : seen.Nodup) (hl : seen.length ≤ 2) (r : List Idx)
    (h : scanIndices is seen = some r) :
    seen <+: r ∧ r.Nodup ∧ r.length ≤ 2 ∧ ∀ i, i ∈ r ↔ i ∈ seen ∨ i ∈ is := by
  induction is generalizing seen with
  | nil => cases h; exact ⟨List.prefix_refl _, hd, hl, by simp⟩
  | cons i is ih =>
    rw [scanIndices] at h
    split at h
    · next hi =>
      obtain ⟨h1, h2, h3, h4⟩ := ih seen hd hl h
      refine ⟨h1, h2, h3, fun j => ?_⟩
      rw [h4, List.mem_cons]
      constructor
      · rintro (h | h) <;> simp [h]
      · rintro (h | rfl | h) <;> simp_all
    · next hi =>
      split at h
      · cases h
      · next hne =>
        obtain ⟨h1, h2, h3, h4⟩ := ih (seen ++ [i]) (by
          rw [List.nodup_append]
          exact ⟨hd, by simp, fun a ha b hb => by
            simp only [List.mem_cons, List.not_mem_nil, or_false] at hb; subst hb; exact fun he => hi (he ▸ ha)⟩)
          (by simp only [List.length_append, List.length_cons, List.length_nil]; omega) h
        refine ⟨(List.prefix_append _ _).trans h1, h2, h3, fun j => ?_⟩
        rw [h4]
        simp [or_assoc]

/-- Where the scan fails, three different colours occur among those seen and those to come. -/
theorem scanIndices_none (is seen : List Idx) (hd : seen.Nodup) (hl : seen.length ≤ 2) (h : scanIndices is seen = none) :
    ∃ i j k, i ≠ j ∧ i ≠ k ∧ j ≠ k ∧ ∀ x, x = i ∨ x = j ∨ x = k → x ∈ seen ∨ x ∈ is := by
  induction is generalizing seen with
  | nil => cases h
  | cons i is ih =>
    rw [scanIndices] at h
    split at h
    · next hi =>
      obtain ⟨a, b, c, h1, h2, h3, h4⟩ := ih seen hd hl h
      exact ⟨a, b, c, h1, h2, h3, fun x hx => (h4 x hx).imp_right (List.mem_cons_of_mem _)⟩
    · next hi =>
      split at h
      · next h2 =>
        match seen, h2, hd, hi with
        | [a, b], _, hd, hi =>
          simp only [List.nodup_cons, List.mem_cons, List.not_mem_nil, or_false, not_or] at hd hi
          refine ⟨a, b, i, hd.1, fun he => hi.1 he.symm, fun he => hi.2 he.symm, fun x hx => ?_⟩
          rcases hx with rfl | rfl | rfl <;> simp
      · next hne =>
        obtain ⟨a, b, c, h1, h2, h3, h4⟩ := ih (seen ++ [i]) (by
          rw [List.nodup_append]
          exact ⟨hd, by simp, fun a ha b hb => by
            simp only [List.mem_cons, List.not_mem_nil, or_false] at hb; subst hb; exact fun he => hi (he ▸ ha)⟩)
          (by simp only [List.length_append, List.length_cons, List.length_nil]; omega) h
        refine ⟨a, b, c, h1, h2, h3, fun x hx => ?_⟩
        rcases h4 x hx with h | h
        · rcases List.mem_append.1 h with h | h
          · exact .inl h
          · simp_all
        · exact .inr (List.mem_cons_of_mem _ h)

end Sys2Proof.Machine
end

