-- ==== Sys2Proof/Laws/Commands.lean ====
section
/-! SUPPORT. What the three processing commands answer, for any palette: when they complete and with what frame, and the ways
they end early. The statements' proofs cite these instead of unfolding the loops. -/

namespace Sys2Proof.Machine

variable {pal : Palette} {share : Int → Int → Int} {s t : State} {e : Abort}

theorem State.geom_bw_pos (s : State) : 0 < s.geom.bw := blockWidth_pos s.mc

/-! ## `DITHER` -/

theorem ditherWith_ok (h : ditherWith pal share s = .ok t) :
    ∃ pix, ditherImage pal share s.geom s.pix = .ok pix ∧ t = s.setPix pix ∧ PixKept s.geom s.pix pix := by
  simp only [ditherWith, bind_eq_ok] at h
  obtain ⟨pix, hp, h⟩ := h
  cases h
  exact ⟨pix, hp, rfl, ditherImage_kept hp⟩

theorem ditherWith_error (h : ditherWith pal share s = .error e) : UnwrittenByte s.geom s.pix e := by
  simp only [ditherWith, bind_eq_error] at h
  rcases h with h | ⟨_, -, h⟩
  · exact ditherImage_unwritten h
  · cases h

theorem ditherWith_completes (hw : PixWritten s) : ∃ t, ditherWith pal share s = .ok t :=
  ok_of_written hw fun _ => ditherWith_error

/-! ## `REDUCE`: one loop for each of the three reducers -/

/-- A loop of block writes, whatever it starts from: what it keeps, and the entries it leaves. -/
theorem foldlM_writeBlocks {g : Geometry} {f : ReduceMem → Nat × Nat → Except Abort ReduceMem} {Good : AsgEntry → Prop}
    {m r : ReduceMem}
    (hf : ∀ rc ∈ g.blocks, ∀ s s', f s rc = .ok s' → ∃ plan, writeBlock pal g plan s rc = .ok s' ∧ Good plan.2.2)
    (h : g.blocks.foldlM f m = .ok r) :
    ReduceKept g m r ∧ ∀ rc ∈ g.blocks, ∃ e, r.2.read (g.asgIndex rc.1 rc.2) = some e ∧ Good e := by
  refine foldlM_inv_prefix
    (fun pre s => ReduceKept g m s ∧ ∀ rc ∈ pre, ∃ e, s.2.read (g.asgIndex rc.1 rc.2) = some e ∧ Good e)
    g.blocks ⟨.refl g m, by simp⟩ ?_ h
  rintro pre rc post s s' hl ⟨hk, he⟩ hs
  obtain ⟨plan, hp, hg⟩ := hf rc (by simp [hl]) s s' hs
  refine ⟨writeBlock_kept (by simp [hl]) hk hp, fun z hz => ?_⟩
  simp only [writeBlock, bind_eq_ok] at hp
  obtain ⟨pix, -, hp⟩ := hp
  cases hp
  simp only [Memory.read_write]
  split
  · exact ⟨_, rfl, hg⟩
  · next hne =>
    rcases List.mem_append.1 hz with hz | hz
    · exact he z hz
    · simp only [List.mem_cons, List.not_mem_nil, or_false] at hz
      exact absurd (by rw [hz]) hne

theorem entryOk_hires {bg f k : Idx} (h : f ≠ k) : EntryOk false bg (hiresEntry f k) := by
  simp only [EntryOk, Bool.false_eq_true, if_false, asgN2_hiresEntry, asgN0_hiresEntry, asgN1_hiresEntry, true_and]
  exact h

theorem entryOk_multicolor (cnt : Idx → Nat) (bg : Idx) : EntryOk true bg (mcEntry (localSlots cnt bg)) := by
  obtain ⟨a, b, c, h⟩ := localSlots_eq cnt bg
  have hd := (localSlots_spec cnt bg).1
  rw [h] at hd ⊢
  simpa only [EntryOk, if_true, asgN0_mcEntry, asgN1_mcEntry, asgN2_mcEntry] using hd

/-- The pair of a completed scan is a pair of different colours. -/
theorem scanPixels_pair_ne {g : Geometry} {m : Memory Byte} {row col : Nat} {l : List (Nat × Nat)} {seen r : List Idx}
    (hd : seen.Nodup) (h : scanPixels pal g m row col l seen = .ok r) : r.Nodup := by
  induction l generalizing seen with
  | nil => cases h; exact hd
  | cons xy l ih =>
    simp only [scanPixels, bind_eq_ok] at h
    obtain ⟨p, -, h⟩ := h
    split at h
    · exact ih hd h
    · next hi =>
      split at h
      · cases h
      · refine ih ?_ h
        rw [List.nodup_append]
        refine ⟨hd, by simp, fun a ha b hb => ?_⟩
        simp only [List.mem_cons, List.not_mem_nil, or_false] at hb
        subst hb
        exact fun he => hi (he ▸ ha)

theorem seenPair_ne {seen : List Idx} (h : seen.Nodup) : (seenPair seen).1 ≠ (seenPair seen).2 := by
  simp only [seenPair]
  split
  · next hl =>
    match seen, hl with
    | [a, b], _ => simpa using h
  · exact (fallback_ne _).symm

theorem scanBlocks_pair_ne {g : Geometry} {m : Memory Byte} {l : List (Nat × Nat)}
    {plan : List ((Nat × Nat) × (Idx × Idx))} (h : scanBlocks pal g m l = .ok plan) :
    ∀ z ∈ plan, z.2.1 ≠ z.2.2 := by
  induction l generalizing plan with
  | nil => cases h; simp
  | cons rc l ih =>
    simp only [scanBlocks, scanBlock, bind_eq_ok] at h
    obtain ⟨fs, ⟨seen, hs, hfs⟩, rest, hrest, h⟩ := h
    cases h
    cases hfs
    intro z hz
    rcases List.mem_cons.1 hz with rfl | hz
    · exact seenPair_ne (scanPixels_pair_ne .nil hs)
    · exact ih hrest z hz

/-- The write pass of the strict variant, whatever it starts from. -/
theorem foldlM_plan {g : Geometry} {plan : List ((Nat × Nat) × (Idx × Idx))} {m r : ReduceMem}
    (hfst : plan.map Prod.fst = g.blocks) (hne : ∀ z ∈ plan, z.2.1 ≠ z.2.2)
    (h : plan.foldlM (fun m z => writeHiresBlock pal g z.2 m z.1) m = .ok r) :
    ReduceKept g m r ∧ ∀ rc ∈ g.blocks, ∃ e, r.2.read (g.asgIndex rc.1 rc.2) = some e ∧ EntryOk false 0 e := by
  have H := foldlM_inv_prefix
    (fun (pre : List ((Nat × Nat) × (Idx × Idx))) (s : ReduceMem) => ReduceKept g m s ∧
      ∀ z ∈ pre, ∃ e, s.2.read (g.asgIndex z.1.1 z.1.2) = some e ∧ EntryOk false 0 e)
    plan ⟨ReduceKept.refl g m, by simp⟩ ?_ h
  · refine ⟨H.1, fun rc hrc => ?_⟩
    rw [← hfst, List.mem_map] at hrc
    obtain ⟨z, hz, rfl⟩ := hrc
    exact H.2 z hz
  · rintro pre z post s s' hl ⟨hk, he⟩ hs
    have hz : z.1 ∈ g.blocks := hfst ▸ List.mem_map_of_mem (by simp [hl])
    rw [writeHiresBlock_eq] at hs
    refine ⟨writeBlock_kept hz hk hs, fun y hy => ?_⟩
    simp only [writeBlock, bind_eq_ok] at hs
    obtain ⟨pix, -, hs⟩ := hs
    cases hs
    simp only [Memory.read_write]
    split
    · exact ⟨_, rfl, entryOk_hires (hne z (by simp [hl]))⟩
    · next hi =>
      rcases List.mem_append.1 hy with hy | hy
      · exact he y hy
      · simp only [List.mem_cons, List.not_mem_nil, or_false] at hy
        exact absurd (by rw [hy]) hi

/-! ## `REDUCE`: the command -/

/-- A completed `REDUCE`, in any mode: what it writes and what it keeps. -/
theorem reduceWith_ok (h : reduceWith pal s = .ok t) :
    ∃ m : ReduceMem, t = ((s.setPix m.1).setAsg m.2).setAsgv true ∧ ReduceKept s.geom (s.pix, s.asg) m ∧
      ∀ n < s.geom.nblk, ∃ e, m.2.read n = some e ∧ EntryOk s.mc s.bgidx e := by
  have key : ∀ m : ReduceMem, (ReduceKept s.geom (s.pix, s.asg) m ∧ ∀ rc ∈ s.geom.blocks,
      ∃ e, m.2.read (s.geom.asgIndex rc.1 rc.2) = some e ∧ EntryOk s.mc s.bgidx e) →
      ReduceKept s.geom (s.pix, s.asg) m ∧ ∀ n < s.geom.nblk, ∃ e, m.2.read n = some e ∧ EntryOk s.mc s.bgidx e := by
    rintro m ⟨hk, he⟩
    refine ⟨hk, fun n hn => ?_⟩
    obtain ⟨row, col, hr, hc, rfl⟩ := Geometry.exists_block hn
    exact he (row, col) (Geometry.mem_blocks.2 ⟨hr, hc⟩)
  simp only [reduceWith, bind_eq_ok] at h
  obtain ⟨m, hm, h⟩ := h
  cases h
  refine ⟨m, rfl, key m ?_⟩
  simp only [reduceMem] at hm
  split at hm
  · next hmc =>
    split at hm
    · cases hm
    · rw [hmc]
      refine foldlM_writeBlocks (pal := pal) (fun rc _ s' s'' hs => ?_) hm
      rw [multicolorBlock_eq, bind_eq_ok] at hs
      obtain ⟨is, -, hs⟩ := hs
      exact ⟨_, hs, entryOk_multicolor _ _⟩
  · next hmc =>
    rw [Bool.not_eq_true] at hmc
    rw [hmc]
    split at hm
    · simp only [reduceStrict, bind_eq_ok] at hm
      obtain ⟨plan, hp, hm⟩ := hm
      have := foldlM_plan (scanBlocks_fst hp) (scanBlocks_pair_ne hp) hm
      exact this
    · refine foldlM_writeBlocks (pal := pal) (fun rc _ s' s'' hs => ?_) hm
      rw [twoPassBlock_eq, bind_eq_ok] at hs
      obtain ⟨is, -, hs⟩ := hs
      exact ⟨_, hs, entryOk_hires (selectHires_ne _)⟩

/-- The ways a `REDUCE` ends early. -/
theorem reduceWith_error (h : reduceWith pal s = .error e) :
    (s.mc = true ∧ s.strict = true ∧ e = .raise .unsupportedMode 1 0x12) ∨
      (s.mc = false ∧ s.strict = true ∧ ∃ row < s.geom.nby, ∃ col < s.geom.nbx,
        e = .raise .paletteOverflow (BitVec.ofNat 8 row) (BitVec.ofNat 8 col)) ∨ UnwrittenByte s.geom s.pix e := by
  simp only [reduceWith, bind_eq_error] at h
  rcases h with h | ⟨_, -, h⟩
  · simp only [reduceMem] at h
    split at h
    · next hmc =>
      split at h
      · next hst => cases h; exact .inl ⟨hmc, hst, rfl⟩
      · exact .inr (.inr (foldlM_planned_unwritten (fun _ _ => multicolorBlock_eq) h))
    · next hmc =>
      rw [Bool.not_eq_true] at hmc
      split at h
      · next hst =>
        simp only [reduceStrict, bind_eq_error] at h
        rcases h with h | ⟨plan, hp, h⟩
        · obtain ⟨rc, hrc, hs⟩ := scanBlocks_error_cases h
          simp only [scanBlock, bind_eq_error] at hs
          rcases hs with hs | ⟨_, -, hs⟩
          · rcases scanPixels_error (fun _ => Geometry.blockPixels_lt) hs with rfl | hu
            · obtain ⟨hr, hc⟩ := Geometry.mem_blocks.1 hrc
              exact .inr (.inl ⟨hmc, hst, rc.1, hr, rc.2, hc, rfl⟩)
            · exact .inr (.inr hu)
          · cases hs
        · refine .inr (.inr ?_)
          have hfst := scanBlocks_fst hp
          obtain ⟨z, hz, s', hs', he⟩ := foldlM_error (fun m' => ReduceKept s.geom (s.pix, s.asg) m') plan (.refl _ _)
            (fun z hz a b ha hb => by
              rw [writeHiresBlock_eq] at hb
              exact writeBlock_kept (hfst ▸ List.mem_map_of_mem hz) ha hb) h
          rw [writeHiresBlock_eq] at he
          exact .of_kept hs'.pix (writeBlock_unwritten he)
      · exact .inr (.inr (foldlM_planned_unwritten (fun _ _ => twoPassBlock_eq) h))
  · cases h

/-! ## `ENCODE` -/

/-- A completed `ENCODE`: it writes the output aggregate and nothing else, and only in hires mode with a valid assignment. -/
theorem encodeWith_ok (h : encodeWith pal s = .ok t) :
    s.mc = false ∧ s.asgv = true ∧ ∃ planes, encodePlanes pal s.geom s.pix s.asg = .ok planes ∧
      t = s.setOutput planes.1 planes.2 false := by
  simp only [encodeWith] at h
  split at h
  · cases h
  · next hmc =>
    rw [Bool.not_eq_true] at hmc
    split at h
    · cases h
    · next ha =>
      simp only [encodeHires, bind_eq_ok] at h
      obtain ⟨_, -, planes, hp, h⟩ := h
      cases h
      exact ⟨hmc, by simpa using ha, planes, hp, by rw [hmc]⟩

/-- `ENCODE` on a written image with a complete assignment either reports its first offending cell or completes. -/
theorem encodeWith_of_ready (hmc : s.mc = false) (ha : s.asgv = true) (hw : PixWritten s) (hwid : s.width.toNat ≤ 320)
    (hhei : s.height.toNat ≤ 200) (he : ∀ n < s.geom.nblk, ∃ e, s.asg.read n = some e)
    (hok : ∀ rc ∈ s.geom.blocks, checkCell pal s.geom s.pix s.asg rc = .ok ()) :
    ∃ planes, encodeWith pal s = .ok (s.setOutput planes.1 planes.2 false) ∧
      PlanesWritten pal s.geom s.pix s.asg planes := by
  obtain ⟨planes, hp, hpw⟩ := encodePlanes_spec (pal := pal) hw hwid hhei (by simp [hmc]) fun rc hrc => by
    obtain ⟨hr, hc⟩ := Geometry.mem_blocks.1 hrc
    exact he _ (Geometry.asgIndex_lt hr hc)
  refine ⟨planes, ?_, hpw⟩
  simp only [encodeWith, hmc, ha, Bool.false_eq_true, if_false, Bool.not_true, encodeHires, checkCells_ok hok, ok_bind, hp]

end Sys2Proof.Machine
end

