-- ==== Sys2Proof/Laws/Strict.lean ====
section
/-! SUPPORT. The strict variant of `REDUCE` on a written image: what the scan of a block finds, and what the two passes come to
(spec/42_reduce_hires.md R169 to R172). -/

namespace Sys2Proof.Machine

variable {pal : Palette} {g : Geometry}

/-! ## The scan of one block -/

/-- Three different colours make the scan fail. -/
theorem scanIndices_eq_none {is : List Idx} {i j k : Idx} (hi : i ∈ is) (hj : j ∈ is) (hk : k ∈ is) (hij : i ≠ j)
    (hik : i ≠ k) (hjk : j ≠ k) : scanIndices is [] = none := by
  cases h : scanIndices is [] with
  | none => rfl
  | some r =>
    obtain ⟨-, -, hl, hm⟩ := scanIndices_spec is [] .nil (by decide) r h
    have hsub : [i, j, k] ⊆ r := by
      intro x hx
      simp only [List.mem_cons, List.not_mem_nil, or_false] at hx
      rcases hx with rfl | rfl | rfl <;> exact (hm _).2 (.inr ‹_›)
    have hnd : [i, j, k].Nodup := by simp [hij, hik, hjk]
    have := (hnd.subperm hsub).length_le
    simp only [List.length_cons, List.length_nil] at this
    omega

/-- Once the first colour is seen, the scan adds the first one that differs, and no other. -/
theorem scanIndices_from_first {f : Idx} {is r : List Idx} (h : scanIndices is [f] = some r) :
    seenPair r = (f, (is.find? fun i => i != f).getD (fallback f)) := by
  induction is with
  | nil => cases h; rfl
  | cons i is ih =>
    rw [scanIndices] at h
    split at h
    · next hi =>
      rw [List.mem_singleton] at hi
      subst hi
      simpa using ih h
    · next hi =>
      rw [List.mem_singleton] at hi
      simp only [List.length_cons, List.length_nil, Nat.reduceAdd, Nat.reduceEqDiff, if_false, List.cons_append,
        List.nil_append] at h
      obtain ⟨⟨rest, rfl⟩, -, hl, -⟩ := scanIndices_spec is [f, i] (by simpa using Ne.symm hi) (by simp) r h
      obtain rfl : rest = [] := by
        rw [← List.length_eq_zero_iff]; simp only [List.length_append, List.length_cons, List.length_nil] at hl; omega
      rw [List.find?_cons_of_pos (by simpa using hi)]
      rfl

/-- The pair of a block whose scan passes: its first colour, and the first that differs or else the fallback. -/
theorem seenPair_of_scan {is r : List Idx} (hne : is ≠ []) (h : scanIndices is [] = some r) : seenPair r = strictPair is := by
  match is, hne with
  | i :: is, _ =>
    simp only [scanIndices, List.not_mem_nil, if_false, List.length_nil, Nat.reduceEqDiff, List.nil_append] at h
    rw [scanIndices_from_first h, strictPair]
    simp

theorem strictPair_ne (is : List Idx) : (strictPair is).1 ≠ (strictPair is).2 := by
  simp only [strictPair]
  cases h : is.find? fun i => i != is.headD 0 with
  | none => exact (fallback_ne _).symm
  | some i => have := List.find?_some h; exact fun he => bne_iff_ne.1 this he.symm

/-- On a written image the scan of a block gives its pair, or reports the block when three colours occur in it. -/
theorem scanBlock_of_written {m : Memory Byte} (hw : m.writtenBelow g.ext) (hb : 0 < g.bw) {row col : Nat}
    (hr : row < g.nby) (hc : col < g.nbx) :
    ∃ is, pixelIndices pal g m (g.blockPixels row col) = .ok is ∧
      ((scanBlock pal g m (row, col) = .ok (strictPair is) ∧
          ¬ ∃ i ∈ is, ∃ j ∈ is, ∃ k ∈ is, i ≠ j ∧ i ≠ k ∧ j ≠ k) ∨
        (scanBlock pal g m (row, col) = .error (.raise .paletteOverflow (BitVec.ofNat 8 row) (BitVec.ofNat 8 col)) ∧
          ∃ i ∈ is, ∃ j ∈ is, ∃ k ∈ is, i ≠ j ∧ i ≠ k ∧ j ≠ k)) := by
  obtain ⟨is, his⟩ := pixelIndices_of_written (pal := pal) hw row col
  refine ⟨is, his, ?_⟩
  have hne : is ≠ [] := by
    rw [← List.length_pos_iff, pixelIndices_length his, List.length_pos_iff]
    exact Geometry.blockPixels_ne_nil hb hr hc
  rw [scanBlock, scanPixels_eq his]
  cases hs : scanIndices is [] with
  | none =>
    right
    obtain ⟨i, j, k, hij, hik, hjk, hm⟩ := scanIndices_none is [] .nil (by decide) hs
    have hin : ∀ x, x = i ∨ x = j ∨ x = k → x ∈ is := fun x hx => (hm x hx).resolve_left List.not_mem_nil
    exact ⟨rfl, i, hin i (by simp), j, hin j (by simp), k, hin k (by simp), hij, hik, hjk⟩
  | some r =>
    left
    refine ⟨by rw [← seenPair_of_scan hne hs]; rfl, ?_⟩
    rintro ⟨i, hi, j, hj, k, hk, hij, hik, hjk⟩
    rw [scanIndices_eq_none hi hj hk hij hik hjk] at hs
    cases hs

/-! ## The two passes -/

/-- The plan of a block under the strict variant (R169). -/
def strictPlan (is : List Idx) : BlockPlan :=
  ((strictPair is).1, [(strictPair is).2], hiresEntry (strictPair is).1 (strictPair is).2)

/-- When the scan of every block passes, the strict reducer completes and leaves what a loop of block writes leaves. -/
theorem reduceStrict_of_written {m : ReduceMem} (hw : m.1.writtenBelow g.ext)
    (h : ∀ rc ∈ g.blocks, ∃ is, pixelIndices pal g m.1 (g.blockPixels rc.1 rc.2) = .ok is ∧
      scanBlock pal g m.1 rc = .ok (strictPair is)) :
    ∃ r plan, reduceStrict pal g m = .ok r ∧ BlocksWritten pal g plan m r ∧
      ∀ rc ∈ g.blocks, ∃ is, pixelIndices pal g m.1 (g.blockPixels rc.1 rc.2) = .ok is ∧ plan rc = strictPlan is := by
  have hidx : ∀ rc : Nat × Nat, ∃ is, pixelIndices pal g m.1 (g.blockPixels rc.1 rc.2) = .ok is :=
    fun rc => pixelIndices_of_written hw rc.1 rc.2
  choose idx hidx using hidx
  have hscan : ∀ rc ∈ g.blocks, scanBlock pal g m.1 rc = .ok (strictPair (idx rc)) := fun rc hrc => by
    obtain ⟨is, his, hs⟩ := h rc hrc
    rw [hidx] at his
    cases his
    exact hs
  obtain ⟨r, hr, hb⟩ := foldlM_blocksWritten (pal := pal)
    (f := fun m rc => writeHiresBlock pal g (strictPair (idx rc)) m rc) (fun rc => strictPlan (idx rc)) hw
    fun rc _ s _ => rfl
  refine ⟨r, fun rc => strictPlan (idx rc), ?_, hb, fun rc _ => ⟨idx rc, hidx rc, rfl⟩⟩
  rw [reduceStrict, scanBlocks_ok hscan, ok_bind, List.foldlM_map]
  exact hr

end Sys2Proof.Machine
end

