-- ==== Sys2Proof/Laws/Completed.lean ====
section
/-! SUPPORT. What a completed `REDUCE` says: every byte of the image was written, and it left what one loop of block writes
leaves, every block by the plan of its own pixels. One law for the three reducers. -/

namespace Sys2Proof.Machine

variable {pal : Palette} {g : Geometry} {s t : State}

/-! ## A completed command has read every pixel -/

theorem pixelIndices_readable {m : Memory Byte} {l : List (Nat × Nat)} {is : List Idx}
    (h : pixelIndices pal g m l = .ok is) : ∀ xy ∈ l, ∃ p, getPixel g m xy.1 xy.2 = .ok p := by
  induction l generalizing is with
  | nil => simp
  | cons xy l ih =>
    obtain ⟨p, js, hp, hjs, -⟩ := pixelIndices_cons_ok.1 h
    intro z hz
    rcases List.mem_cons.1 hz with rfl | hz
    · exact ⟨p, hp⟩
    · exact ih hjs z hz

theorem scanPixels_readable {m : Memory Byte} {row col : Nat} {l : List (Nat × Nat)} {seen r : List Idx}
    (h : scanPixels pal g m row col l seen = .ok r) : ∀ xy ∈ l, ∃ p, getPixel g m xy.1 xy.2 = .ok p := by
  induction l generalizing seen with
  | nil => simp
  | cons xy l ih =>
    simp only [scanPixels, bind_eq_ok] at h
    obtain ⟨p, hp, h⟩ := h
    intro z hz
    rcases List.mem_cons.1 hz with rfl | hz
    · exact ⟨p, hp⟩
    · split at h
      · exact ih h z hz
      · split at h
        · cases h
        · exact ih h z hz

/-- An image whose pixels can all be read is written. -/
theorem writtenBelow_of_readable {m : Memory Byte} (hb : 0 < g.bw)
    (h : ∀ rc ∈ g.blocks, ∀ xy ∈ g.blockPixels rc.1 rc.2, ∃ p, getPixel g m xy.1 xy.2 = .ok p) :
    m.writtenBelow g.ext := by
  intro a ha
  obtain ⟨x, y, k, hx, hy, hk, rfl⟩ := g.exists_addr ha
  obtain ⟨p, hp⟩ := h (y / 8, x / g.bw) (Geometry.mem_blocks.2 (Geometry.block_lt hb hx hy)) (x, y)
    (Geometry.mem_block hb hx hy)
  obtain ⟨h0, h1, h2⟩ := getPixel_ok_iff.1 hp
  match k, hk with
  | 0, _ => simp only [Nat.add_zero, h0, Option.isSome_some]
  | 1, _ => simp only [h1, Option.isSome_some]
  | 2, _ => simp only [h2, Option.isSome_some]

/-- Remapping a block leaves the pixels outside it, readable or not. -/
theorem remapBlock_outside {c0 : Idx} {cs : List Idx} {row col : Nat} {m m' : Memory Byte}
    (h : remapBlock pal g c0 cs row col m = .ok m') {x y : Nat} (hx : x < g.width) (hout : (x, y) ∉ g.blockPixels row col) :
    getPixel g m' x y = getPixel g m x y := by
  refine foldlM_inv (fun s => getPixel g s x y = getPixel g m x y) _ rfl ?_ h
  intro xy hxy s s' hs ht
  simp only [remapPixel, bind_eq_ok] at ht
  obtain ⟨q, -, ht⟩ := ht
  cases ht
  rw [getPixel_setPixel_of_ne g s _ (Geometry.blockPixels_lt hxy).1 hx (fun he => hout (he ▸ hxy)), hs]

/-- A loop of planned rounds that completes has read every pixel as it was before the loop. -/
theorem foldlM_planned_readable {f : ReduceMem → Nat × Nat → Except Abort ReduceMem} {mk : List Idx → BlockPlan}
    {m r : ReduceMem}
    (hf : ∀ s rc, f s rc = (pixelIndices pal g s.1 (g.blockPixels rc.1 rc.2) >>= fun is => writeBlock pal g (mk is) s rc))
    (h : g.blocks.foldlM f m = .ok r) :
    ∀ rc ∈ g.blocks, ∀ xy ∈ g.blockPixels rc.1 rc.2, ∃ p, getPixel g m.1 xy.1 xy.2 = .ok p := by
  refine (foldlM_inv_prefix
    (fun pre (s : ReduceMem) =>
      (∀ rc ∈ g.blocks, rc ∉ pre → ∀ xy ∈ g.blockPixels rc.1 rc.2, getPixel g s.1 xy.1 xy.2 = getPixel g m.1 xy.1 xy.2) ∧
        ∀ rc ∈ pre, ∀ xy ∈ g.blockPixels rc.1 rc.2, ∃ p, getPixel g m.1 xy.1 xy.2 = .ok p)
    g.blocks ⟨fun _ _ _ _ _ => rfl, by simp⟩ ?_ h).2
  rintro pre rc post s s' hl ⟨hs, hr⟩ ht
  have hrc : rc ∈ g.blocks := by simp [hl]
  have hnd := g.nodup_blocks
  rw [hl, List.nodup_append, List.nodup_cons] at hnd
  have hnot : rc ∉ pre := fun hmem => hnd.2.2 _ hmem _ (List.mem_cons_self ..) rfl
  rw [hf, bind_eq_ok] at ht
  obtain ⟨is, his, ht⟩ := ht
  simp only [writeBlock, bind_eq_ok] at ht
  obtain ⟨pix, hpix, ht⟩ := ht
  cases ht
  refine ⟨fun rc' hrc' hn xy hxy => ?_, fun rc' hrc' xy hxy => ?_⟩
  · simp only [List.mem_append, List.mem_singleton, not_or] at hn
    have hout : (xy.1, xy.2) ∉ g.blockPixels rc.1 rc.2 := fun hin => by
      have h1 := Geometry.block_of_mem hin
      have h2 := Geometry.block_of_mem hxy
      exact hn.2 (Prod.ext (h2.1.trans h1.1.symm) (h2.2.trans h1.2.symm))
    rw [remapBlock_outside hpix (Geometry.blockPixels_lt hxy).1 hout, hs rc' hrc' hn.1 xy hxy]
  · rcases List.mem_append.1 hrc' with hm | hm
    · exact hr rc' hm xy hxy
    · rw [List.mem_singleton] at hm
      subst hm
      rw [← hs rc' hrc hnot xy hxy]
      exact pixelIndices_readable his xy hxy

/-- A completed `REDUCE` found every byte of the image written. -/
theorem reduceWith_written (h : reduceWith pal s = .ok t) : PixWritten s := by
  simp only [reduceWith, bind_eq_ok] at h
  obtain ⟨r, hr, -⟩ := h
  refine writtenBelow_of_readable s.geom_bw_pos ?_
  simp only [reduceMem] at hr
  split at hr
  · split at hr
    · cases hr
    · exact foldlM_planned_readable (m := (s.pix, s.asg)) (fun _ _ => multicolorBlock_eq) hr
  · split at hr
    · simp only [reduceStrict, bind_eq_ok] at hr
      obtain ⟨plan, hp, -⟩ := hr
      intro rc hrc xy hxy
      obtain ⟨fs, hfs⟩ := scanBlocks_each hp rc hrc
      simp only [scanBlock, bind_eq_ok] at hfs
      obtain ⟨seen, hseen, -⟩ := hfs
      exact scanPixels_readable hseen xy hxy
    · exact foldlM_planned_readable (m := (s.pix, s.asg)) (fun _ _ => twoPassBlock_eq) hr

/-! ## One law for the three reducers -/

/-- The plan of a block in the mode that is set, from the indices of its pixels (R163 to R169, R192 to R196). -/
def planOf (s : State) (is : List Idx) : BlockPlan :=
  if s.mc then multicolorPlan s.bgidx is else if s.strict then strictPlan is else twoPassPlan is

/-- A completed `REDUCE` leaves what one loop of block writes leaves, every block by the plan of the pixels it had. -/
theorem reduceWith_plans (h : reduceWith pal s = .ok t) :
    ∃ (m : ReduceMem) (plan : Nat × Nat → BlockPlan), t = ((s.setPix m.1).setAsg m.2).setAsgv true ∧
      BlocksWritten pal s.geom plan (s.pix, s.asg) m ∧
      ∀ rc ∈ s.geom.blocks, ∃ is, BlockIndices pal s rc.1 rc.2 is ∧ plan rc = planOf s is := by
  have hw := reduceWith_written h
  simp only [reduceWith, bind_eq_ok] at h
  obtain ⟨m, hm, ht⟩ := h
  cases ht
  refine ⟨m, ?_⟩
  simp only [reduceMem] at hm
  unfold planOf
  split at hm
  · next hmc =>
    split at hm
    · cases hm
    · obtain ⟨r, plan, hr, hb, hp⟩ := foldlM_planned (pal := pal) (m := (s.pix, s.asg)) hw
        fun _ _ => multicolorBlock_eq (bg := s.bgidx)
      rw [reduceMulticolor, hr] at hm
      cases hm
      simp only [hmc, if_true]
      exact ⟨plan, trivial, hb, fun rc _ => hp rc⟩
  · next hmc =>
    rw [Bool.not_eq_true] at hmc
    split at hm
    · next hst =>
      have hscan : ∀ rc ∈ s.geom.blocks, ∃ is, pixelIndices pal s.geom s.pix (s.geom.blockPixels rc.1 rc.2) = .ok is ∧
          scanBlock pal s.geom s.pix rc = .ok (strictPair is) := by
        intro rc hrc
        obtain ⟨hr, hc⟩ := Geometry.mem_blocks.1 hrc
        obtain ⟨is, his, hs⟩ := scanBlock_of_written (pal := pal) hw s.geom_bw_pos hr hc
        refine ⟨is, his, ?_⟩
        rcases hs with ⟨hs, -⟩ | ⟨hs, -⟩
        · exact hs
        · exfalso
          have hplan := hm
          simp only [reduceStrict, bind_eq_ok] at hplan
          obtain ⟨plan, hp, -⟩ := hplan
          obtain ⟨fs, hfs⟩ := scanBlocks_each hp rc hrc
          rw [hs] at hfs
          cases hfs
      obtain ⟨r, plan, hr, hb, hp⟩ := reduceStrict_of_written (pal := pal) (m := (s.pix, s.asg)) hw hscan
      rw [hr] at hm
      cases hm
      simp only [hmc, hst, Bool.false_eq_true, if_false, if_true]
      exact ⟨plan, trivial, hb, hp⟩
    · next hst =>
      rw [Bool.not_eq_true] at hst
      obtain ⟨r, plan, hr, hb, hp⟩ := foldlM_planned (pal := pal) (m := (s.pix, s.asg)) hw fun _ _ => twoPassBlock_eq
      rw [reduceTwoPass, hr] at hm
      cases hm
      simp only [hmc, hst, Bool.false_eq_true, if_false]
      exact ⟨plan, trivial, hb, fun rc _ => hp rc⟩

/-- `REDUCE` completes on a written image in both modes without the strict variant. -/
theorem reduceWith_completes (hw : PixWritten s) (hst : s.strict = false) : ∃ t, reduceWith pal s = .ok t := by
  refine ok_of_written hw fun e h => ?_
  rcases reduceWith_error h with ⟨-, h, -⟩ | ⟨-, h, -⟩ | h
  · rw [hst] at h; cases h
  · rw [hst] at h; cases h
  · exact h

/-- A `REDUCE` that answers no error completed. -/
theorem execReduce_completed (h : execReduce s = .next t) (ht : t.err = false) : reduceWith Config.pal s = .ok t := by
  rcases finish_eq_next h with h | ⟨e, hi, lo, -, rfl⟩
  · exact h
  · cases ht

/-- A completed `REDUCE` that gives every pixel the colour it had leaves `PIX` byte-identical (R174). -/
theorem reduceWith_pix_eq (hwf : s.pix.wf) (h : reduceWith pal s = .ok t)
    (hfix : ∀ rc ∈ s.geom.blocks, ∀ is, BlockIndices pal s rc.1 rc.2 is → ∀ xy ∈ s.geom.blockPixels rc.1 rc.2, ∀ p,
      getPixel s.geom s.pix xy.1 xy.2 = .ok p → remapColour pal (planOf s is).1 (planOf s is).2.1 p = p) :
    t.pix = s.pix := by
  have hw := reduceWith_written h
  obtain ⟨m, plan, rfl, hb, hp⟩ := reduceWith_plans h
  refine Memory.eq_of_read_eq (hb.pix_kept.wf hwf) hwf fun a => ?_
  by_cases ha : s.geom.ext ≤ a
  · exact hb.pix_kept.above a ha
  · obtain ⟨x, y, k, hx, hy, hk, rfl⟩ := s.geom.exists_addr (Nat.not_le.1 ha)
    have hrc := Geometry.mem_blocks.2 (show (y / 8, x / s.geom.bw).1 < s.geom.nby ∧ (y / 8, x / s.geom.bw).2 < s.geom.nbx from
      Geometry.block_lt s.geom_bw_pos hx hy)
    have hxy := Geometry.mem_block s.geom_bw_pos hx hy
    obtain ⟨p, hpx⟩ := getPixel_of_written hw hx hy
    obtain ⟨is, his, he⟩ := hp _ hrc
    have h1 := hb.pixel _ hrc (x, y) hxy p hpx
    rw [he, hfix _ hrc is his _ hxy p hpx] at h1
    obtain ⟨a0, a1, a2⟩ := getPixel_ok_iff.1 h1
    obtain ⟨b0, b1, b2⟩ := getPixel_ok_iff.1 hpx
    match k, hk with
    | 0, _ => exact a0.trans b0.symm
    | 1, _ => exact a1.trans b1.symm
    | 2, _ => exact a2.trans b2.symm

/-! ## `ENCODE` -/

/-- A loop without state that completes has completed every round. -/
theorem foldlM_unit_each {β : Type} {f : β → Except Abort Unit} {l : List β} (h : l.foldlM (fun _ x => f x) () = .ok ()) :
    ∀ x ∈ l, f x = .ok () :=
  foldlM_inv_prefix (f := fun (_ : Unit) x => f x) (fun pre _ => ∀ x ∈ pre, f x = .ok ()) l (by simp)
    (fun pre x post s t _ hs ht y hy => by
      rcases List.mem_append.1 hy with hy | hy
      · exact hs y hy
      · rw [List.mem_singleton] at hy; subst hy; exact ht) h

/-- A check pass that passes has read every pixel and found it in its cell's pair. -/
theorem checkCells_pixels {pix : Memory Byte} {asg : Memory AsgEntry} (h : checkCells pal g pix asg = .ok ()) :
    ∀ rc ∈ g.blocks, ∀ xy ∈ g.blockPixels rc.1 rc.2, ∃ e p, asg.read (g.asgIndex rc.1 rc.2) = some e ∧
      getPixel g pix xy.1 xy.2 = .ok p ∧ classify pal (asgN0 e) (asgN1 e) p ≠ .neither := by
  intro rc hrc xy hxy
  have hc := foldlM_unit_each (f := checkCell pal g pix asg) h rc hrc
  simp only [checkCell, cellEntry, bind_eq_ok] at hc
  obtain ⟨e, he, hc⟩ := hc
  have hp := foldlM_unit_each (f := checkPixel pal g pix e rc) hc xy hxy
  cases hpx : getPixel g pix xy.1 xy.2 with
  | error a => rw [checkPixel, hpx] at hp; cases hp
  | ok p =>
    rw [checkPixel_cases pal g hpx] at hp
    split at hp
    · cases hp
    · next hn => exact ⟨e, p, readCell_ok_iff.1 he, rfl, hn⟩

/-- A completed `ENCODE`: what its check pass has found, and what the two planes hold (R213 to R219). -/
theorem encodeWith_completed (h : encodeWith pal s = .ok t) (hwid : s.width.toNat ≤ 320) (hhei : s.height.toNat ≤ 200) :
    PixWritten s ∧
      (∀ rc ∈ s.geom.blocks, ∀ xy ∈ s.geom.blockPixels rc.1 rc.2, ∃ e p, s.asg.read (s.geom.asgIndex rc.1 rc.2) = some e ∧
        getPixel s.geom s.pix xy.1 xy.2 = .ok p ∧ classify pal (asgN0 e) (asgN1 e) p ≠ .neither) ∧
      ∃ planes, t = s.setOutput planes.1 planes.2 false ∧ PlanesWritten pal s.geom s.pix s.asg planes := by
  obtain ⟨hmc, ha, planes, hp, rfl⟩ := encodeWith_ok h
  have hpx : ∀ rc ∈ s.geom.blocks, ∀ xy ∈ s.geom.blockPixels rc.1 rc.2, ∃ e p,
      s.asg.read (s.geom.asgIndex rc.1 rc.2) = some e ∧ getPixel s.geom s.pix xy.1 xy.2 = .ok p ∧
        classify pal (asgN0 e) (asgN1 e) p ≠ .neither := by
    refine checkCells_pixels ?_
    simp only [encodeWith, hmc, ha, Bool.false_eq_true, if_false, Bool.not_true, encodeHires, bind_eq_ok] at h
    obtain ⟨u, hu, -⟩ := h
    exact hu
  have hw : PixWritten s := writtenBelow_of_readable s.geom_bw_pos fun rc hrc xy hxy => by
    obtain ⟨e, p, -, hp, -⟩ := hpx rc hrc xy hxy
    exact ⟨p, hp⟩
  refine ⟨hw, hpx, planes, rfl, ?_⟩
  have he : ∀ rc ∈ s.geom.blocks, ∃ e, s.asg.read (s.geom.asgIndex rc.1 rc.2) = some e := fun rc hrc => by
    obtain ⟨hr, hc⟩ := Geometry.mem_blocks.1 hrc
    obtain ⟨xy, hxy⟩ := List.exists_mem_of_ne_nil _ (Geometry.blockPixels_ne_nil s.geom_bw_pos hr hc)
    obtain ⟨e, p, he, -⟩ := hpx rc hrc xy hxy
    exact ⟨e, he⟩
  obtain ⟨planes', hp', hpw⟩ := encodePlanes_spec (pal := pal) hw hwid hhei (by simp [State.geom, hmc, blockWidth, Config.blockWHires]) he
  rw [hp] at hp'
  cases hp'
  exact hpw

/-- The write pass never raises an error of the block. -/
theorem encodePlanes_refuses {pix : Memory Byte} {asg : Memory AsgEntry} {e : Abort}
    (h : encodePlanes pal g pix asg = .error e) : ∃ r, e = .refuse r := by
  obtain ⟨rc, -, planes, -, h⟩ := foldlM_error (fun _ => True) g.blocks trivial (fun _ _ _ _ _ _ => trivial) h
  simp only [encodeCell, cellEntry, bind_eq_error] at h
  rcases h with h | ⟨x, -, h | ⟨_, -, h⟩⟩
  · exact ⟨_, (readCell_error h).1⟩
  · obtain ⟨xy, -, m, -, h⟩ := foldlM_error (fun _ => True) _ trivial (fun _ _ _ _ _ _ => trivial) h
    simp only [encodePixel, bind_eq_error] at h
    rcases h with h | ⟨p, -, h⟩
    · obtain ⟨k, -, h, -⟩ := getPixel_error h
      exact ⟨_, h⟩
    · split at h
      · rcases bind_eq_error.1 h with h | ⟨_, -, h⟩
        · exact ⟨_, (readCell_error h).1⟩
        · cases h
      · cases h
  · cases h

/-- The ways the check pass ends early: a cell overflows, or an entry or a byte of the image has not been written. -/
theorem checkCells_error_cases {pix : Memory Byte} {asg : Memory AsgEntry} {e : Abort}
    (h : checkCells pal g pix asg = .error e) :
    (∃ row < g.nby, ∃ col < g.nbx, e = .raise .blockOverflow (BitVec.ofNat 8 row) (BitVec.ofNat 8 col)) ∨
      (∃ n < g.nblk, e = .refuse (.unwritten .asg n) ∧ asg.read n = none) ∨ UnwrittenByte g pix e := by
  obtain ⟨rc, hrc, -, -, h⟩ := foldlM_error (f := fun (_ : Unit) rc => checkCell pal g pix asg rc) (fun _ => True) g.blocks
    trivial (fun _ _ _ _ _ _ => trivial) h
  obtain ⟨hr, hc⟩ := Geometry.mem_blocks.1 hrc
  simp only [checkCell, cellEntry, bind_eq_error] at h
  rcases h with h | ⟨x, -, h⟩
  · exact .inr (.inl ⟨_, Geometry.asgIndex_lt hr hc, readCell_error h⟩)
  · obtain ⟨xy, hxy, -, -, h⟩ := foldlM_error (f := fun (_ : Unit) xy => checkPixel pal g pix x rc xy) (fun _ => True)
      (g.blockPixels rc.1 rc.2) trivial (fun _ _ _ _ _ _ => trivial) h
    rcases checkPixel_error (Geometry.blockPixels_lt hxy).1 (Geometry.blockPixels_lt hxy).2 h with ⟨rfl, -⟩ | hu
    · exact .inl ⟨_, hr, _, hc, rfl⟩
    · exact .inr (.inr hu)

/-- The errors that `ENCODE` raises (R213, R220). -/
theorem encodeWith_raise {k : ErrKind} {hi lo : Byte} (h : encodeWith pal s = .error (.raise k hi lo)) :
    (s.mc = true ∧ k = .unsupportedMode ∧ hi = 2 ∧ lo = 0x13) ∨
      (s.mc = false ∧ s.asgv = false ∧ k = .illegalCommand ∧ hi = 4 ∧ lo = 0x13) ∨
      (s.mc = false ∧ s.asgv = true ∧ k = .blockOverflow ∧ ∃ row < s.geom.nby, ∃ col < s.geom.nbx,
        hi = BitVec.ofNat 8 row ∧ lo = BitVec.ofNat 8 col) := by
  simp only [encodeWith] at h
  split at h
  · next hmc => cases h; exact .inl ⟨hmc, rfl, rfl, rfl⟩
  · next hmc =>
    rw [Bool.not_eq_true] at hmc
    split at h
    · next ha => cases h; exact .inr (.inl ⟨hmc, by simpa using ha, rfl, rfl, rfl⟩)
    · next ha =>
      simp only [encodeHires, bind_eq_error] at h
      rcases h with h | ⟨_, -, h | ⟨_, -, h⟩⟩
      · rcases checkCells_error_cases h with ⟨row, hr, col, hc, h⟩ | ⟨_, _, h, _⟩ | ⟨_, _, h, _⟩
        · cases h; exact .inr (.inr ⟨hmc, by simpa using ha, rfl, row, hr, col, hc, rfl, rfl⟩)
        · cases h
        · cases h
      · obtain ⟨r, h⟩ := encodePlanes_refuses h
        cases h
      · cases h

/-- On an image that fits the screen `ENCODE` is refused only at an unwritten byte of the image, or at an unwritten entry of
an assignment that `ASGV` calls valid. -/
theorem encodeWith_refuse {r : Refusal} (h : encodeWith pal s = .error (.refuse r)) (hwid : s.width.toNat ≤ 320)
    (hhei : s.height.toNat ≤ 200) :
    s.asgv = true ∧ ((∃ n < s.geom.nblk, r = .unwritten .asg n ∧ s.asg.read n = none) ∨
      ∃ a < s.geom.ext, r = .unwritten .pix a ∧ s.pix.read a = none) := by
  simp only [encodeWith] at h
  split at h
  · cases h
  · next hmc =>
    rw [Bool.not_eq_true] at hmc
    split at h
    · cases h
    · next ha =>
      refine ⟨by simpa using ha, ?_⟩
      simp only [encodeHires, bind_eq_error] at h
      rcases h with h | ⟨_, hc, h | ⟨_, -, h⟩⟩
      · rcases checkCells_error_cases h with ⟨row, hr, col, hc, h⟩ | ⟨n, hn, h, hr⟩ | ⟨a, ha, h, hr⟩
        · cases h
        · cases h; exact .inl ⟨n, hn, rfl, hr⟩
        · cases h; exact .inr ⟨a, ha, rfl, hr⟩
      · exfalso
        have hpx := checkCells_pixels hc
        have hw : PixWritten s := writtenBelow_of_readable s.geom_bw_pos fun rc hrc xy hxy => by
          obtain ⟨e, p, -, hp, -⟩ := hpx rc hrc xy hxy
          exact ⟨p, hp⟩
        obtain ⟨planes, hp, -⟩ := encodePlanes_spec (pal := pal) hw hwid hhei
          (by simp [State.geom, hmc, blockWidth, Config.blockWHires]) fun rc hrc => by
            obtain ⟨hr, hc⟩ := Geometry.mem_blocks.1 hrc
            obtain ⟨xy, hxy⟩ := List.exists_mem_of_ne_nil _ (Geometry.blockPixels_ne_nil s.geom_bw_pos hr hc)
            obtain ⟨e, p, he, -⟩ := hpx rc hrc xy hxy
            exact ⟨e, he⟩
        rw [hp] at h
        cases h
      · cases h

/-- The colour byte holds the foreground in its high nibble and the background in its low one (R216). -/
theorem colourByte_eq (bg fg : Idx) : colourByte bg fg = fg ++ bg := by revert bg fg; decide

end Sys2Proof.Machine
end

