-- ==== Sys2Proof/Laws/Decode.lean ====
section
/-! SUPPORT. The fields of a command word: what the decoder reads of a word that the encoder built, and back
(spec/30_encoding.md R90 to R92). -/

namespace Sys2Proof

theorem opField_cmdWord (op : Byte) (arg : BitVec 24) : opField (cmdWord op arg) = op := by
  apply BitVec.eq_of_getLsbD_eq
  intro i hi
  simp only [opField, cmdWord, BitVec.getLsbD_extractLsb', BitVec.getLsbD_append, hi, decide_true, Bool.true_and]
  rw [if_neg (by omega)]
  congr 1
  omega

theorem argField_cmdWord (op : Byte) (arg : BitVec 24) : argField (cmdWord op arg) = arg := by
  apply BitVec.eq_of_getLsbD_eq
  intro i hi
  simp only [argField, cmdWord, BitVec.getLsbD_extractLsb', BitVec.getLsbD_append, hi, decide_true, Bool.true_and]
  rw [if_pos (by omega)]
  congr 1
  omega

/-- A word is its two fields. -/
theorem cmdWord_fields (cw : Word32) : cmdWord (opField cw) (argField cw) = cw := by
  apply BitVec.eq_of_getLsbD_eq
  intro i hi
  simp only [opField, argField, cmdWord, BitVec.getLsbD_extractLsb', BitVec.getLsbD_append]
  split
  · next h => simp [h]
  · next h =>
    rw [show 24 + (i - 24) = i by omega]
    simp only [Bool.and_eq_right_iff_imp, decide_eq_true_eq]
    omega

/-- Format `U<n>` reads back the operand that was laid out. -/
theorem decodeU_setWidth {n : Nat} (hn : n ≤ 24) (mk : BitVec n → Instr) (v : BitVec n) :
    decodeU n mk (v.setWidth 24) = .command (mk v) := by
  rw [decodeU, if_pos, BitVec.setWidth_setWidth_of_le v hn, BitVec.setWidth_eq]
  apply BitVec.eq_of_getLsbD_eq
  intro i _
  simp

/-- What format `U<n>` accepts is the operand laid out with its reserved bits 0. -/
theorem decodeU_eq_command {n : Nat} {mk : BitVec n → Instr} {arg : BitVec 24} {i : Instr}
    (h : decodeU n mk arg = .command i) : ∃ v : BitVec n, i = mk v ∧ v.setWidth 24 = arg := by
  unfold decodeU at h
  split at h
  · next h0 =>
    cases h
    refine ⟨_, rfl, ?_⟩
    apply BitVec.eq_of_getLsbD_eq
    intro k hk
    simp only [BitVec.getLsbD_setWidth, hk, decide_true, Bool.true_and]
    by_cases hkn : k < n
    · simp [hkn]
    · simp only [hkn, decide_false, Bool.false_and]
      have := congrArg (fun z => z.getLsbD (k - n)) h0
      simp only [BitVec.getLsbD_ushiftRight, show n + (k - n) = k by omega] at this
      simpa using this.symm
  · cases h

/-- What format `Z` accepts has no argument bit set. -/
theorem decodeZ_eq_command {i j : Instr} {arg : BitVec 24} (h : decodeZ j arg = .command i) : arg = 0 ∧ i = j := by
  unfold decodeZ at h
  split at h
  · next h0 => cases h; exact ⟨h0, rfl⟩
  · cases h

end Sys2Proof
end

