-- ==== Sys2Proof/Laws/Exec.lean ====
section
/-! SUPPORT. Everything a command can do when it answers a next state, said once: it raises one of its errors upon the state it
started in, or it completes with its own effect. The whole-machine rules follow by cases from here. -/

namespace Sys2Proof.Machine

variable {i : Instr} {s t : State}

/-- The effect of each command that completes, with the conditions it has then met. -/
def Completes (i : Instr) (s t : State) : Prop :=
  match i with
  | .nop => t = s
  | .setw v => v.toNat ≤ 320 ∧ t = (s.setWidth v).setAsgv false
  | .seth v => v.toNat ≤ 200 ∧ t = (s.setHeight v).setAsgv false
  | .setmode mc strict => t = (s.setMode mc strict).setAsgv false
  | .setbg k => t = (s.setBgidx k).setAsgv false
  | .setptr a => t = s.setPtr a
  | .wrpix v => s.ptr.toNat < s.geom.ext ∧ t = (s.setPix (s.pix.write s.ptr.toNat v)).setPtr (nextPtr s.ptr)
  | .rdpix => s.ptr.toNat < s.geom.ext ∧ ∃ v, s.pix.read s.ptr.toNat = some v ∧
      t = (s.setResp (v.setWidth 32)).setPtr (nextPtr s.ptr)
  | .rdbmp _ | .rdcram _ | .rdasg _ | .rddim | .rdpal _ | .nearest _ _ _ | .rdstat | .rderr => ∃ r, t = s.setResp r
  | .dither => ∃ pix, t = s.setPix pix ∧ PixKept s.geom s.pix pix
  | .reduce => ∃ m : ReduceMem, t = ((s.setPix m.1).setAsg m.2).setAsgv true ∧ ReduceKept s.geom (s.pix, s.asg) m ∧
      ∀ n < s.geom.nblk, ∃ e, m.2.read n = some e ∧ EntryOk s.mc s.bgidx e
  | .encode => s.mc = false ∧ s.asgv = true ∧ ∃ planes : Memory Byte × Memory Byte, t = s.setOutput planes.1 planes.2 false ∧
      (s.width.toNat ≤ 320 → s.height.toNat ≤ 200 → PlaneOk 8000 planes.1 ∧ PlaneOk 1000 planes.2)
  | .sreset => t = resetBlock s

/-- The error `E(hi, lo)` is one that the command can raise (R276, R277, R294). -/
def Raises (i : Instr) (e : ErrKind) (hi lo : Byte) : Prop :=
  ∃ x ∈ errorsOf i, e.code = x.1 ∧ ∀ reason, x.2 = some reason → hi = reason ∧ lo = opcodeOf i

theorem raises_of {e : ErrKind} {hi lo : Byte} (h : (e.code, some hi) ∈ errorsOf i) (hlo : opcodeOf i = lo) :
    Raises i e hi lo := ⟨_, h, rfl, fun _ hr => ⟨Option.some.inj hr, hlo.symm⟩⟩

/-- A command that ends by reading one element and completing: it answers a next state only where the element is there. -/
theorem readCell_next {α : Type} {sp : Space} {m : Memory α} {a : Nat} {f : α → State}
    (h : finish s (readCell sp m a >>= fun v => .ok (f v)) = .next t) : ∃ v, m.read a = some v ∧ t = f v := by
  rcases finish_eq_next h with h | ⟨e, hi, lo, h, -⟩
  · obtain ⟨v, hr, h⟩ := bind_eq_ok.1 h
    cases h
    exact ⟨v, readCell_ok_iff.1 hr, rfl⟩
  · rcases bind_eq_error.1 h with h | ⟨_, -, h⟩
    · cases (readCell_error h).1
    · cases h

theorem readPlane_next {sp : Space} {m : Memory Byte} {size a : Nat} {opcode : Byte}
    (h : finish s (readPlane sp m size opcode a s) = .next t) :
    (∃ reason, (reason = 3 ∨ reason = 4) ∧ t = raise .illegalCommand reason opcode s) ∨ ∃ r, t = s.setResp r := by
  unfold readPlane at h
  split at h
  · cases h; exact .inl ⟨3, .inl rfl, rfl⟩
  · split at h
    · cases h; exact .inl ⟨4, .inr rfl, rfl⟩
    · obtain ⟨v, -, ht⟩ := readCell_next h
      exact .inr ⟨_, ht⟩

/-- A command that answers a next state has raised one of its errors or completed. -/
theorem exec_cases (h : exec i s = .next t) :
    (∃ e hi lo, Raises i e hi lo ∧ t = raise e hi lo s) ∨ Completes i s t := by
  have ill : ∀ reason : Byte, (5, some reason) ∈ errorsOf i → t = raise .illegalCommand reason (opcodeOf i) s →
      (∃ e hi lo, Raises i e hi lo ∧ t = raise e hi lo s) ∨ Completes i s t :=
    fun reason hm ht => .inl ⟨_, _, _, raises_of (e := .illegalCommand) hm rfl, ht⟩
  cases i with
  | nop => cases h; exact .inr rfl
  | setmode | setbg | setptr => cases h; exact .inr rfl
  | rddim | rdpal | nearest | rdstat | rderr => cases h; exact .inr ⟨_, rfl⟩
  | sreset => cases h; exact .inr rfl
  | setw v =>
    simp only [exec, execSetw] at h
    split at h
    · cases h; exact ill 3 (by simp [errorsOf]) (by rw [opcodeOf, encode, opField_cmdWord])
    · next hv => cases h; exact .inr ⟨Nat.not_lt.1 hv, rfl⟩
  | seth v =>
    simp only [exec, execSeth] at h
    split at h
    · cases h; exact ill 3 (by simp [errorsOf]) (by rw [opcodeOf, encode, opField_cmdWord])
    · next hv => cases h; exact .inr ⟨Nat.not_lt.1 hv, rfl⟩
  | wrpix v =>
    simp only [exec, execWrpix] at h
    split at h
    · cases h; exact ill 5 (by simp [errorsOf]) (by rw [opcodeOf, encode, opField_cmdWord])
    · next hv => cases h; exact .inr ⟨Nat.not_le.1 hv, rfl⟩
  | rdpix =>
    simp only [exec, execRdpix] at h
    split at h
    · cases h; exact ill 5 (by simp [errorsOf]) (by rw [opcodeOf, encode, opField_cmdWord])
    · next hv =>
      obtain ⟨v, hr, ht⟩ := readCell_next h
      exact .inr ⟨Nat.not_le.1 hv, v, hr, ht⟩
  | rdbmp a =>
    rcases readPlane_next h with ⟨reason, hr, ht⟩ | h
    · exact ill reason (by rcases hr with rfl | rfl <;> simp [errorsOf]) (by rw [opcodeOf, encode, opField_cmdWord, ht])
    · exact .inr h
  | rdcram a =>
    rcases readPlane_next h with ⟨reason, hr, ht⟩ | h
    · exact ill reason (by rcases hr with rfl | rfl <;> simp [errorsOf]) (by rw [opcodeOf, encode, opField_cmdWord, ht])
    · exact .inr h
  | rdasg n =>
    simp only [exec, execRdasg] at h
    split at h
    · cases h; exact ill 4 (by simp [errorsOf]) (by rw [opcodeOf, encode, opField_cmdWord])
    · split at h
      · cases h; exact ill 5 (by simp [errorsOf]) (by rw [opcodeOf, encode, opField_cmdWord])
      · obtain ⟨v, -, ht⟩ := readCell_next h
        exact .inr ⟨_, ht⟩
  | dither =>
    rcases finish_eq_next (show finish s _ = _ from h) with h | ⟨e, hi, lo, h, -⟩
    · obtain ⟨pix, -, rfl, hk⟩ := ditherWith_ok h
      exact .inr ⟨pix, rfl, hk⟩
    · obtain ⟨_, _, h, _⟩ := ditherWith_error h
      cases h
  | reduce =>
    rcases finish_eq_next (show finish s _ = _ from h) with h | ⟨e, hi, lo, h, ht⟩
    · exact .inr (reduceWith_ok h)
    · rcases reduceWith_error h with ⟨-, -, h⟩ | ⟨-, -, row, -, col, -, h⟩ | ⟨_, _, h, _⟩
      · cases h
        exact .inl ⟨_, _, _, raises_of (i := .reduce) (by simp [errorsOf, ErrKind.code]) rfl, ht⟩
      · cases h
        exact .inl ⟨_, _, _, ⟨(1, none), by simp [errorsOf], rfl, fun _ hr => by cases hr⟩, ht⟩
      · cases h
  | encode =>
    rcases finish_eq_next (show finish s _ = _ from h) with h | ⟨e, hi, lo, h, ht⟩
    · obtain ⟨hmc, ha, planes, -, ht⟩ := encodeWith_ok h
      refine .inr ⟨hmc, ha, planes, ht, fun hwid hhei => ?_⟩
      obtain ⟨-, -, planes', ht', hp⟩ := encodeWith_completed h hwid hhei
      have h1 : planes'.1 = planes.1 := congrArg State.bitmap (ht'.symm.trans ht)
      have h2 : planes'.2 = planes.2 := congrArg State.cram (ht'.symm.trans ht)
      exact ⟨h1 ▸ hp.bitmap_ok, h2 ▸ hp.cram_ok⟩
    · rcases encodeWith_raise h with ⟨-, rfl, rfl, rfl⟩ | ⟨-, -, rfl, rfl, rfl⟩ | ⟨-, -, rfl, -⟩
      · exact .inl ⟨_, _, _, raises_of (i := .encode) (by simp [errorsOf, ErrKind.code]) rfl, ht⟩
      · exact ill 4 (by simp [errorsOf]) ht
      · exact .inl ⟨_, _, _, ⟨(4, none), by simp [errorsOf], rfl, fun _ hr => by cases hr⟩, ht⟩

end Sys2Proof.Machine
end

