-- ==== Sys2Proof/Laws/Invariant.lean ====
section
/-! SUPPORT. The small laws behind the invariant of spec/10_state.md R43: the sizes it bounds, and the updates that keep it. -/

namespace Sys2Proof.Machine

variable {i : Instr} {s t : State}

/-- The image of an invariant state fits the pixel memory (R5, R36). -/
theorem Inv.ext_le (h : Inv s) : s.geom.ext ≤ 192000 := by
  have := Nat.mul_le_mul h.width_le h.height_le
  simp only [State.geom, Geometry.ext]
  rw [Nat.mul_assoc]
  omega

/-- The blocks of an invariant state fit the assignment memory (R5, R37). -/
theorem Inv.nblk_le (h : Inv s) : s.geom.nblk ≤ 2000 := by
  have h1 := h.width_le
  have h2 := h.height_le
  have a : s.geom.nbx ≤ 80 := by
    simp only [State.geom, Geometry.nbx, ceilDiv, blockWidth, Config.blockWMc, Config.blockWHires]; split <;> omega
  have b : s.geom.nby ≤ 25 := by simp only [State.geom, Geometry.nby, ceilDiv, Config.blockH]; omega
  exact (Nat.mul_le_mul a b).trans (by norm_num)

theorem Inv.setPort (h : Inv s) (l : List PortInput) : Inv (s.setPort l) := { h with }

theorem Inv.setResp (h : Inv s) (v : Word32) : Inv (s.setResp v) := { h with }

theorem Inv.setPtr (h : Inv s) (v : BitVec 18) : Inv (s.setPtr v) := { h with }

/-- Every error but the one that nothing raises keeps the invariant (R273, R279). -/
theorem Inv.raise (h : Inv s) {e : ErrKind} (he : e ≠ .invalidPalette) (hi lo : Byte) : Inv (raise e hi lo s) where
  width_le := h.width_le
  height_le := h.height_le
  err_iff := by cases e <;> simp_all [Machine.raise, ErrKind.code]
  errcode_legal := by cases e <;> simp_all [Machine.raise, ErrKind.code]
  errinfo_clear := fun h => by cases h
  mcflag_clear := h.mcflag_clear
  bitmap_written := h.bitmap_written
  cram_written := h.cram_written
  entries_ok := h.entries_ok
  pix_ok := h.pix_ok
  asg_ok := h.asg_ok
  bitmap_ok := h.bitmap_ok
  cram_ok := h.cram_ok

/-- No command raises `InvalidPaletteError` (R273). -/
theorem Raises.ne_invalidPalette {e : ErrKind} {hi lo : Byte} (h : Raises i e hi lo) : e ≠ .invalidPalette := by
  rintro rfl
  obtain ⟨x, hx, hc, -⟩ := h
  have : ∀ x ∈ errorsOf i, x.1 ≠ 2 := by cases i <;> simp [errorsOf]
  exact this x hx hc.symm

/-- A command that completes raises no error (R270). -/
theorem Completes.err (h : Completes i s t) (hs : s.err = false) : t.err = false := by
  cases i <;> simp only [Completes] at h
  case sreset => subst h; rfl
  case reduce | dither => obtain ⟨m, rfl, -⟩ := h; exact hs
  case encode => obtain ⟨-, -, p, rfl, -⟩ := h; exact hs
  case rdpix => obtain ⟨-, v, -, rfl⟩ := h; exact hs
  case setw | seth | wrpix => obtain ⟨-, rfl⟩ := h; exact hs
  case nop | setmode | setbg | setptr => subst h; exact hs
  all_goals (obtain ⟨r, rfl⟩ := h; exact hs)

end Sys2Proof.Machine
end

