-- ==== Sys2Proof/Laws/PerInstr.lean ====
section
/-! SUPPORT. Statements made per instruction. The family `Spelling`: the word of a command meets the mask and the match of its
own row of the opcode table (spec/30_encoding.md R93). -/

namespace Sys2Proof.Laws.Spelling

/-- The command's word meets its row: the row of the command's mnemonic is in the table, and `cw & mask = match`. -/
def Statement (i : Instr) : Prop :=
  ∃ row ∈ opTable, row.mnemonic = i.mnemonic ∧ encode i &&& row.mask = row.pattern

/-- A word meets a row when its opcode is the row's and the fixed part of its argument is 0. -/
theorem meets {op : Byte} {arg low : BitVec 24} (h : arg &&& low = 0) :
    cmdWord op arg &&& cmdWord 0xFF low = cmdWord op 0 := by
  rw [cmdWord, cmdWord, BitVec.and_append, h, cmdWord, show (0xFF : Byte) = BitVec.allOnes 8 from rfl, BitVec.and_allOnes]

/-- A field of `n` bits leaves the bits above it 0. -/
theorem field {n : Nat} (v : BitVec n) : v.setWidth 24 &&& (BitVec.allOnes 24 <<< n) = 0 := by
  apply BitVec.eq_of_getLsbD_eq
  intro i hi
  simp only [BitVec.getLsbD_and, BitVec.getLsbD_setWidth, BitVec.getLsbD_shiftLeft,
    BitVec.getLsbD_allOnes, hi, decide_true, Bool.true_and]
  by_cases h : i < n
  · simp [h]
  · rw [BitVec.getLsbD_of_ge v i (by omega), Bool.false_and]
    simp

theorem nop : Statement (.nop) :=
  ⟨opTable[0], by decide, rfl, rfl⟩

theorem setw (imm : BitVec 16) : Statement (.setw imm) :=
  ⟨opTable[1], by decide, rfl, meets (op := 0x1) (field imm)⟩

theorem seth (imm : BitVec 16) : Statement (.seth imm) :=
  ⟨opTable[2], by decide, rfl, meets (op := 0x2) (field imm)⟩

theorem setmode (mc : Bool) (strict : Bool) : Statement (.setmode mc strict) :=
  ⟨opTable[3], by decide, rfl, by revert mc strict; decide⟩

theorem setbg (i : BitVec 4) : Statement (.setbg i) :=
  ⟨opTable[4], by decide, rfl, meets (op := 0x4) (field i)⟩

theorem setptr (a : BitVec 18) : Statement (.setptr a) :=
  ⟨opTable[5], by decide, rfl, meets (op := 0x5) (field a)⟩

theorem wrpix (v : BitVec 8) : Statement (.wrpix v) :=
  ⟨opTable[6], by decide, rfl, meets (op := 0x6) (field v)⟩

theorem rdpix : Statement (.rdpix) :=
  ⟨opTable[7], by decide, rfl, rfl⟩

theorem rdbmp (a : BitVec 13) : Statement (.rdbmp a) :=
  ⟨opTable[8], by decide, rfl, meets (op := 0x8) (field a)⟩

theorem rdcram (a : BitVec 10) : Statement (.rdcram a) :=
  ⟨opTable[9], by decide, rfl, meets (op := 0x9) (field a)⟩

theorem rdasg (n : BitVec 11) : Statement (.rdasg n) :=
  ⟨opTable[10], by decide, rfl, meets (op := 0xa) (field n)⟩

theorem rddim : Statement (.rddim) :=
  ⟨opTable[11], by decide, rfl, rfl⟩

theorem rdpal (i : BitVec 4) : Statement (.rdpal i) :=
  ⟨opTable[12], by decide, rfl, meets (op := 0xc) (field i)⟩

theorem nearest (r : BitVec 8) (g : BitVec 8) (b : BitVec 8) : Statement (.nearest r g b) :=
  ⟨opTable[13], by decide, rfl, meets (op := 0x10) (low := 0) BitVec.and_zero⟩

theorem dither : Statement (.dither) :=
  ⟨opTable[14], by decide, rfl, rfl⟩

theorem reduce : Statement (.reduce) :=
  ⟨opTable[15], by decide, rfl, rfl⟩

theorem encode : Statement (.encode) :=
  ⟨opTable[16], by decide, rfl, rfl⟩

theorem rdstat : Statement (.rdstat) :=
  ⟨opTable[17], by decide, rfl, rfl⟩

theorem rderr : Statement (.rderr) :=
  ⟨opTable[18], by decide, rfl, rfl⟩

theorem sreset : Statement (.sreset) :=
  ⟨opTable[19], by decide, rfl, rfl⟩

end Sys2Proof.Laws.Spelling
end

