-- ==== Sys2Proof/Machine/HostTools.lean ====
section
/-! DEFINITION. Two tools beside the block, kept for its users: the assembler (spec/30_encoding.md R100, R101) and the files an
external writer makes of the output planes (spec/20_memory.md R68, R73). No step of the machine uses them. -/

namespace Sys2Proof.Machine

/-! ## Operands -/

/-- An operand as written: a number, or one of the words that `SETMODE` accepts (R100). -/
inductive AsmOperand where
  /-- an unsigned number -/
  | num (n : Nat)
  /-- any other spelling -/
  | name (w : String)
deriving DecidableEq, Repr

/-- The digits in the order of their values; a number in base `n` is written with the first `n` of them (R100). -/
def digitChars : List Char := "0123456789abcdef".toList

/-- What a character is worth in a base: its place among the base's digits, small or capital (notes/assumptions/10.md). -/
def digitIn (base : Nat) (c : Char) : Option Nat := (digitChars.take base).idxOf? c.toLower

/-- The number that the digits still to come make of the number read so far; `none` where one is no digit of the base. -/
def digitsValue (base acc : Nat) (cs : List Char) : Option Nat :=
  cs.foldlM (fun n c => (digitIn base c).map (base * n + ·)) acc

/-- A number: decimal digits, or hexadecimal digits after `0x` (R100). -/
def parseNumber : List Char → Option Nat
  | '0' :: 'x' :: d :: ds => digitsValue 16 0 (d :: ds)
  | d :: ds => digitsValue 10 0 (d :: ds)
  | [] => none

/-- One operand. -/
def parseOperand (cs : List Char) : AsmOperand :=
  match parseNumber cs with
  | some n => .num n
  | none => .name (String.ofList cs)

/-! ## Lines -/

/-- A blank. -/
def isBlank (c : Char) : Bool := c == ' ' || c == '\t'

/-- A text without the blanks at its two ends. -/
def trimBlanks (cs : List Char) : List Char :=
  ((cs.dropWhile isBlank).reverse.dropWhile isBlank).reverse

/-- The parts of a text between its commas. -/
def splitCommas : List Char → List (List Char)
  | [] => [[]]
  | c :: cs =>
    if c = ',' then [] :: splitCommas cs
    else match splitCommas cs with
      | [] => [[c]]
      | p :: ps => (c :: p) :: ps

/-- A line without its comment, as mnemonic and operands (R100). -/
def parseLine (line : List Char) : String × List AsmOperand :=
  let text := trimBlanks (line.takeWhile (· != ';'))
  let rest := trimBlanks (text.dropWhile fun c => !isBlank c)
  (String.ofList (text.takeWhile fun c => !isBlank c),
    if rest = [] then [] else (splitCommas rest).map fun p => parseOperand (trimBlanks p))

/-! ## Commands and pseudo-commands -/

/-- A number as a field of `n` bits; the assembler refuses one that does not fit (R100). -/
def fitField (n v : Nat) : Option (BitVec n) := if v < 2 ^ n then some (BitVec.ofNat n v) else none

/-- The command with no operand (R93). -/
def asmPlain : String → Option Instr
  | "NOP" => some .nop
  | "RDPIX" => some .rdpix
  | "RDDIM" => some .rddim
  | "DITHER" => some .dither
  | "REDUCE" => some .reduce
  | "ENCODE" => some .encode
  | "RDSTAT" => some .rdstat
  | "RDERR" => some .rderr
  | "SRESET" => some .sreset
  | _ => none

/-- `SETMODE` from its two-bit number (R100). -/
def asmMode (v : BitVec 2) : Instr := .setmode (v.getLsbD 0) (v.getLsbD 1)

/-- `NEAREST` from a 24-bit number `0xRRGGBB` (R100). -/
def asmNearest (v : BitVec 24) : Instr := .nearest (v.extractLsb' 16 8) (v.extractLsb' 8 8) (v.extractLsb' 0 8)

/-- The command with one number as operand (R93, R100). -/
def asmNumber (mn : String) (v : Nat) : Option Instr :=
  match mn with
  | "SETW" => (fitField 16 v).map .setw
  | "SETH" => (fitField 16 v).map .seth
  | "SETMODE" => (fitField 2 v).map asmMode
  | "SETBG" => (fitField 4 v).map .setbg
  | "SETPTR" => (fitField 18 v).map .setptr
  | "WRPIX" => (fitField 8 v).map .wrpix
  | "RDBMP" => (fitField 13 v).map .rdbmp
  | "RDCRAM" => (fitField 10 v).map .rdcram
  | "RDASG" => (fitField 11 v).map .rdasg
  | "RDPAL" => (fitField 4 v).map .rdpal
  | "NEAREST" => (fitField 24 v).map asmNearest
  | _ => none

/-- The words that `SETMODE` accepts (R100). -/
def asmModeWord : String → Option Instr
  | "HIRES" => some (.setmode false false)
  | "MC" => some (.setmode true false)
  | "STRICT" => some (.setmode false true)
  | "MC+STRICT" => some (.setmode true true)
  | _ => none

/-- A real command (R100). -/
def asmCommand (mn : String) : List AsmOperand → Option Instr
  | [] => asmPlain mn
  | [.num v] => asmNumber mn v
  | [.name w] => if mn = "SETMODE" then asmModeWord w else none
  | [.num r, .num g, .num b] =>
    if mn = "NEAREST" then do
      let r ← fitField 8 r
      let g ← fitField 8 g
      let b ← fitField 8 b
      some (.nearest r g b)
    else none
  | _ => none

/-- `WRRGB r, g, b`: three `WRPIX` (R101). -/
def wrRgb (c : Rgb) : List Instr := [.wrpix c.r, .wrpix c.g, .wrpix c.b]

/-- The pixels of a `LOAD`, each a 24-bit number `0xRRGGBB`, in order (R101). -/
def loadPixels : List AsmOperand → Option (List Instr)
  | [] => some []
  | .num v :: ps => do
    let c ← fitField 24 v
    let is ← loadPixels ps
    some (wrRgb ⟨c.extractLsb' 16 8, c.extractLsb' 8 8, c.extractLsb' 0 8⟩ ++ is)
  | .name _ :: _ => none

/-- The pseudo-commands, each a fixed sequence of real commands; `WRPAL` needs the palette (R101). -/
def asmPseudo (pal : Palette) (mn : String) (ops : List AsmOperand) : Option (List Instr) :=
  match mn, ops with
  | "SETDIM", [.num w, .num h] => do
    let w ← fitField 16 w
    let h ← fitField 16 h
    some [.setw w, .seth h]
  | "WRRGB", [.num r, .num g, .num b] => do
    let r ← fitField 8 r
    let g ← fitField 8 g
    let b ← fitField 8 b
    some (wrRgb ⟨r, g, b⟩)
  | "WRPAL", [.num i] => (fitField 4 i).map fun i => wrRgb (palAt pal i)
  | "LOAD", ps => (loadPixels ps).map (.setptr 0 :: ·)
  | "CONVERT", [] => some [.reduce, .encode]
  | "DCONVERT", [] => some [.dither, .reduce, .encode]
  | _, _ => none

/-- One line of assembler text as command words: none for an empty line, one for a command or a raw `.word`, several for a
pseudo-command; `none` where the assembler refuses the line (R100, R101). R100 spells a raw word only as `.word 0x........`; that
any number below 2^32 is taken there, decimal or of fewer digits, is the model's choice (notes/assumptions/10.md). -/
def assembleLine (pal : Palette) (line : String) : Option (List Word32) :=
  match parseLine line.toList with
  | ("", _) => some []
  | (".word", [.num v]) => (fitField 32 v).map ([·])
  | (mn, ops) =>
    match asmCommand mn ops with
    | some i => some [encode i]
    | none => (asmPseudo pal mn ops).map (·.map encode)

/-! ## Output files -/

/-- The bytes 0 to `n - 1` of a plane, where all have been written. -/
def planeBytes (m : Memory Byte) : Nat → Option (List Byte)
  | 0 => some []
  | n + 1 => do
    let bs ← planeBytes m n
    let b ← m.read n
    some (bs ++ [b])

/-- The bitmap file of the external writer: the load address 0x2000, low byte first, then `BITMAP` (R68, R73). -/
def bitmapFile (s : State) : Option (List Byte) := (planeBytes s.bitmap Config.bitmapBytes).map ([0x00, 0x20] ++ ·)

/-- The colour file of the external writer: the load address 0x0400, low byte first, then `CRAM` (R68, R73). -/
def colourFile (s : State) : Option (List Byte) := (planeBytes s.cram Config.cramBytes).map ([0x00, 0x04] ++ ·)

end Sys2Proof.Machine
end

