-- ==== Sys2Proof/Tests/Slice0.lean ====
section
/-! SUPPORT. The model's own tests: ill-formed operands, words written out from the encodings of spec/30_encoding.md, one or
two small cases a command from spec/95_test_vectors.md and the worked examples of the rules. The witnesses of the statements stand in
Sys2Proof/Tests/Witness.lean. -/

namespace Sys2Proof.Tests

open Sys2Proof.Machine

/-! ## Helpers -/

/-- The state a command answers, where it answers one. -/
def nextOf : Result → Option State
  | .next t => some t
  | .fault _ => none
  | .refused _ => none

/-- The state a palette-parametric command completes with, where it completes. -/
def okOf : Except Abort State → Option State
  | .ok t => some t
  | .error _ => none

/-- A grey. -/
def grey (v : Byte) : Rgb := ⟨v, v, v⟩

/-- The test palette TPAL of spec/95_test_vectors.md. It is not the palette of the block. -/
def tpal : Palette :=
  #v[grey 0, grey 255, ⟨255, 0, 0⟩, ⟨0, 255, 255⟩, ⟨255, 0, 255⟩, ⟨0, 255, 0⟩, ⟨0, 0, 255⟩, ⟨255, 255, 0⟩,
    ⟨255, 128, 0⟩, ⟨128, 64, 0⟩, ⟨255, 128, 128⟩, grey 64, grey 128, ⟨128, 255, 128⟩, ⟨128, 128, 255⟩, grey 192]

/-- The bytes of pixels in raster order (R61, R62). -/
def pixBytes (ps : List Rgb) : Memory Byte := (ps.flatMap fun c => [c.r, c.g, c.b]).zipIdx.map fun c => (c.2, c.1)

/-- The state with a loaded image. -/
def image (w h : BitVec 16) (ps : List Rgb) : State := { State.reset with width := w, height := h, pix := pixBytes ps }

/-- An image from an index map on the test palette. -/
def imageMap (w h : BitVec 16) (is : List Idx) : State := image w h (is.map (palAt tpal))

/-- `n` pixels of one index. -/
def run (n : Nat) (i : Idx) : List Idx := List.replicate n i

/-! ## Well-formedness: each check refuses an ill-formed operand (R94) -/

theorem test_setw_321_ill_formed : (Instr.setw 321).wellFormed = false ∧ (Instr.setw 320).wellFormed = true := by decide

theorem test_seth_201_ill_formed : (Instr.seth 201).wellFormed = false ∧ (Instr.seth 200).wellFormed = true := by decide

theorem test_rdbmp_8000_ill_formed : (Instr.rdbmp 8000).wellFormed = false ∧ (Instr.rdbmp 7999).wellFormed = true := by
  decide

theorem test_rdcram_1000_ill_formed : (Instr.rdcram 1000).wellFormed = false ∧ (Instr.rdcram 999).wellFormed = true := by
  decide

/-! ## Decoding: words written out bit by bit from R90 to R93 -/

theorem test_decode_nop : decode (0x00#8 ++ 0#24) = .command .nop := by decide

theorem test_decode_setw : decode (0b00000001#8 ++ 0#8 ++ 0b0000000101000000#16) = .command (.setw 320) := by decide

theorem test_decode_seth : decode (0b00000010#8 ++ 0#8 ++ 0b0000000011001000#16) = .command (.seth 200) := by decide

theorem test_decode_setmode :
    decode (0b00000011#8 ++ 0#22 ++ 0b01#2) = .command (.setmode true false) ∧
    decode (0b00000011#8 ++ 0#22 ++ 0b10#2) = .command (.setmode false true) := by decide

theorem test_decode_setbg : decode (0b00000100#8 ++ 0#20 ++ 0b1100#4) = .command (.setbg 12) := by decide

theorem test_decode_setptr : decode (0b00000101#8 ++ 0#6 ++ 0b100000000000000001#18) = .command (.setptr 0x20001) := by
  decide

theorem test_decode_wrpix : decode (0b00000110#8 ++ 0#16 ++ 0b11111010#8) = .command (.wrpix 0xFA) := by decide

theorem test_decode_rdpix : decode (0b00000111#8 ++ 0#24) = .command .rdpix := by decide

theorem test_decode_rdbmp : decode (0b00001000#8 ++ 0#11 ++ 0b1111100111101#13) = .command (.rdbmp 7997) := by decide

theorem test_decode_rdcram : decode (0b00001001#8 ++ 0#14 ++ 0b1111100111#10) = .command (.rdcram 999) := by decide

theorem test_decode_rdasg : decode (0b00001010#8 ++ 0#13 ++ 0b00000101001#11) = .command (.rdasg 41) := by decide

theorem test_decode_rddim : decode (0b00001011#8 ++ 0#24) = .command .rddim := by decide

theorem test_decode_rdpal : decode (0b00001100#8 ++ 0#20 ++ 0b1000#4) = .command (.rdpal 8) := by decide

theorem test_decode_nearest :
    decode (0b00010000#8 ++ 0b11111111#8 ++ 0b01000000#8 ++ 0b00000000#8) = .command (.nearest 255 64 0) := by decide

theorem test_decode_processing :
    decode (0b00010001#8 ++ 0#24) = .command .dither ∧ decode (0b00010010#8 ++ 0#24) = .command .reduce ∧
    decode (0b00010011#8 ++ 0#24) = .command .encode := by decide

theorem test_decode_system :
    decode (0b00100000#8 ++ 0#24) = .command .rdstat ∧ decode (0b00100001#8 ++ 0#24) = .command .rderr ∧
    decode (0b00101111#8 ++ 0#24) = .command .sreset := by decide

/-- IV1, IV2, IV5 to IV8, IV15: reserved opcodes and reserved bits. -/
theorem test_decode_illegal :
    decode 0x30000000 = .illegal .unknownOpcode ∧ decode 0x0D000000 = .illegal .unknownOpcode ∧
    decode 0x00000001 = .illegal .reservedBit ∧ decode 0x01010000 = .illegal .reservedBit ∧
    decode 0x03000004 = .illegal .reservedBit ∧ decode 0x04000010 = .illegal .reservedBit ∧
    decode 0x05040000 = .illegal .reservedBit ∧ decode 0x0C000010 = .illegal .reservedBit := by decide

theorem test_table_word : decodeTableWord 32 0x01000140 = some (.setw 320) ∧ decodeTableWord 32 0x30000000 = none := by
  decide

/-- No two rows of the opcode table share an opcode, and every row is one command's. -/
theorem test_rows_disjoint : opTable.Pairwise fun a b => opField a.pattern ≠ opField b.pattern := by decide

/-! ## Stepping: a presented word is fetched and run (R97) -/

theorem test_step_setw :
    nextOf (step (State.reset.withFetchWord 32 0x01000140)) = some { State.reset with width := 320 } := by decide

theorem test_step_illegal :
    (nextOf (step (State.reset.withFetchWord 32 0x30000000))).map (·.errinfo) = some 0x0130 := by decide

/-! ## Set-up and access (spec/95_test_vectors.md 2.7, and the worked examples of the rules) -/

/-- IV3. -/
theorem test_setw_321 : (nextOf (exec (.setw 321) State.reset)).map (·.errinfo) = some 0x0301 := by decide

/-- IV4. -/
theorem test_seth_201 : (nextOf (exec (.seth 201) State.reset)).map (·.errinfo) = some 0x0302 := by decide

/-- R232: `SETMODE STRICT` gives `STATUS[9:8] = 0b10`. -/
theorem test_setmode : (nextOf (exec (.setmode false true) State.reset)).map status = some 0x200 := by decide

/-- R233: `SETBG 12` gives `STATUS[13:10] = 12`. -/
theorem test_setbg : (nextOf (exec (.setbg 12) State.reset)).map status = some 0x3000 := by decide

theorem test_setptr : (nextOf (exec (.setptr 27) State.reset)).map (·.ptr) = some 27 := by decide

/-- R235: the third byte of a 1×1 image is accepted, the fourth is not and leaves `PTR`. -/
theorem test_wrpix :
    (nextOf (exec (.wrpix 0x33) { image 1 1 [] with ptr := 2 })).map (fun t => (t.pix, t.ptr)) = some ([(2, 0x33)], 3) ∧
    (nextOf (exec (.wrpix 0x33) { image 1 1 [] with ptr := 3 })).map (fun t => (t.errinfo, t.ptr)) = some (0x0506, 3) := by
  decide

theorem test_rdpix :
    (nextOf (exec .rdpix { image 1 1 [⟨0x11, 0x22, 0x33⟩] with ptr := 1 })).map (fun t => (t.resp, t.ptr)) =
      some (0x22, 2) := by decide

/-- U5: a byte that nothing has written. -/
theorem test_rdpix_unwritten : nextOf (exec .rdpix (image 1 1 [])) = none := by decide

/-- IV11, IV12: the range is checked before `OUTV`. -/
theorem test_rdbmp :
    (nextOf (exec (.rdbmp 8000) State.reset)).map (·.errinfo) = some 0x0308 ∧
    (nextOf (exec (.rdbmp 0) State.reset)).map (·.errinfo) = some 0x0408 := by decide

/-- IV13. -/
theorem test_rdcram : (nextOf (exec (.rdcram 1000) State.reset)).map (·.errinfo) = some 0x0309 := by decide

/-- IV14, HV6: `ASGV` is checked before the bound. -/
theorem test_rdasg :
    (nextOf (exec (.rdasg 0) State.reset)).map (·.errinfo) = some 0x040A ∧
    (nextOf (exec (.rdasg 0) { State.reset with asgv := true })).map (·.errinfo) = some 0x050A := by decide

/-- R240. -/
theorem test_rddim : (nextOf (exec .rddim (image 4 2 []))).map (·.resp) = some 0x00020004 := by decide

/-! ## System -/

theorem test_nop : nextOf (exec .nop (image 1 1 [grey 5])) = some (image 1 1 [grey 5]) := by decide

/-- R261: after a `PaletteOverflowError` under `SETMODE STRICT`. -/
theorem test_rdstat :
    (nextOf (exec .rdstat (raise .paletteOverflow 2 3 { State.reset with strict := true }))).map (·.resp) =
      some 0x00000203 := by decide

/-- R262: after the overflow of block row 2, column 3. -/
theorem test_rderr : (nextOf (exec .rderr (raise .paletteOverflow 2 3 State.reset))).map (·.resp) = some 0x00000203 := by
  decide

theorem test_sreset : nextOf (exec .sreset (raise .blockOverflow 0 1 (image 1 1 [grey 5]))) = some State.reset := by decide

/-- A faulted block discards a word and keeps the first error (R281). -/
theorem test_sticky :
    nextOf (issue 0x05000007 (raise .blockOverflow 0 1 State.reset)) = some (raise .blockOverflow 0 1 State.reset) := by
  decide

/-! ## Palette, on the test palette -/

/-- NV5, NV9, NV15: ties go to the lowest index. -/
theorem test_nearest :
    (nearestWith tpal ⟨255, 64, 0⟩ State.reset).resp = 2 ∧ (nearestWith tpal (grey 96) State.reset).resp = 11 ∧
    (nearestWith tpal (grey 223) State.reset).resp = 15 := by decide +kernel

/-- `RDPAL 8` gives `0x00FF8000`. -/
theorem test_rdpal : (rdpalWith tpal 8 State.reset).resp = 0x00FF8000 := by decide +kernel

/-! ## `DITHER`, on the test palette -/

/-- The `fs_share` values of 2.2. -/
theorem test_share :
    fsShare (-28) 7 = -12 ∧ fsShare (-28) 3 = -5 ∧ fsShare 24 5 = 7 ∧ fsShare (-11) 1 = 0 ∧ fsShare 255 7 = 111 ∧
    fsShare (-255) 7 = -111 ∧ fsShare 15 1 = 0 ∧ fsShare (-16) 1 = -1 := by decide

/-- DV2. -/
theorem test_dither_2x2 :
    okOf (ditherWith tpal fsShare (image 2 2 [⟨250, 10, 10⟩, grey 5, ⟨200, 200, 0⟩, grey 128])) =
      some (imageMap 2 2 [2, 0, 7, 12]) := by decide +kernel

/-- DV1. -/
theorem test_dither_3x2 :
    okOf (ditherWith tpal fsShare (image 3 2 (List.replicate 6 (grey 100)))) =
      some (imageMap 3 2 [12, 11, 12, 11, 12, 11]) := by decide +kernel

/-! ## `REDUCE`, on the test palette -/

/-- The image of HV1. -/
def hv1 : State := imageMap 8 8 (run 40 6 ++ run 8 1 ++ run 6 1 ++ run 2 2 ++ run 8 2)

/-- HV1: the output and the entry. -/
theorem test_reduce_hv1 :
    (okOf (reduceWith tpal hv1)).map (fun t => (t.pix, t.asg, t.asgv)) =
      some ((imageMap 8 8 (run 40 6 ++ run 14 1 ++ run 10 6)).pix, [(0, 0x016)], true) := by decide +kernel

/-- SV2 and SV4 in small: three colours in the second block, which is reported. -/
theorem test_reduce_strict_overflow :
    (nextOf (finish State.reset (reduceWith tpal { imageMap 11 1 (run 8 0 ++ [0, 2, 5]) with strict := true }))).map
      (fun t => (t.errcode, t.errinfo)) = some (1, 0x0001) := by decide +kernel

/-- SV1 in small: the first colour seen is the first slot. -/
theorem test_reduce_strict :
    (okOf (reduceWith tpal { imageMap 3 1 [4, 9, 9] with strict := true })).map (·.asg) = some [(0, 0x094)] := by
  decide +kernel

/-- MV1. -/
theorem test_reduce_mv1 :
    (okOf (reduceWith tpal { imageMap 4 8 (run 12 0 ++ run 10 2 ++ run 6 5 ++ [7, 7, 7, 6]) with mc := true })).map
      (fun t => (t.pix, t.asg)) =
      some ((imageMap 4 8 (run 12 0 ++ run 10 2 ++ run 6 5 ++ [7, 7, 7, 0])).pix, [(0, 0x752)]) := by decide +kernel

/-- MV4, MV4b: fillers step over occupied slots. -/
theorem test_fillers :
    localSlots (tally (run 32 1)) 2 = [1, 3, 4] ∧ localSlots (tally (run 16 14 ++ run 16 15)) 0 = [14, 15, 1] := by
  decide +kernel

/-! ## `ENCODE`, on the test palette -/

/-- EV2: the image of HV1 after its `REDUCE`. -/
theorem test_encode_hv1 :
    (okOf (reduceWith tpal hv1 >>= encodeWith tpal)).map (fun t =>
      ([0, 4, 5, 6, 7, 8, 7999].map fun a => t.bitmap.read a, t.cram.read 0, t.cram.read 999, status t)) =
      some ([some 0, some 0, some 0xFF, some 0xFC, some 0, some 0, some 0], some 0x16, some 0, 0x0030) := by decide +kernel

/-- P4 in small: a pixel of the second cell equals neither of its two colours. -/
theorem test_encode_overflow :
    (nextOf (finish State.reset (encodeWith tpal
      { imageMap 9 1 (run 8 0 ++ [2]) with asgv := true, asg := [(0, 0x010), (1, 0x031)] }))).map
        (fun t => (t.errcode, t.errinfo)) = some (4, 0x0001) := by decide +kernel

/-- EV6. -/
theorem test_encode_reset : (nextOf (exec .encode State.reset)).map (·.errinfo) = some 0x0413 := by decide

/-! ## R198 (d) needs `PalDistinct`: a palette in which the background colour also stands at a lower index -/

/-- Entries 2 and 5 are both black. -/
def dupPal : Palette :=
  #v[⟨255, 0, 0⟩, ⟨0, 255, 0⟩, grey 0, ⟨0, 0, 255⟩, ⟨40, 0, 0⟩, grey 0, grey 250, grey 251, grey 252, grey 253, grey 254,
    grey 255, grey 249, grey 248, grey 247, grey 246]

/-- A multicolour block, background 5. -/
def dupImage : State :=
  { image 4 8 ((run 15 0 ++ run 7 1 ++ run 4 3 ++ run 3 2 ++ run 3 4).map (palAt dupPal)) with mc := true, bgidx := 5 }

theorem test_multicolour_idempotence_needs_pal_distinct :
    (okOf (reduceWith dupPal dupImage >>= reduceWith dupPal)).map (·.pix) ≠ (okOf (reduceWith dupPal dupImage)).map (·.pix) := by
  decide +kernel

/-! ## The assembler and the output files (R100, R101, R73) -/

theorem test_assemble :
    assembleLine tpal "SETW 320 ; width" = some [0x01000140] ∧ assembleLine tpal "SETMODE MC" = some [0x03000001] ∧
    assembleLine tpal "WRPIX 0xFA" = some [0x060000FA] ∧ assembleLine tpal "NEAREST 255, 64, 0" = some [0x10FF4000] ∧
    assembleLine tpal "CONVERT" = some [0x12000000, 0x13000000] ∧ assembleLine tpal "SETBG 16" = none := by decide +kernel

theorem test_parse_number :
    ["0xfA", "320", "12a", "0x", "0xG"].map (fun w => parseNumber w.toList) = [some 250, some 320, none, none, none] := by
  decide +kernel

theorem test_plane_bytes :
    planeBytes [(0, 0x11), (1, 0x22)] 2 = some [0x11, 0x22] ∧ planeBytes [(0, 0x11)] 2 = none ∧
    colourFile State.reset = none := by decide +kernel

end Sys2Proof.Tests
end

