-- ==== Sys2Proof/Tests/Witness.lean ====
section
/-! SUPPORT. For every statement of Certificates/Slice0/Obligations.lean that has hypotheses: a concrete state and operands that
meet all of them together, clause by clause where there are several, at the edges of their ranges. Each theorem bears the
statement's name. -/

namespace Sys2Proof.Tests

open Sys2Proof.Machine

/-! ## States -/

/-- A 1×1 image, loaded. -/
def dot : State := image 1 1 [grey 7]

/-- A 1×1 image of the block's own colour 0. -/
def own : State := image 1 1 [palAt Config.pal 0]

/-- That image with its assignment made, as `REDUCE` may leave it. -/
def ready : State := { own with asg := [(0, 0x010)], asgv := true }

/-- The state with one word presented. -/
def word (cw : Word32) (s : State) : State := s.setPort [present cw]

/-- A state with a recorded fault. -/
def faulted : State := raise .blockOverflow 0 1 dot

theorem dot_written : PixWritten dot := by decide

theorem own_written : PixWritten own := by
  intro a ha
  have : a < 3 := ha
  match a, this with
  | 0, _ => rfl
  | 1, _ => rfl
  | 2, _ => rfl

theorem own_pixel : getPixel own.geom own.pix 0 0 = .ok (palAt Config.pal 0) := rfl

theorem dot_inv : Inv dot where
  width_le := by decide
  height_le := by decide
  err_iff := by decide
  errcode_legal := by decide
  errinfo_clear := fun _ => rfl
  mcflag_clear := rfl
  bitmap_written := fun h => by cases h
  cram_written := fun h => by cases h
  entries_ok := fun h => by cases h
  pix_ok := by decide
  asg_ok := by decide
  bitmap_ok := by decide
  cram_ok := by decide

theorem own_pix_ok : own.pix.wf ∧ own.pix.within 192000 := by
  simp [own, image, pixBytes, Memory.wf, Memory.within]

theorem ready_inv : Inv ready where
  width_le := by decide
  height_le := by decide
  err_iff := by decide
  errcode_legal := by decide
  errinfo_clear := fun _ => rfl
  mcflag_clear := rfl
  bitmap_written := fun h => by cases h
  cram_written := fun h => by cases h
  entries_ok := fun _ n hn => by
    obtain rfl : n = 0 := by have : n < 1 := hn; omega
    exact ⟨0x010, rfl, by rw [EntryOk, if_neg (by decide)]; decide⟩
  pix_ok := own_pix_ok
  asg_ok := by decide
  bitmap_ok := by decide
  cram_ok := by decide

theorem mem_own_block {xy : Nat × Nat} (h : xy ∈ own.geom.blockPixels 0 0) : xy = (0, 0) := by
  have h' : xy ∈ [(0, 0)] := h
  simpa using h'

/-! ## Encoding and the step -/

theorem witness_EncodeThenDecodeGivesTheCommand : decode 0x0500001B = .command (.setptr 27) := by decide

theorem witness_StepRunsTheDecodedCommand :
    (∀ cw : Word32, (word cw faulted).port = present cw :: [] ∧ (present cw).rst = false ∧ (present cw).cmd = some cw ∧
      (word cw faulted).err = true ∧ (word cw dot).port = present cw :: [] ∧ (word cw dot).err = false) ∧
    (0x20000001#32 ≠ 0x20000000 ∧ 0x20000001#32 ≠ 0x21000000 ∧ 0x20000001#32 ≠ 0x2F000000) ∧
    decode 0x11000000 = .command .dither ∧ decode 0x0E000000 = .illegal .unknownOpcode ∧
    decode 0x11000001 = .illegal .reservedBit :=
  ⟨fun _ => ⟨rfl, rfl, rfl, rfl, rfl, rfl⟩, by decide, by decide, by decide, by decide⟩

theorem witness_ResetInputWinsAndIdleHolds :
    (dot.setPort [⟨true, some 0⟩]).port = ⟨true, some 0⟩ :: [] ∧ (dot.setPort [⟨false, none⟩]).port = ⟨false, none⟩ :: [] ∧
    dot.port = [] := ⟨rfl, rfl, rfl⟩

theorem witness_IllegalWordsRaiseAndChangeNothingElse :
    (∀ row ∈ opTable, opField 0x0D000000 ≠ opField row.pattern) ∧
    (∃ row ∈ opTable, opField 0x0C000010 = opField row.pattern ∧ 0x0C000010 &&& row.mask ≠ row.pattern) := by decide

theorem witness_RecordedFaultStaysUntilReset :
    (word 0x20000000 faulted).err = true ∧ (word 0x20000000 faulted).port = present 0x20000000 :: [] := ⟨rfl, rfl⟩

/-! ## Set-up, data movement, system -/

theorem witness_SetwWritesWidth : (320 : BitVec 16).toNat ≤ 320 ∧ 320 < (321 : BitVec 16).toNat := by decide

theorem witness_SethWritesHeight : (200 : BitVec 16).toNat ≤ 200 ∧ 200 < (201 : BitVec 16).toNat := by decide

theorem witness_WrpixStoresAtPtr :
    (dot.setPtr 2).ptr.toNat < 3 * (dot.setPtr 2).width.toNat * (dot.setPtr 2).height.toNat ∧
    3 * (dot.setPtr 3).width.toNat * (dot.setPtr 3).height.toNat ≤ (dot.setPtr 3).ptr.toNat := by decide

theorem witness_RdpixLoadsAtPtr :
    ((dot.setPtr 2).ptr.toNat < 3 * (dot.setPtr 2).width.toNat * (dot.setPtr 2).height.toNat ∧
      (dot.setPtr 2).pix.read (dot.setPtr 2).ptr.toNat = some 7) ∧
    3 * (dot.setPtr 3).width.toNat * (dot.setPtr 3).height.toNat ≤ (dot.setPtr 3).ptr.toNat ∧
    ((image 1 1 []).ptr.toNat < 3 * (image 1 1 []).width.toNat * (image 1 1 []).height.toNat ∧
      (image 1 1 []).pix.read (image 1 1 []).ptr.toNat = none) := by decide

theorem witness_RdbmpAndRdcramReadThePlanes :
    8000 ≤ (8000 : BitVec 13).toNat ∧ ((7999 : BitVec 13).toNat < 8000 ∧ dot.outv = false) ∧
    ((7999 : BitVec 13).toNat < 8000 ∧ (dot.setOutput [(7999, 0x10)] [(999, 0x16)] false).outv = true ∧
      (dot.setOutput [(7999, 0x10)] [(999, 0x16)] false).bitmap.read (7999 : BitVec 13).toNat = some 0x10) ∧
    1000 ≤ (1000 : BitVec 10).toNat ∧ ((999 : BitVec 10).toNat < 1000 ∧ dot.outv = false) ∧
    ((999 : BitVec 10).toNat < 1000 ∧ (dot.setOutput [(7999, 0x10)] [(999, 0x16)] false).outv = true ∧
      (dot.setOutput [(7999, 0x10)] [(999, 0x16)] false).cram.read (999 : BitVec 10).toNat = some 0x16) := by decide

theorem witness_RdasgReadsTheAssignment :
    dot.asgv = false ∧ (ready.asgv = true ∧ ready.geom.nblk ≤ (1 : BitVec 11).toNat) ∧
    (ready.asgv = true ∧ (0 : BitVec 11).toNat < ready.geom.nblk ∧ ready.asg.read (0 : BitVec 11).toNat = some 0x010) :=
  ⟨rfl, ⟨rfl, by decide⟩, rfl, by decide, rfl⟩

theorem witness_RderrGivesErrinfo : Inv dot ∧ dot.err = false := ⟨dot_inv, rfl⟩

theorem witness_NopChangesNothing : opField 1 = 0 ∧ (1 : Word32) ≠ 0 ∧ dot.err = false := by decide

/-! ## Palette and dither -/

theorem tpal_distinct : PalDistinct tpal := by
  unfold PalDistinct
  decide +kernel

theorem witness_PaletteColourQuantisesToItself :
    PalDistinct tpal ∧ palAt dupPal 5 = palAt dupPal 2 := ⟨tpal_distinct, by decide⟩

theorem witness_SharesTruncateTowardZero :
    (0 : Int) ≤ 255 * 7 ∧ (-255 : Int) * 7 < 0 ∧ (0 : Int) ≤ 0 ∧ (-1 : Int) < 0 ∧ (-255 : Int) ≤ -255 ∧ (255 : Int) ≤ 255 := by
  decide

theorem witness_DitherCompletesAndKeepsTheRest : PixWritten dot := dot_written

theorem witness_DitherLeavesPaletteColours : ∃ t, exec .dither dot = .next t := by
  obtain ⟨t, ht⟩ := ditherWith_completes (pal := Config.pal) (share := fsShare) dot_written
  exact ⟨t, by rw [exec, execDither, ht, finish_ok]⟩

theorem witness_DitherKeepsPaletteImages : own.pix.wf ∧ AllPaletteColours Config.pal own := by
  refine ⟨own_pix_ok.1, fun x hx y hy => ⟨0, ?_⟩⟩
  obtain rfl : x = 0 := by have : x < 1 := hx; omega
  obtain rfl : y = 0 := by have : y < 1 := hy; omega
  exact own_pixel

theorem witness_DitherOfTwoByTwoUsesTheKernel :
    let s := image 2 2 [⟨250, 10, 10⟩, grey 5, ⟨200, 200, 0⟩, grey 128]
    s.width = 2 ∧ s.height = 2 ∧ getPixel s.geom s.pix 0 0 = .ok ⟨250, 10, 10⟩ ∧ getPixel s.geom s.pix 1 0 = .ok (grey 5) ∧
      getPixel s.geom s.pix 0 1 = .ok ⟨200, 200, 0⟩ ∧ getPixel s.geom s.pix 1 1 = .ok (grey 128) :=
  ⟨rfl, rfl, rfl, rfl, rfl, rfl⟩

/-! ## The reducer -/

theorem witness_ReduceInStrictMulticolourIsUnsupported :
    (dot.setMode true true).mc = true ∧ (dot.setMode true true).strict = true := ⟨rfl, rfl⟩

theorem witness_TwoPassSelectsTheMostFrequent :
    let one := tally [3, 3]
    let two := tally [3, 5, 5]
    (∃ j, 1 ≤ one j) ∧ (∀ j, j ≠ (selectHires one).1 → one j = 0) ∧ (∃ j, j ≠ (selectHires two).1 ∧ 1 ≤ two j) :=
  ⟨⟨3, by decide⟩, by decide +kernel, ⟨3, by decide +kernel⟩⟩

theorem witness_TwoPassReduceWorksFromTheOriginalPixels : dot.mc = false ∧ dot.strict = false ∧ PixWritten dot :=
  ⟨rfl, rfl, dot_written⟩

theorem reduce_completes {s : State} (hw : PixWritten s) (hst : s.strict = false) (hs : s.err = false) :
    ∃ t, exec .reduce s = .next t ∧ t.err = false := by
  obtain ⟨t, ht⟩ := reduceWith_completes (pal := Config.pal) hw hst
  obtain ⟨m, rfl, -⟩ := reduceWith_ok ht
  have h : exec .reduce s = .next (((s.setPix m.1).setAsg m.2).setAsgv true) := by rw [exec, execReduce, ht, finish_ok]
  exact ⟨_, h, hs⟩

theorem witness_HiresReduceLeavesTwoColoursPerBlock :
    ∃ t, dot.mc = false ∧ exec .reduce dot = .next t ∧ dot.err = false ∧ t.err = false := by
  obtain ⟨t, h, ht⟩ := reduce_completes dot_written rfl rfl
  exact ⟨t, rfl, h, rfl, ht⟩

theorem witness_TwoPassReduceIsIdempotentOnPixels :
    ∃ t, dot.pix.wf ∧ dot.mc = false ∧ dot.strict = false ∧ exec .reduce dot = .next t := by
  obtain ⟨t, h, -⟩ := reduce_completes dot_written rfl rfl
  exact ⟨t, by decide, rfl, rfl, h⟩

/-- Eight pixels of colour 0, then three of three colours. -/
def overflowing : State := { imageMap 11 1 (run 8 0 ++ [0, 2, 5]) with strict := true }

theorem witness_StrictReduceReportsTheFirstOverflow :
    overflowing.mc = false ∧ overflowing.strict = true ∧ PixWritten overflowing ∧ 0 < overflowing.geom.nby ∧
      1 < overflowing.geom.nbx ∧ ThreeColours tpal overflowing 0 1 ∧
      ∀ r < overflowing.geom.nby, ∀ c < overflowing.geom.nbx, BlockBefore r c 0 1 → ¬ ThreeColours tpal overflowing r c := by
  refine ⟨rfl, rfl, by decide +kernel, by decide, by decide, ⟨[0, 2, 5], by unfold BlockIndices; decide +kernel, 0, by decide, 2, by decide,
    5, by decide, by decide⟩, fun r hr c hc hb => ?_⟩
  obtain ⟨rfl, rfl⟩ : r = 0 ∧ c = 0 := by
    have : r < 1 := hr
    rcases hb with h | ⟨h, h'⟩ <;> omega
  have h : BlockIndices tpal overflowing 0 0 (run 8 0) := by unfold BlockIndices; decide +kernel
  rintro ⟨is, his, i, hi, j, hj, -, -, hij, -⟩
  have : is = run 8 0 := by have := his.symm.trans h; cases this; rfl
  subst this
  exact hij ((List.eq_of_mem_replicate hi).trans (List.eq_of_mem_replicate hj).symm)

theorem witness_StrictReduceKeepsTheFirstSeenPair :
    (dot.setMode false true).mc = false ∧ (dot.setMode false true).strict = true ∧ PixWritten (dot.setMode false true) ∧
      ∀ row < (dot.setMode false true).geom.nby, ∀ col < (dot.setMode false true).geom.nbx,
        ¬ ThreeColours Config.pal (dot.setMode false true) row col := by
  refine ⟨rfl, rfl, dot_written, fun row hr col hc => ?_⟩
  obtain rfl : row = 0 := by have : row < 1 := hr; omega
  obtain rfl : col = 0 := by have : col < 1 := hc; omega
  rintro ⟨is, his, i, hi, j, hj, -, -, hij, -⟩
  have : is = [nearest16 Config.pal (grey 7)] := by
    have h : BlockIndices Config.pal (dot.setMode false true) 0 0 [nearest16 Config.pal (grey 7)] := rfl
    have := his.symm.trans h
    cases this
    rfl
  subst this
  exact hij ((List.mem_singleton.1 hi).trans (List.mem_singleton.1 hj).symm)

theorem witness_LocalsAreTheTopRankedCandidates :
    let cnt := tally [9, 9, 4, 4, 12, 8]
    (4 : Idx) ∈ selectLocals cnt 0 ∧ (12 : Idx) ≠ 0 ∧ 1 ≤ cnt 12 ∧ (12 : Idx) ∉ selectLocals cnt 0 := by decide +kernel

theorem witness_FillersAreTheNextFreeIndices :
    let cnt := tally [0]
    let slots := 1 :: localSlots cnt 1
    (selectLocals cnt 1).length < 2 ∧ 2 < 4 ∧ 0 < 1 ∧ 1 < (slots.getD 2 0 - slots.getD (2 - 1) 0).toNat := by decide +kernel

theorem witness_MulticolourReduceWorksFromTheOriginalPixels :
    (dot.setMode true false).mc = true ∧ (dot.setMode true false).strict = false ∧ PixWritten (dot.setMode true false) :=
  ⟨rfl, rfl, dot_written⟩

theorem witness_MulticolourReduceLeavesFourColoursPerBlock :
    ∃ t, (dot.setMode true false).mc = true ∧ exec .reduce (dot.setMode true false) = .next t ∧
      (dot.setMode true false).err = false ∧ t.err = false := by
  obtain ⟨t, h, ht⟩ := reduce_completes (s := dot.setMode true false) dot_written rfl rfl
  exact ⟨t, rfl, h, rfl, ht⟩

theorem witness_MulticolourReduceIsIdempotentWhenPalDistinct :
    ∃ t, PalDistinct tpal ∧ (dot.setMode true false).pix.wf ∧ (dot.setMode true false).mc = true ∧
      reduceWith tpal (dot.setMode true false) = .ok t := by
  obtain ⟨t, ht⟩ := reduceWith_completes (pal := tpal) (s := dot.setMode true false) dot_written rfl
  exact ⟨t, tpal_distinct, by decide, rfl, ht⟩

theorem witness_BackgroundPixelsStayBackground :
    let s := (dot.setMode true false).setBgidx (nearest16 Config.pal (grey 7))
    ∃ t, s.mc = true ∧ s.err = false ∧ exec .reduce s = .next t ∧ t.err = false ∧ 0 < s.geom.width ∧ 0 < s.geom.height ∧
      getPixel s.geom s.pix 0 0 = .ok (grey 7) ∧ nearest16 Config.pal (grey 7) = s.bgidx := by
  intro s
  obtain ⟨t, h, ht⟩ := reduce_completes (s := s) dot_written rfl rfl
  exact ⟨t, rfl, rfl, h, ht, Nat.one_pos, Nat.one_pos, rfl, rfl⟩

theorem witness_HiresReduceIgnoresTheBackground : ∃ t, dot.mc = false ∧ exec .reduce dot = .next t := by
  obtain ⟨t, h, -⟩ := reduce_completes dot_written rfl rfl
  exact ⟨t, rfl, h⟩

/-! ## The encoder -/

theorem witness_EncodeChecksModeThenAssignment :
    (dot.setMode true false).mc = true ∧ (dot.mc = false ∧ dot.asgv = false) := ⟨rfl, rfl, rfl⟩

/-- Some grey is neither of two colours. -/
theorem exists_other (a b : Rgb) : ∃ v : Byte, grey v ≠ a ∧ grey v ≠ b := by
  by_cases h0 : grey 0 ≠ a ∧ grey 0 ≠ b
  · exact ⟨0, h0⟩
  · by_cases h1 : grey 1 ≠ a ∧ grey 1 ≠ b
    · exact ⟨1, h1⟩
    · refine ⟨2, ?_, ?_⟩ <;> rintro rfl <;> simp [grey] at h0 h1 <;> rw [← h0] at h1 <;> exact absurd h1 (by decide)

/-- A 1×1 image of a grey, assigned the colours 0 and 1. -/
def tampered (v : Byte) : State := { image 1 1 [grey v] with asg := [(0, 0x010)], asgv := true }

theorem tampered_geom (v : Byte) : (tampered v).geom = dot.geom := rfl

theorem witness_EncodeReportsTheFirstOverflowingCell :
    ∃ s : State, s.mc = false ∧ s.asgv = true ∧ PixWritten s ∧ s.asg.writtenBelow s.geom.nblk ∧ 0 < s.geom.nby ∧
      0 < s.geom.nbx ∧ CellOverflows Config.pal s 0 0 ∧
      ∀ r < s.geom.nby, ∀ c < s.geom.nbx, BlockBefore r c 0 0 → ¬ CellOverflows Config.pal s r c := by
  obtain ⟨v, h0, h1⟩ := exists_other (palAt Config.pal 0) (palAt Config.pal 1)
  refine ⟨tampered v, rfl, rfl, ?_, ?_, ?_, ?_, ?_, ?_⟩
  · intro a ha
    have : a < 3 := ha
    match a, this with
    | 0, _ => rfl
    | 1, _ => rfl
    | 2, _ => rfl
  · intro n hn
    rw [tampered_geom] at hn
    obtain rfl : n = 0 := by have : n < 1 := hn; omega
    rfl
  · rw [tampered_geom]; decide
  · rw [tampered_geom]; decide
  · refine ⟨0x010, by rw [tampered_geom]; rfl, (0, 0), by rw [tampered_geom]; decide, grey v, rfl, ?_⟩
    show classify Config.pal 0 1 (grey v) = .neither
    rw [classify, if_neg h0, if_neg h1]
  · intro r _ c _ hb
    rcases hb with h | ⟨_, h⟩ <;> omega

theorem ready_no_overflow : ∀ row < ready.geom.nby, ∀ col < ready.geom.nbx, ¬ CellOverflows Config.pal ready row col := by
  intro row hr col hc
  obtain rfl : row = 0 := by have : row < 1 := hr; omega
  obtain rfl : col = 0 := by have : col < 1 := hc; omega
  rintro ⟨e, he, xy, hxy, p, hp, hn⟩
  obtain rfl := mem_own_block hxy
  have he' : e = 0x010 := (Option.some.inj he).symm
  have hp' : p = palAt Config.pal 0 := by have := hp.symm.trans own_pixel; cases this; rfl
  subst he' hp'
  have : classify Config.pal 0 1 (palAt Config.pal 0) = .neither := hn
  simp [classify] at this

theorem ready_entries : ready.asg.writtenBelow ready.geom.nblk := by
  intro n hn
  obtain rfl : n = 0 := by have : n < 1 := hn; omega
  rfl

theorem witness_EncodeWritesTheHiresLayout :
    ready.mc = false ∧ ready.asgv = true ∧ ready.width.toNat ≤ 320 ∧ ready.height.toNat ≤ 200 ∧ PixWritten ready ∧
      ready.asg.writtenBelow ready.geom.nblk ∧
      ∀ row < ready.geom.nby, ∀ col < ready.geom.nbx, ¬ CellOverflows Config.pal ready row col :=
  ⟨rfl, rfl, by decide, by decide, own_written, ready_entries, ready_no_overflow⟩

/-! A full screen, for the cell in row 24 and column 39. -/

/-- The byte of a colour at an address of `PIX`. -/
def chanByte (c : Rgb) (a : Nat) : Byte := if a % 3 = 0 then c.r else if a % 3 = 1 then c.g else c.b

/-- A 320×200 image of the block's own colour 0, every block assigned the colours 0 and 1. -/
def screen : State :=
  { State.reset with
    width := 320, height := 200, asgv := true
    pix := (List.range' 0 192000).map fun a => (a, chanByte (palAt Config.pal 0) a)
    asg := Memory.fill 1000 0x010 }

theorem screen_geom : screen.geom = ⟨320, 200, 8⟩ := rfl

theorem screen_read {a : Nat} (h : a < 192000) : screen.pix.read a = some (chanByte (palAt Config.pal 0) a) :=
  (Memory.read_map_range' _ 192000 0 a).trans (if_pos ⟨Nat.zero_le a, by omega⟩)

theorem screen_written : PixWritten screen := fun a ha => by
  rw [screen_read (show a < 192000 from ha)]; rfl

theorem screen_pixel {x y : Nat} (hx : x < 320) (hy : y < 200) :
    getPixel screen.geom screen.pix x y = .ok (palAt Config.pal 0) := by
  have ha : (Geometry.addr ⟨320, 200, 8⟩ x y) = (y * 320 + x) * 3 := rfl
  rw [getPixel_ok_iff, screen_geom, ha, screen_read (by omega), screen_read (by omega), screen_read (by omega)]
  refine ⟨?_, ?_, ?_⟩ <;> simp [chanByte, Nat.add_mod]

theorem screen_entry {n : Nat} (h : n < 1000) : screen.asg.read n = some 0x010 := by
  rw [screen, Memory.read_fill, if_pos h]

theorem screen_entries : screen.asg.writtenBelow screen.geom.nblk := fun n hn => by
  rw [screen_entry (show n < 1000 from hn)]; rfl

theorem screen_no_overflow :
    ∀ row < screen.geom.nby, ∀ col < screen.geom.nbx, ¬ CellOverflows Config.pal screen row col := by
  rintro row hr col hc ⟨e, he, xy, hxy, p, hp, hn⟩
  rw [screen_entry (show _ < 1000 from Geometry.asgIndex_lt hr hc)] at he
  obtain ⟨hx, hy⟩ := Geometry.blockPixels_lt hxy
  rw [screen_pixel hx hy] at hp
  cases he
  cases hp
  have : classify Config.pal 0 1 (palAt Config.pal 0) = .neither := hn
  simp [classify] at this

theorem witness_EncodeWritesTheHiresLayout_lastCell :
    (screen.mc = false ∧ screen.asgv = true ∧ screen.width.toNat ≤ 320 ∧ screen.height.toNat ≤ 200 ∧ PixWritten screen ∧
      screen.asg.writtenBelow screen.geom.nblk ∧
      ∀ row < screen.geom.nby, ∀ col < screen.geom.nbx, ¬ CellOverflows Config.pal screen row col) ∧
    24 < screen.geom.nby ∧ 39 < screen.geom.nbx ∧ screen.asg.read (24 * screen.geom.nbx + 39) = some 0x010 :=
  ⟨⟨rfl, rfl, Nat.le_refl _, Nat.le_refl _, screen_written, screen_entries, screen_no_overflow⟩,
    show 24 < 25 by decide, show 39 < 40 by decide, screen_entry (show 24 * 40 + 39 < 1000 by decide)⟩

theorem witness_EncodeAfterReduceCompletes :
    ∃ t, Inv dot ∧ dot.mc = false ∧ dot.err = false ∧ exec .reduce dot = .next t ∧ t.err = false := by
  obtain ⟨t, h, ht⟩ := reduce_completes dot_written rfl rfl
  exact ⟨t, dot_inv, rfl, rfl, h, ht⟩

theorem witness_EncodedPlanesDecodeToThePicture :
    ∃ t, Inv ready ∧ ready.err = false ∧ exec .encode ready = .next t ∧ t.err = false := by
  obtain ⟨planes, he, -⟩ := encodeWith_of_ready (pal := Config.pal) (s := ready) rfl rfl own_written (by decide) (by decide)
    (fun n hn => Option.isSome_iff_exists.1 (ready_entries n hn)) fun rc hrc => by
      obtain ⟨hr, hc⟩ := Geometry.mem_blocks.1 hrc
      obtain ⟨e, he⟩ := Option.isSome_iff_exists.1 (ready_entries _ (Geometry.asgIndex_lt hr hc))
      rcases checkCell_of_written (pal := Config.pal) (rc := rc) own_written he with ⟨-, h⟩ | ⟨h, -⟩
      · exact h
      · exact absurd ⟨e, he, h⟩ (ready_no_overflow _ hr _ hc)
  exact ⟨_, ready_inv, rfl, by rw [exec, execEncode, he, finish_ok], rfl⟩

/-! ## The whole machine -/

/-- A command that faults, which the next statements' hypotheses name. -/
theorem faulting : ∃ t, exec (.setw 321) dot = .next t ∧ dot.err = false ∧ t.err = true := ⟨_, rfl, rfl, rfl⟩

theorem witness_FaultsArePrecise : ∃ t, exec (.setw 321) dot = .next t ∧ dot.err = false ∧ t.err = true := faulting

theorem witness_CommandsRaiseOnlyTheirErrors : ∃ t, exec (.setw 321) dot = .next t ∧ dot.err = false ∧ t.err = true := faulting

theorem witness_OnlyReadCommandsWriteResp :
    (∃ t, exec (.setptr 7) dot = .next t ∧ writesResp (.setptr 7) = false) ∧
    ∃ t, exec (.rdbmp 8000) dot = .next t ∧ dot.err = false ∧ t.err = true := ⟨⟨_, rfl, rfl⟩, _, rfl, rfl, rfl⟩

theorem witness_PixelAndAssignmentMemoryHaveFewWriters :
    (∃ t, exec .rderr dot = .next t ∧ writesPix .rderr = false) ∧
    (∃ t, exec (.wrpix 9) dot = .next t ∧ Instr.wrpix 9 ≠ .sreset ∧ dot.geom.ext ≤ 3) ∧
    (∃ t, exec (.setbg 9) ready = .next t ∧ Instr.setbg 9 ≠ .reduce ∧ Instr.setbg 9 ≠ .sreset) :=
  ⟨⟨_, rfl, rfl⟩, ⟨_, rfl, by decide, by decide⟩, _, rfl, by decide, by decide⟩

theorem witness_OutputsStayUntilTheNextEncode :
    ∃ t, exec (.setptr 7) (dot.setOutput [] [] false) = .next t ∧ Instr.setptr 7 ≠ .encode ∧ Instr.setptr 7 ≠ .sreset ∧
      (dot.setOutput [] [] false).outv = true := ⟨_, rfl, by decide, by decide, rfl⟩

theorem witness_AsgvFollowsItsRule :
    (∃ t, exec (.setbg 9) ready = .next t ∧ clearsAsgv (.setbg 9) = true ∧ t.err = false) ∧
    (∃ t, exec .reduce dot = .next t ∧ dot.err = false ∧ t.err = false) ∧
    (∃ t, exec (.setptr 7) ready = .next t ∧ clearsAsgv (.setptr 7) = false ∧ Instr.setptr 7 ≠ .reduce) ∧
    (∃ t, exec (.setw 321) ready = .next t ∧ ready.err = false ∧ t.err = true) := by
  obtain ⟨t, h, ht⟩ := reduce_completes dot_written rfl rfl
  exact ⟨⟨_, rfl, rfl, rfl⟩, ⟨t, h, rfl, ht⟩, ⟨_, rfl, rfl, by decide⟩, _, rfl, rfl, rfl⟩

theorem witness_EveryStepKeepsTheInvariant : ∃ t, Inv (word 0x05000007 dot) ∧ step (word 0x05000007 dot) = .next t :=
  ⟨_, dot_inv.setPort _, rfl⟩

theorem witness_WrittenImageStaysWritten :
    ∃ t, PixWritten dot ∧ exec .rderr dot = .next t ∧ (∀ v, Instr.rderr ≠ .setw v) ∧ ∀ v, Instr.rderr ≠ .seth v :=
  ⟨_, dot_written, rfl, by simp, by simp⟩

theorem witness_OnlyUnwrittenPixelsAreRefused :
    ∃ s r, Inv s ∧ exec .rdpix s = .refused r :=
  ⟨{ dot with pix := [] }, _, { dot_inv with pix_ok := by decide }, rfl⟩

theorem witness_StepsOfWrittenImagesComplete : Inv dot ∧ PixWritten dot := ⟨dot_inv, dot_written⟩

end Sys2Proof.Tests
end

section
/-! PROOFS. The family of spec/10_state.md: who writes which part of the state (R25, R32 to R39), the invariant (R43) and the view
`STATUS` (R28). What a command leaves unchanged is one structure, `Frame`, proved once from `exec_cases`. -/

namespace Sys2Proof.Machine

variable {i : Instr} {s t : State}

/-! ## What a command keeps -/

/-- The fields that a command that answers a next state leaves unchanged: `RESP` (R25), `PIX` and `ASG` (R36, R37), the output
aggregate (R33, R34, R38, R39) and `ASGV` (R32). -/
structure Frame (i : Instr) (s t : State) : Prop where
  /-- `RESP`, for every command that is no read command and no reset -/
  resp : writesResp i = false → t.resp = s.resp
  /-- `PIX`, for every command that does not write it -/
  pix : writesPix i = false → t.pix = s.pix
  /-- `ASG`, for every command but `REDUCE` and reset -/
  asg : i ≠ .reduce → i ≠ .sreset → t.asg = s.asg
  /-- the output aggregate, for every command but `ENCODE` and reset -/
  output : i ≠ .encode → i ≠ .sreset →
    t.bitmap = s.bitmap ∧ t.cram = s.cram ∧ t.mcflag = s.mcflag ∧ t.outv = s.outv
  /-- `ASGV`, for every command that neither clears nor sets it -/
  asgv : clearsAsgv i = false → i ≠ .reduce → t.asgv = s.asgv

/-- Taking an error writes none of them (R279, R280). -/
theorem Frame.raise (i : Instr) (s : State) (e : ErrKind) (hi lo : Byte) : Frame i s (raise e hi lo s) where
  resp _ := rfl
  pix _ := rfl
  asg _ _ := rfl
  output _ _ := ⟨rfl, rfl, rfl, rfl⟩
  asgv _ _ := rfl

theorem Completes.frame (h : Completes i s t) : Frame i s t := by
  cases i <;> simp only [Completes] at h
  case' nop | setmode | setbg | setptr | sreset => subst h
  case' setw | seth | wrpix => obtain ⟨-, rfl⟩ := h
  case' rdpix => obtain ⟨-, v, -, rfl⟩ := h
  case' rdbmp | rdcram | rdasg | rddim | rdpal | nearest | rdstat | rderr => obtain ⟨r, rfl⟩ := h
  case' dither | reduce => obtain ⟨m, rfl, -⟩ := h
  case' encode => obtain ⟨-, -, planes, rfl, -⟩ := h
  all_goals constructor <;> simp [writesResp, writesPix, clearsAsgv]

theorem exec_frame (h : exec i s = .next t) : Frame i s t := by
  rcases exec_cases h with ⟨e, hi, lo, -, rfl⟩ | hc
  · exact .raise i s e hi lo
  · exact hc.frame

/-- A command that sets `ERR` has raised an error upon the state it started in (R270, R280). -/
theorem exec_eq_raise (h : exec i s = .next t) (hs : s.err = false) (ht : t.err = true) :
    ∃ e hi lo, t = raise e hi lo s := by
  rcases exec_cases h with ⟨e, hi, lo, -, rfl⟩ | hc
  · exact ⟨e, hi, lo, rfl⟩
  · rw [hc.err hs] at ht
    cases ht

/-- A command after which `ERR` is 0 has completed. -/
theorem exec_completes (h : exec i s = .next t) (ht : t.err = false) : Completes i s t := by
  rcases exec_cases h with ⟨e, hi, lo, -, rfl⟩ | hc
  · cases ht
  · exact hc

/-- A command that completes changes no byte of `PIX` at or above `EXT`, unless it is `SRESET` (R36, R241). -/
theorem Completes.pix_above (h : Completes i s t) (hi : i ≠ .sreset) {a : Nat} (ha : s.geom.ext ≤ a) :
    t.pix.read a = s.pix.read a := by
  by_cases hw : writesPix i = false
  · rw [h.frame.pix hw]
  · cases i <;> simp only [writesPix, not_true_eq_false] at hw
    case sreset => exact absurd rfl hi
    case wrpix v =>
      obtain ⟨hp, rfl⟩ := h
      exact Memory.read_write_of_ne _ _ (by omega)
    case dither =>
      obtain ⟨pix, rfl, hk⟩ := h
      exact hk.above a ha
    case reduce =>
      obtain ⟨m, rfl, hk, -⟩ := h
      exact hk.pix.above a ha

theorem exec_pix_above (h : exec i s = .next t) (hi : i ≠ .sreset) {a : Nat} (ha : s.geom.ext ≤ a) :
    t.pix.read a = s.pix.read a := by
  rcases exec_cases h with ⟨e, hi, lo, -, rfl⟩ | hc
  · rfl
  · exact hc.pix_above hi ha

theorem Completes.asgv_of_clears (h : Completes i s t) (hi : clearsAsgv i = true) : t.asgv = false := by
  cases i <;> simp only [clearsAsgv, Bool.false_eq_true] at hi
  case setw | seth => obtain ⟨-, rfl⟩ := h; rfl
  case setmode | setbg | sreset => cases h; rfl

theorem Completes.asgv_of_reduce (h : Completes .reduce s t) : t.asgv = true := by
  obtain ⟨m, rfl, -⟩ := h
  rfl

theorem Completes.outv_of_encode (h : Completes .encode s t) : t.outv = true := by
  obtain ⟨-, -, planes, rfl, -⟩ := h
  rfl

/-- `OUTV` stays 1 under every command but `SRESET` (R33). -/
theorem exec_keeps_outv (h : exec i s = .next t) (hi : i ≠ .sreset) (hs : s.outv = true) : t.outv = true := by
  by_cases he : i = .encode
  · subst he
    rcases exec_cases h with ⟨e, hi, lo, -, rfl⟩ | hc
    · exact hs
    · exact hc.outv_of_encode
  · obtain ⟨-, -, -, ho⟩ := (exec_frame h).output he hi
    exact ho.trans hs

/-! ## The invariant -/

theorem Inv.reset : Inv State.reset where
  width_le := by decide
  height_le := by decide
  err_iff := by decide
  errcode_legal := by decide
  errinfo_clear _ := rfl
  mcflag_clear := rfl
  bitmap_written := nofun
  cram_written := nofun
  entries_ok := nofun
  pix_ok := by decide
  asg_ok := by decide
  bitmap_ok := by decide
  cram_ok := by decide

theorem Inv.resetBlock (s : State) : Inv (resetBlock s) := Inv.reset.setPort s.port

theorem Inv.setWidth (h : Inv s) {v : BitVec 16} (hv : v.toNat ≤ 320) : Inv ((s.setWidth v).setAsgv false) :=
  { h with width_le := hv, entries_ok := nofun }

theorem Inv.setHeight (h : Inv s) {v : BitVec 16} (hv : v.toNat ≤ 200) : Inv ((s.setHeight v).setAsgv false) :=
  { h with height_le := hv, entries_ok := nofun }

theorem Inv.setMode (h : Inv s) (mc strict : Bool) : Inv ((s.setMode mc strict).setAsgv false) :=
  { h with entries_ok := nofun }

theorem Inv.setBgidx (h : Inv s) (k : Idx) : Inv ((s.setBgidx k).setAsgv false) := { h with entries_ok := nofun }

theorem Inv.setPix (h : Inv s) {pix : Memory Byte} (hp : pix.wf ∧ pix.within 192000) : Inv (s.setPix pix) :=
  { h with pix_ok := hp }

/-- A write of `PIX` below `EXT` stays within its capacity (R36, R241). -/
theorem Inv.write_pix (h : Inv s) {a : Nat} (ha : a < s.geom.ext) (v : Byte) : Inv (s.setPix (s.pix.write a v)) :=
  have ⟨hwf, hin⟩ := h.pix_ok
  h.setPix ⟨Memory.wf_write hwf a v, Memory.within_write hin (ha.trans_le h.ext_le) v⟩

/-- A processing command that works in place on the image keeps `PIX` canonical and within its capacity (R36). -/
theorem Inv.pixKept (h : Inv s) {pix : Memory Byte} (hk : PixKept s.geom s.pix pix) : Inv (s.setPix pix) :=
  have ⟨hwf, hin⟩ := h.pix_ok
  h.setPix ⟨hk.wf hwf, hk.within _ h.ext_le hin⟩

/-- A complete and well-formed assignment may be marked valid (R32, R37, R43). -/
theorem Inv.setAssignment (h : Inv s) {asg : Memory AsgEntry} (hk : AsgKept s.geom s.asg asg)
    (he : ∀ n < s.geom.nblk, ∃ e, asg.read n = some e ∧ EntryOk s.mc s.bgidx e) : Inv ((s.setAsg asg).setAsgv true) :=
  have ⟨hwf, hin⟩ := h.asg_ok
  { h with asg_ok := ⟨hk.wf hwf, hk.within _ h.nblk_le hin⟩, entries_ok := fun _ => he }

/-- Two fully written planes may be marked valid (R33, R38, R39, R43). -/
theorem Inv.setOutput (h : Inv s) {bitmap cram : Memory Byte} (hb : PlaneOk 8000 bitmap) (hc : PlaneOk 1000 cram) :
    Inv (s.setOutput bitmap cram false) :=
  { h with
    mcflag_clear := rfl
    bitmap_written := fun _ => hb.written
    cram_written := fun _ => hc.written
    bitmap_ok := ⟨hb.wf, hb.within⟩
    cram_ok := ⟨hc.wf, hc.within⟩ }

/-- Each command that completes makes an update that keeps the invariant. -/
theorem Completes.inv (h : Completes i s t) (hs : Inv s) : Inv t := by
  cases i <;> simp only [Completes] at h
  case nop => subst h; exact hs
  case setw v => obtain ⟨hv, rfl⟩ := h; exact hs.setWidth hv
  case seth v => obtain ⟨hv, rfl⟩ := h; exact hs.setHeight hv
  case setmode mc strict => subst h; exact hs.setMode mc strict
  case setbg k => subst h; exact hs.setBgidx k
  case setptr a => subst h; exact hs.setPtr a
  case wrpix v => obtain ⟨hp, rfl⟩ := h; exact (hs.write_pix hp v).setPtr _
  case rdpix => obtain ⟨-, v, -, rfl⟩ := h; exact (hs.setResp _).setPtr _
  case dither => obtain ⟨pix, rfl, hk⟩ := h; exact hs.pixKept hk
  case reduce => obtain ⟨m, rfl, hk, he⟩ := h; exact (hs.pixKept hk.pix).setAssignment hk.asg he
  case encode =>
    obtain ⟨-, -, planes, rfl, hp⟩ := h
    obtain ⟨hb, hc⟩ := hp hs.width_le hs.height_le
    exact hs.setOutput hb hc
  case sreset => subst h; exact .resetBlock s
  all_goals obtain ⟨r, rfl⟩ := h; exact hs.setResp r

theorem exec_keeps_inv (hs : Inv s) (h : exec i s = .next t) : Inv t := by
  rcases exec_cases h with ⟨e, hi, lo, hr, rfl⟩ | hc
  · exact hs.raise hr.ne_invalidPalette hi lo
  · exact hc.inv hs

/-- A presented word executes a command, raises the illegal-command error, or is discarded (R95 to R97, R281). -/
theorem issue_cases {cw : Word32} (h : issue cw s = .next t) :
    (∃ i, exec i s = .next t) ∨ (∃ reason, t = raise .illegalCommand reason (opField cw) s) ∨ t = s := by
  unfold issue at h
  split at h
  · unfold issueFaulted at h
    split at h
    · exact .inl ⟨_, h⟩
    · split at h
      · exact .inl ⟨_, h⟩
      · split at h
        · exact .inl ⟨_, h⟩
        · cases h; exact .inr (.inr rfl)
  · unfold issueAccepted at h
    split at h
    · exact .inl ⟨_, h⟩
    · cases h; exact .inr (.inl ⟨1, rfl⟩)
    · cases h; exact .inr (.inl ⟨2, rfl⟩)

theorem issue_keeps_inv {cw : Word32} (hs : Inv s) (h : issue cw s = .next t) : Inv t := by
  rcases issue_cases h with ⟨i, h⟩ | ⟨reason, rfl⟩ | rfl
  · exact exec_keeps_inv hs h
  · exact hs.raise (by decide) reason _
  · exact hs

theorem takeInput_keeps_inv {p : PortInput} (hs : Inv s) (h : takeInput p s = .next t) : Inv t := by
  unfold takeInput at h
  split at h
  · cases h; exact .resetBlock s
  · split at h
    · exact issue_keeps_inv hs h
    · cases h; exact hs

theorem step_keeps_inv (hs : Inv s) (h : step s = .next t) : Inv t := by
  unfold step at h
  split at h
  · cases h; exact hs
  · exact takeInput_keeps_inv (hs.setPort _) h

/-! ## `STATUS` -/

/-- The fields of `STATUS` from bit 31 down (R28). -/
theorem status_eq_fields (s : State) :
    status s = 0#18 ++ s.bgidx ++ BitVec.ofBool s.strict ++ BitVec.ofBool s.mc ++ 0#1 ++ BitVec.ofBool s.mcflag ++
      BitVec.ofBool s.outv ++ BitVec.ofBool s.asgv ++ s.errcode ++ BitVec.ofBool s.err := by
  rw [← BitVec.setWidth_eq (x := _ ++ BitVec.ofBool s.err)]
  simp only [BitVec.setWidth_append_eq_shiftLeft_setWidth_or, BitVec.shiftLeft_or_distrib, ← BitVec.shiftLeft_add]
  simp only [status, flagAt, Nat.reduceAdd, BitVec.setWidth_zero, BitVec.zero_shiftLeft, BitVec.shiftLeft_zero,
    BitVec.zero_or, BitVec.or_zero]
  ac_rfl

/-! ## The statements -/

/-- Settles O18: the shifted fields of the status word are its fields laid side by side. -/
theorem rdstatAssemblesStatus : Obligations.RdstatAssemblesStatus := fun s =>
  ⟨status s, rfl, status_eq_fields s⟩

/-- Settles O52, by the frame of a command; a command that faults has only raised its error. -/
theorem onlyReadCommandsWriteResp : Obligations.OnlyReadCommandsWriteResp := by
  intro i s t h
  refine ⟨(exec_frame h).resp, fun hs ht => ?_⟩
  obtain ⟨e, hi, lo, rfl⟩ := exec_eq_raise h hs ht
  rfl

/-- Settles O53, by the frame of a command and the bound `EXT` of every loop over the image. -/
theorem pixelAndAssignmentMemoryHaveFewWriters : Obligations.PixelAndAssignmentMemoryHaveFewWriters :=
  fun _ _ _ h => ⟨(exec_frame h).pix, fun hi _ ha => exec_pix_above h hi ha, (exec_frame h).asg⟩

/-- Settles O54, by the frame of a command. -/
theorem outputsStayUntilTheNextEncode : Obligations.OutputsStayUntilTheNextEncode :=
  fun _ _ _ h => ⟨(exec_frame h).output, exec_keeps_outv h⟩

/-- Settles O55, by the frame of a command and the effects of those that complete; a command that faults has only raised its
error. -/
theorem asgvFollowsItsRule : Obligations.AsgvFollowsItsRule := by
  intro i s t h
  refine ⟨fun hi ht => ?_, fun hi _ ht => ?_, (exec_frame h).asgv, fun hs ht => ?_⟩
  · exact (exec_completes h ht).asgv_of_clears hi
  · subst hi
    exact (exec_completes h ht).asgv_of_reduce
  · obtain ⟨e, hi, lo, rfl⟩ := exec_eq_raise h hs ht
    rfl

/-- Settles O56. -/
theorem invariantHoldsAtReset : Obligations.InvariantHoldsAtReset := Inv.reset

/-- Settles O57: every update that a command makes keeps the invariant, so every command, word and step does. -/
theorem everyStepKeepsTheInvariant : Obligations.EveryStepKeepsTheInvariant := fun _ _ hs h => step_keeps_inv hs h

end Sys2Proof.Machine
end

section
/-! PROOFS. The family of spec/20_memory.md: the only read that the model gives no meaning is the read of an unwritten byte of the
image (R67). Each read of another memory is guarded by a flag, and the invariant has that memory written while its flag is 1. -/

namespace Sys2Proof.Machine

variable {s : State} {r : Refusal}

/-! ## Commands that read one element -/

/-- A command that ends by reading one element and completing is refused only where nothing has written the element. -/
theorem readCell_refused {α : Type} {sp : Space} {m : Memory α} {a : Nat} {f : α → State}
    (h : finish s (readCell sp m a >>= fun v => .ok (f v)) = .refused r) : r = .unwritten sp a ∧ m.read a = none := by
  rcases bind_eq_error.1 (finish_eq_refused h) with h | ⟨_, -, h⟩
  · obtain ⟨hr, hm⟩ := readCell_error h
    cases hr
    exact ⟨rfl, hm⟩
  · cases h

/-- `RDPIX` is refused only at a byte of the image, since the bound `EXT` is checked first (R236). -/
theorem execRdpix_refused (h : execRdpix s = .refused r) :
    ∃ a < s.geom.ext, r = .unwritten .pix a ∧ s.pix.read a = none := by
  unfold execRdpix at h
  split at h
  · cases h
  · next hp => exact ⟨_, Nat.not_le.1 hp, readCell_refused h⟩

/-- A plane that is written whenever `OUTV` calls it valid can be read (R237, R238). -/
theorem readPlane_ne_refused {sp : Space} {m : Memory Byte} {size a : Nat} {opcode : Byte}
    (hm : s.outv = true → m.writtenBelow size) : finish s (readPlane sp m size opcode a s) ≠ .refused r := by
  intro h
  unfold readPlane at h
  split at h
  · cases h
  · next ha =>
    split at h
    · cases h
    · next hv =>
      have hw := hm (by simpa using hv) a (Nat.not_le.1 ha)
      rw [(readCell_refused h).2] at hw
      cases hw

/-- An assignment that is written whenever `ASGV` calls it valid can be read (R239). -/
theorem execRdasg_ne_refused {n : BitVec 11} (hs : s.asgv = true → EntriesOk s) : execRdasg n s ≠ .refused r := by
  intro h
  unfold execRdasg at h
  split at h
  · cases h
  · next hv =>
    split at h
    · cases h
    · next hn =>
      obtain ⟨e, he, -⟩ := hs (by simpa using hv) n.toNat (Nat.not_le.1 hn)
      rw [(readCell_refused h).2] at he
      cases he

/-! ## The processing commands -/

/-- A command that ends early at an unwritten byte of the image is refused there. -/
theorem UnwrittenByte.refused {g : Geometry} {m : Memory Byte} (h : UnwrittenByte g m (.refuse r)) :
    ∃ a < g.ext, r = .unwritten .pix a ∧ m.read a = none := by
  obtain ⟨a, ha, hr, hm⟩ := h
  cases hr
  exact ⟨a, ha, rfl, hm⟩

theorem execDither_refused (h : execDither s = .refused r) :
    ∃ a < s.geom.ext, r = .unwritten .pix a ∧ s.pix.read a = none :=
  (ditherWith_error (finish_eq_refused h)).refused

theorem execReduce_refused (h : execReduce s = .refused r) :
    ∃ a < s.geom.ext, r = .unwritten .pix a ∧ s.pix.read a = none := by
  rcases reduceWith_error (finish_eq_refused h) with ⟨-, -, h⟩ | ⟨-, -, row, -, col, -, h⟩ | hu
  · cases h
  · cases h
  · exact hu.refused

/-- `ENCODE` finds every entry that it reads: it checks `ASGV` first, and the invariant has the assignment written then. -/
theorem execEncode_refused (hs : Inv s) (h : execEncode s = .refused r) :
    ∃ a < s.geom.ext, r = .unwritten .pix a ∧ s.pix.read a = none := by
  obtain ⟨hv, ⟨n, hn, -, hr⟩ | hu⟩ := encodeWith_refuse (finish_eq_refused h) hs.width_le hs.height_le
  · obtain ⟨e, he, -⟩ := hs.entries_ok hv n hn
    rw [hr] at he
    cases he
  · exact hu

/-! ## The statements -/

/-- Settles O59: the guards of `RDBMP`, `RDCRAM` and `RDASG` admit only reads that the invariant has written, and the four
commands that read the image are refused only at an unwritten byte of it. -/
theorem onlyUnwrittenPixelsAreRefused : Obligations.OnlyUnwrittenPixelsAreRefused := by
  intro i s r hs h
  cases i with
  | rdpix => exact ⟨by simp, execRdpix_refused h⟩
  | dither => exact ⟨by simp, execDither_refused h⟩
  | reduce => exact ⟨by simp, execReduce_refused h⟩
  | encode => exact ⟨by simp, execEncode_refused hs h⟩
  | rdbmp a => exact absurd h (readPlane_ne_refused hs.bitmap_written)
  | rdcram a => exact absurd h (readPlane_ne_refused hs.cram_written)
  | rdasg n => exact absurd h (execRdasg_ne_refused hs.entries_ok)
  | setw | seth | wrpix =>
    have hx := finish_eq_refused (show finish s _ = _ from h)
    split at hx <;> cases hx
  | nop | setmode | setbg | setptr | rddim | rdpal | nearest | rdstat | rderr | sreset => cases h

end Sys2Proof.Machine
end

section
/-! PROOFS. The family of spec/30_encoding.md: the decoder and the encoder are inverse (R91 to R93, R96), the decoder answers by
mask and match (R94), and what a step does with the word it takes off the port (R95 to R98). Every format reads one field of `n`
bits below reserved bits that must be 0, so one lemma about format `U<n>` says what the decoder answers to each opcode. -/

namespace Sys2Proof

variable {cw : Word32} {op : Byte}

/-! ## Every format is a field below reserved bits -/

theorem decodeZ_eq_decodeU (i : Instr) (arg : BitVec 24) : decodeZ i arg = decodeU 0 (fun _ => i) arg := by
  simp [decodeZ, decodeU]

theorem decodeM_eq_decodeU (arg : BitVec 24) :
    decodeM arg = decodeU 2 (fun v => .setmode (v.getLsbD 0) (v.getLsbD 1)) arg := by
  simp [decodeM, decodeU]

theorem decodeC_eq_decodeU (arg : BitVec 24) :
    decodeC arg = decodeU 24 (fun v => .nearest (v.extractLsb' 16 8) (v.extractLsb' 8 8) (v.extractLsb' 0 8)) arg := by
  have h : arg >>> 24 = 0 := BitVec.ushiftRight_eq_zero (Nat.le_refl 24)
  rw [decodeU, if_pos h, BitVec.setWidth_eq, decodeC]

/-- Format `C`: the three channels fill the argument. -/
theorem channels_append (v : BitVec 24) :
    v.extractLsb' 16 8 ++ v.extractLsb' 8 8 ++ v.extractLsb' 0 8 = v.setWidth 24 := by
  rw [BitVec.extractLsb'_append_extractLsb'_eq_extractLsb' (start₁ := 8) (len₁ := 8) (by decide),
    BitVec.extractLsb'_append_extractLsb'_eq_extractLsb' (start₁ := 0) (len₁ := 8) (by decide),
    BitVec.extractLsb'_eq_self, BitVec.setWidth_eq]

theorem decodeC_append (r g b : Byte) : decodeC (r ++ g ++ b) = .command (.nearest r g b) := by
  rw [decodeC, BitVec.extractLsb'_append_eq_of_le (by decide), BitVec.extractLsb'_append_eq_left,
    BitVec.extractLsb'_append_eq_of_le (by decide), Nat.sub_self, BitVec.extractLsb'_append_eq_of_add_le (by decide),
    BitVec.extractLsb'_append_eq_of_add_le (by decide), BitVec.extractLsb'_eq_self, BitVec.extractLsb'_eq_self]

/-! ## Masks and matches -/

/-- The mask of a field of `n` bits keeps the reserved bits above it. -/
theorem and_allOnes_shiftLeft_eq_zero_iff (arg : BitVec 24) (n : Nat) :
    arg &&& (BitVec.allOnes 24 <<< n) = 0 ↔ arg >>> n = 0 := by
  rw [← BitVec.shiftLeft_ushiftRight]
  refine ⟨fun h => BitVec.eq_of_getLsbD_eq fun i _ => ?_, fun h => by simp [h]⟩
  have hi := congrArg (fun z => z.getLsbD (n + i)) h
  by_cases hn : n + i < 24
  · simpa [hn] using hi
  · simp [BitVec.getLsbD_of_ge arg (n + i) (by omega)]

/-- A word with the row's opcode meets the row exactly when the fixed part of its argument is 0. -/
theorem and_mask_eq_pattern_iff (hop : opField cw = op) (low : BitVec 24) :
    cw &&& cmdWord 0xFF low = cmdWord op 0 ↔ argField cw &&& low = 0 := by
  constructor
  · intro h
    have hand : cw &&& cmdWord 0xFF low = cmdWord op (argField cw &&& low) := by
      conv_lhs => rw [← cmdWord_fields cw, hop]
      rw [cmdWord, cmdWord, BitVec.and_append, show (0xFF : Byte) = BitVec.allOnes 8 from rfl, BitVec.and_allOnes, cmdWord]
    rw [← argField_cmdWord op (argField cw &&& low), ← hand, h, argField_cmdWord]
  · intro h
    rw [← cmdWord_fields cw, hop]
    exact Laws.Spelling.meets h

/-- Every row's mask fixes the opcode byte. -/
theorem opField_eq_of_and_mask {row : OpRow} (hrow : row ∈ opTable) (h : cw &&& row.mask = row.pattern) :
    opField cw = opField row.pattern := by
  have hmask : ∀ row ∈ opTable, row.mask.extractLsb' 24 8 = BitVec.allOnes 8 := by decide
  rw [← h, opField, opField, BitVec.extractLsb'_and, hmask row hrow, BitVec.and_allOnes]

theorem eq_of_opField_pattern_eq {a b : OpRow} (ha : a ∈ opTable) (hb : b ∈ opTable)
    (h : opField a.pattern = opField b.pattern) : a = b := by
  have hnodup : (opTable.map fun row => opField row.pattern).Nodup := by decide
  exact List.inj_on_of_nodup_map hnodup ha hb h

theorem eq_of_mnemonic_eq {a b : OpRow} (ha : a ∈ opTable) (hb : b ∈ opTable) (h : a.mnemonic = b.mnemonic) : a = b := by
  have hnodup : (opTable.map OpRow.mnemonic).Nodup := by decide
  exact List.inj_on_of_nodup_map hnodup ha hb h

/-! ## What the decoder can answer -/

/-- What an answer of the decoder says of the word (R94). -/
inductive Answers (cw : Word32) : Decoded → Prop where
  /-- the word meets the row of the command, and is the one word that spells it -/
  | command {row : OpRow} {i : Instr} (hrow : row ∈ opTable) (hmatch : cw &&& row.mask = row.pattern)
      (hname : i.mnemonic = row.mnemonic) (hencode : encode i = cw) : Answers cw (.command i)
  /-- no row has the word's opcode -/
  | unknownOpcode (hno : ∀ row ∈ opTable, opField cw ≠ opField row.pattern) : Answers cw (.illegal .unknownOpcode)
  /-- a row has the word's opcode, and the word fails its match -/
  | reservedBit {row : OpRow} (hrow : row ∈ opTable) (hop : opField cw = opField row.pattern)
      (hmatch : cw &&& row.mask ≠ row.pattern) : Answers cw (.illegal .reservedBit)

/-- A row of format `U<n>`: its mask is the opcode byte and the bits above the field. -/
theorem decodeU_answers {n : Nat} {mk : BitVec n → Instr} {name : String} (hop : opField cw = op)
    (hname : ∀ v, (mk v).mnemonic = name) (hencode : ∀ v, encode (mk v) = cmdWord op (v.setWidth 24))
    (hrow : ⟨name, cmdWord op 0, cmdWord 0xFF (BitVec.allOnes 24 <<< n)⟩ ∈ opTable) :
    Answers cw (decodeU n mk (argField cw)) := by
  have hmatch := (and_mask_eq_pattern_iff hop _).trans (and_allOnes_shiftLeft_eq_zero_iff (argField cw) n)
  by_cases h : argField cw >>> n = 0
  · have hd : decodeU n mk (argField cw) = .command (mk ((argField cw).setWidth n)) := if_pos h
    obtain ⟨v, hi, hv⟩ := decodeU_eq_command hd
    rw [hd, hi]
    exact .command hrow (hmatch.2 h) (hname v) (by rw [hencode, hv, ← hop, cmdWord_fields])
  · rw [decodeU, if_neg h]
    exact .reservedBit hrow (hop.trans (opField_cmdWord op 0).symm) (mt hmatch.1 h)

theorem decode_answers {d : Decoded} (h : decode cw = d) : Answers cw d := by
  subst h
  unfold decode
  split
  case h_1 hop | h_8 hop | h_12 hop | h_15 hop | h_16 hop | h_17 hop | h_18 hop | h_19 hop | h_20 hop =>
    rw [decodeZ_eq_decodeU]
    exact decodeU_answers hop (fun _ => rfl) (by decide) (by decide)
  case h_4 hop =>
    rw [decodeM_eq_decodeU]
    exact decodeU_answers hop (fun _ => rfl) (by decide) (by decide)
  case h_14 hop =>
    rw [decodeC_eq_decodeU]
    exact decodeU_answers hop (fun _ => rfl) (fun v => congrArg (cmdWord 0x10) (channels_append v)) (by decide)
  case h_2 hop | h_3 hop | h_5 hop | h_6 hop | h_7 hop | h_9 hop | h_10 hop | h_11 hop | h_13 hop =>
    exact decodeU_answers hop (fun _ => rfl) (fun _ => rfl) (by decide)
  case h_21 =>
    refine .unknownOpcode fun row hrow => ?_
    fin_cases hrow <;> assumption

/-- What the decoder answers to a word with a row's opcode (R94, R96). -/
theorem decode_of_row {row : OpRow} (hrow : row ∈ opTable) (hop : opField cw = opField row.pattern) :
    (cw &&& row.mask = row.pattern ∧ ∃ i, decode cw = .command i ∧ i.mnemonic = row.mnemonic) ∨
    (cw &&& row.mask ≠ row.pattern ∧ decode cw = .illegal .reservedBit) := by
  generalize hd : decode cw = d
  cases decode_answers hd with
  | command hrow' hmatch hname =>
    have hop' := opField_eq_of_and_mask hrow' hmatch
    obtain rfl := eq_of_opField_pattern_eq hrow hrow' (hop.symm.trans hop')
    exact .inl ⟨hmatch, _, rfl, hname⟩
  | unknownOpcode hno => exact absurd hop (hno row hrow)
  | reservedBit hrow' hop' hmatch =>
    obtain rfl := eq_of_opField_pattern_eq hrow hrow' (hop.symm.trans hop')
    exact .inr ⟨hmatch, rfl⟩

theorem decode_command_iff {row : OpRow} (hrow : row ∈ opTable) :
    (∃ i, decode cw = .command i ∧ i.mnemonic = row.mnemonic) ↔ cw &&& row.mask = row.pattern := by
  constructor
  · rintro ⟨i, hd, hname⟩
    cases decode_answers hd with
    | command hrow' hmatch hname' =>
      obtain rfl := eq_of_mnemonic_eq hrow hrow' (hname.symm.trans hname')
      exact hmatch
  · intro hmatch
    rcases decode_of_row hrow (opField_eq_of_and_mask hrow hmatch) with ⟨-, hd⟩ | ⟨hne, -⟩
    · exact hd
    · exact absurd hmatch hne

theorem decode_unknownOpcode_iff :
    decode cw = .illegal .unknownOpcode ↔ ∀ row ∈ opTable, opField cw ≠ opField row.pattern := by
  generalize hd : decode cw = d
  cases decode_answers hd with
  | command hrow hmatch => simpa using ⟨_, hrow, opField_eq_of_and_mask hrow hmatch⟩
  | unknownOpcode hno => simpa using hno
  | reservedBit hrow hop => simpa using ⟨_, hrow, hop⟩

theorem decode_reservedBit_iff :
    decode cw = .illegal .reservedBit ↔
      ∃ row ∈ opTable, opField cw = opField row.pattern ∧ cw &&& row.mask ≠ row.pattern := by
  constructor
  · intro hd
    cases decode_answers hd with
    | reservedBit hrow hop hmatch => exact ⟨_, hrow, hop, hmatch⟩
  · rintro ⟨row, hrow, hop, hne⟩
    rcases decode_of_row hrow hop with ⟨hmatch, -⟩ | ⟨-, hd⟩
    · exact absurd hmatch hne
    · exact hd

/-! ## The encoder, and back -/

theorem decode_encode (i : Instr) : decode (encode i) = .command i := by
  cases i with
  | nop | rdpix | rddim | dither | reduce | encode | rdstat | rderr | sreset => rfl
  | setmode mc strict => revert mc strict; decide
  | nearest r g b =>
    simp only [encode, decode, opField_cmdWord, argField_cmdWord]
    exact decodeC_append r g b
  | setw v | seth v | setbg v | setptr v | wrpix v | rdbmp v | rdcram v | rdasg v | rdpal v =>
    simp only [encode, decode, opField_cmdWord, argField_cmdWord]
    exact decodeU_setWidth (by decide) _ v

theorem encode_of_decode {i : Instr} (h : decode cw = .command i) : encode i = cw := by
  cases decode_answers h with
  | command _ _ _ hencode => exact hencode

/-- Format `U<n>` laid out field by field. -/
theorem append_zero_append {k n : Nat} (hk : k + n = 24) (op : Byte) (v : BitVec n) :
    (op ++ 0#k ++ v).setWidth 32 = cmdWord op (v.setWidth 24) := by
  apply BitVec.eq_of_getLsbD_eq
  intro i hi
  simp only [cmdWord, BitVec.getLsbD_setWidth, BitVec.getLsbD_append, BitVec.getLsbD_zero, hi, decide_true, Bool.true_and]
  by_cases hfield : i < n
  · simp [hfield, show i < 24 by omega]
  · by_cases hzero : i < 24
    · simp [hfield, hzero, show i - n < k by omega, BitVec.getLsbD_of_ge v i (by omega)]
    · simp [hfield, hzero, show ¬ i - n < k by omega, show i - n - k = i - 24 by omega]

/-- A command of format `U<n>` decodes with every value of its field (R94). -/
theorem decode_append {k n : Nat} {i : Instr} {v : BitVec n} (hk : k + n = 24)
    (h : encode i = cmdWord op (v.setWidth 24)) : decode ((op ++ 0#k ++ v).setWidth 32) = .command i := by
  rw [append_zero_append hk, ← h, decode_encode]

end Sys2Proof

namespace Sys2Proof.Machine

variable {cw : Word32} {s : State}

/-! ## The step -/

/-- With `ERR = 1` an illegal word is discarded: the three words that are honoured spell commands (R281). -/
theorem issueFaulted_of_illegal {why : IllegalWord} (h : decode cw = .illegal why) : issueFaulted cw s = .next s := by
  have hne : ∀ i : Instr, cw ≠ encode i := fun i hi => by rw [hi, decode_encode] at h; cases h
  have hstat : cw ≠ 0x20000000 := hne .rdstat
  have hrerr : cw ≠ 0x21000000 := hne .rderr
  have hreset : cw ≠ 0x2F000000 := hne .sreset
  rw [issueFaulted, if_neg hstat, if_neg hrerr, if_neg hreset]

theorem step_of_presented {p : PortInput} {rest : List PortInput} (hport : s.port = p :: rest) (hrst : p.rst = false)
    (hcmd : p.cmd = some cw) : step s = issue cw (s.setPort rest) := by
  simp only [step, hport, takeInput, hrst, hcmd, Bool.false_eq_true, if_false]

theorem issue_of_err (herr : s.err = true) : issue cw s = issueFaulted cw s := if_pos herr

theorem issue_of_no_err (herr : s.err = false) : issue cw s = issueAccepted cw s := by
  rw [issue, herr]; rfl

theorem issueAccepted_of_command {i : Instr} (h : decode cw = .command i) : issueAccepted cw s = exec i s := by
  rw [issueAccepted, h]

theorem issueAccepted_of_unknownOpcode (h : decode cw = .illegal .unknownOpcode) :
    issueAccepted cw s = .next (raise .illegalCommand 1 (opField cw) s) := by
  rw [issueAccepted, h]

theorem issueAccepted_of_reservedBit (h : decode cw = .illegal .reservedBit) :
    issueAccepted cw s = .next (raise .illegalCommand 2 (opField cw) s) := by
  rw [issueAccepted, h]

/-! ## The statements -/

/-- Settles O1: the encoder lays out the field that the decoder reads back, and a word that decodes is the word its command
spells, since a format accepts no reserved bit. -/
theorem encodeThenDecodeGivesTheCommand : Obligations.EncodeThenDecodeGivesTheCommand :=
  ⟨decode_encode, fun _ _ h => encode_of_decode h⟩

/-- Settles O2: what the decoder answers, read at each row of the table. -/
theorem decoderFollowsMaskAndMatch : Obligations.DecoderFollowsMaskAndMatch := by
  intro cw
  refine ⟨fun row hrow => decode_command_iff hrow, decode_unknownOpcode_iff, decode_reservedBit_iff, fun v => ⟨?_, ?_⟩,
    fun v => ?_, fun v => ?_⟩
  · simpa only [BitVec.setWidth_eq] using decode_append (op := 0x01#8) (k := 8) (i := .setw v) rfl rfl
  · simpa only [BitVec.setWidth_eq] using decode_append (op := 0x02#8) (k := 8) (i := .seth v) rfl rfl
  · simpa only [BitVec.setWidth_eq] using decode_append (op := 0x08#8) (k := 11) (i := .rdbmp v) rfl rfl
  · simpa only [BitVec.setWidth_eq] using decode_append (op := 0x09#8) (k := 14) (i := .rdcram v) rfl rfl

/-- Settles O6: a word that spells no command is none of the three that a fault lets through. -/
theorem illegalWordsRaiseAndChangeNothingElse : Obligations.IllegalWordsRaiseAndChangeNothingElse := by
  intro cw s
  refine ⟨fun hno => ?_, fun hrow => ?_⟩
  · have hd := decode_unknownOpcode_iff.2 hno
    rw [issue, issueFaulted_of_illegal hd, issueAccepted_of_unknownOpcode hd]
    rfl
  · have hd := decode_reservedBit_iff.2 hrow
    rw [issue, issueFaulted_of_illegal hd, issueAccepted_of_reservedBit hd]
    rfl

/-- Settles O3: the encodings are computed, and O1 decodes them. -/
theorem workedEncodingsDecode : Obligations.WorkedEncodingsDecode := by
  intro p hp
  have hencode : encode p.1 = p.2 := by revert p; decide
  exact ⟨hencode, hencode ▸ decode_encode p.1⟩

/-- Settles O4: the step takes the word off the port, and the fault flag chooses the half of the prologue. -/
theorem stepRunsTheDecodedCommand : Obligations.StepRunsTheDecodedCommand := by
  intro s p rest cw hport hrst hcmd
  rw [step_of_presented hport hrst hcmd]
  refine ⟨fun herr => ?_, fun herr => ?_⟩
  · rw [issue_of_err (s := s.setPort rest) herr]
    refine ⟨?_, ?_, ?_, fun hstat hrerr hreset => ?_⟩
    · rintro rfl; rfl
    · rintro rfl; rfl
    · rintro rfl; rfl
    · rw [issueFaulted, if_neg hstat, if_neg hrerr, if_neg hreset]
  · rw [issue_of_no_err (s := s.setPort rest) herr]
    exact ⟨fun _ => issueAccepted_of_command, issueAccepted_of_unknownOpcode, issueAccepted_of_reservedBit⟩

end Sys2Proof.Machine
end

section
/-! PROOFS. The family of spec/40_palette_nearest.md: the squared distance (R120), the nearest-colour lookup (R122 to R124), and the
two commands that expose the palette (R125, R126). The lookup and its use on the palette are `nearestOf_leads`, `nearest16_spec`
and `palAt_nearest16_palAt`. -/

namespace Sys2Proof.Machine

/-! ## The distance -/

theorem chanDiff_bounds (a b : Byte) : -255 ≤ chanDiff a b ∧ chanDiff a b ≤ 255 := by
  have ha := a.isLt
  have hb := b.isLt
  simp only [chanDiff]
  omega

theorem chanDiff_sq_le (a b : Byte) : chanDiff a b ^ 2 ≤ 65025 :=
  sq_le_sq' (chanDiff_bounds a b).1 (chanDiff_bounds a b).2

theorem dist2_eq_sum_sq (a b : Rgb) : dist2 a b = chanDiff a.r b.r ^ 2 + chanDiff a.g b.g ^ 2 + chanDiff a.b b.b ^ 2 := by
  simp only [dist2, sq]

theorem dist2_le (a b : Rgb) : dist2 a b ≤ 195075 := by
  have hr := chanDiff_sq_le a.r b.r
  have hg := chanDiff_sq_le a.g b.g
  have hb := chanDiff_sq_le a.b b.b
  rw [dist2_eq_sum_sq]
  omega

theorem dist2_eq_zero_iff {a b : Rgb} : dist2 a b = 0 ↔ a = b :=
  ⟨fun h => eq_of_dist2_le_zero h.le, fun h => h ▸ dist2_self a⟩

theorem chanDiff_sq_comm (a b : Byte) : chanDiff a b ^ 2 = chanDiff b a ^ 2 := sub_sq_comm ..

theorem dist2_comm (a b : Rgb) : dist2 a b = dist2 b a := by
  rw [dist2_eq_sum_sq, dist2_eq_sum_sq, chanDiff_sq_comm a.r, chanDiff_sq_comm a.g, chanDiff_sq_comm a.b]

/-! ## The palette -/

/-- No index that holds the colour is below the one that it quantises to: it would be as near and earlier (R124). -/
theorem nearest16_le_of_palAt_eq {pal : Palette} {p : Rgb} {j : Idx} (h : palAt pal j = p) : nearest16 pal p ≤ j := by
  refine BitVec.not_lt.1 fun hlt => ?_
  have hfar := (nearest16_spec pal p j).2 hlt
  rw [h, dist2_self] at hfar
  exact absurd (dist2_nonneg ..) (not_le.2 hfar)

theorem eq_of_palAt_eq {pal : Palette} (hd : PalDistinct pal) {i j : Idx} (h : palAt pal i = palAt pal j) : i = j :=
  by_contra fun hne => hd i j hne h

/-! ## The two commands -/

variable (s : State)

theorem exec_nearest (r g b : Byte) :
    exec (.nearest r g b) s = .next { s with resp := (nearest16 Config.pal ⟨r, g, b⟩).setWidth 32 } := rfl

theorem exec_rdpal (i : Idx) : exec (.rdpal i) s = .next { s with resp := rgbWord (palAt Config.pal i) } := rfl

/-- An index as a word lies below 28 zero bits (R125). -/
theorem idx_setWidth (i : Idx) : i.setWidth 32 = 0#28 ++ i := BitVec.setWidth_eq_append (by decide)

/-- A colour as a word lies below a zero byte (R126). -/
theorem rgbWord_eq_append (c : Rgb) : rgbWord c = 0#8 ++ c.r ++ c.g ++ c.b := by
  rw [rgbWord, BitVec.setWidth_eq_append (by decide)]
  simp only [BitVec.append_assoc, BitVec.cast_eq]

/-! ## The statements -/

/-- Settles O22, by what the scan keeps: its position leads the candidates scanned so far. -/
theorem lookupGivesTheLeastNearestPosition : Obligations.LookupGivesTheLeastNearestPosition := fun p c0 cs =>
  have leads := nearestOf_leads p c0 cs
  ⟨leads.lt, fun j _ => ⟨leads.min _ (List.getElem_mem _), leads.least j⟩⟩

/-- Settles O23: the response is the index of the lookup on the block's palette. -/
theorem nearestGivesTheLeastNearestIndex : Obligations.NearestGivesTheLeastNearestIndex := fun r g b s =>
  ⟨nearest16 Config.pal ⟨r, g, b⟩, by rw [exec_nearest, idx_setWidth], nearest16_spec Config.pal ⟨r, g, b⟩⟩

/-- Settles O24: an entry is at distance 0 from its own colour, so the lookup answers the least such index. -/
theorem paletteColourQuantisesToItself : Obligations.PaletteColourQuantisesToItself := fun pal i =>
  have hself := palAt_nearest16_palAt pal i
  ⟨hself, fun _ => nearest16_le_of_palAt_eq, fun hd => eq_of_palAt_eq hd hself⟩

/-- Settles O21: each channel difference is at most 255 either way, and the distance is the sum of their squares. -/
theorem distanceIsSquaredEuclidean : Obligations.DistanceIsSquaredEuclidean := by
  refine ⟨fun x y => ?_, fun a b => ⟨dist2_eq_sum_sq a b, dist2_nonneg a b, dist2_le a b, dist2_eq_zero_iff, dist2_comm a b⟩⟩
  obtain ⟨hlo, hhi⟩ := chanDiff_bounds x y
  exact ⟨hlo, hhi, sq_nonneg _, chanDiff_sq_le x y⟩

/-- Settles O25: the response is the entry's colour as a word. -/
theorem rdpalGivesTheEntry : Obligations.RdpalGivesTheEntry := fun i s =>
  ⟨rgbWord (palAt Config.pal i), exec_rdpal s i, rgbWord_eq_append _⟩

end Sys2Proof.Machine
end

section
/-! PROOFS. The family of spec/41_dither.md: the share (R145, R146), and what `DITHER` does to the image (R140 to R148). The pass over
the bytes is followed by a pass over the colours of the image, `ditherColours`, from which the pixels of a small image are read off. -/

namespace Sys2Proof.Machine

/-! ## The share -/

theorem fsShare_of_nonneg {e k : Int} (h : 0 ≤ e * k) : fsShare e k = e * k / 16 := Int.tdiv_eq_ediv_of_nonneg h

theorem fsShare_neg (e k : Int) : fsShare (-e) k = -fsShare e k := by
  rw [fsShare, fsShare, Int.neg_mul, Int.neg_tdiv]

theorem fsShare_of_nonpos {e k : Int} (h : e * k ≤ 0) : fsShare e k = -(-(e * k) / 16) := by
  rw [← Int.neg_mul, ← fsShare_of_nonneg (by rw [Int.neg_mul]; omega), fsShare_neg, neg_neg]

/-- The four shares of a residual sum to at most the residual and at least 3 less (R145). -/
theorem fsShare_sum_bounds {e : Int} (h : 0 ≤ e) :
    e - 3 ≤ fsShare e 7 + fsShare e 3 + fsShare e 5 + fsShare e 1 ∧
      fsShare e 7 + fsShare e 3 + fsShare e 5 + fsShare e 1 ≤ e := by
  rw [fsShare_of_nonneg, fsShare_of_nonneg, fsShare_of_nonneg, fsShare_of_nonneg] <;> omega

theorem fsShare_bounds {e k : Int} (hlo : -1785 ≤ e * k) (hhi : e * k ≤ 1785) : -111 ≤ fsShare e k ∧ fsShare e k ≤ 111 := by
  rcases le_total 0 (e * k) with h | h
  · rw [fsShare_of_nonneg h]; omega
  · rw [fsShare_of_nonpos h]; omega

theorem kernel_weight {t : Tap} (h : t ∈ kernel) : t.k = 7 ∨ t.k = 3 ∨ t.k = 5 ∨ t.k = 1 := by
  revert t; decide

/-! ## The command -/

variable {g : Geometry} {m m' : Memory Byte} {s t : State}

/-- `DITHER` raises no error: it answers a next state only by completing. -/
theorem exec_dither_eq_next_iff : exec .dither s = .next t ↔ ditherWith Config.pal fsShare s = .ok t := by
  refine ⟨fun h => ?_, fun h => by rw [exec, execDither, h, finish_ok]⟩
  rcases finish_eq_next (show finish s _ = _ from h) with h | ⟨_, _, _, h, -⟩
  · exact h
  · obtain ⟨_, -, hr, -⟩ := ditherWith_error h
    cases hr

theorem exec_dither_of_image (h : ditherImage Config.pal fsShare s.geom s.pix = .ok m) :
    exec .dither s = .next (s.setPix m) :=
  exec_dither_eq_next_iff.2 (by rw [ditherWith, h, ok_bind])

/-! ## Palette colours -/

variable {pal : Palette} {share : Int → Int → Int}

theorem RasterBefore.asymm {a b : Nat × Nat} (h : RasterBefore a b) : ¬ RasterBefore b a := by
  simp only [RasterBefore] at h ⊢
  omega

theorem RasterBefore.irrefl (a : Nat × Nat) : ¬ RasterBefore a a := fun h => h.asymm h

/-- After the pass every pixel is a palette colour: its own visit made it one, and no later visit writes it (R147). -/
theorem ditherImage_palette (h : ditherImage pal share g m = .ok m') {xy : Nat × Nat} (hxy : xy ∈ g.raster) :
    ∃ i, getPixel g m' xy.1 xy.2 = .ok (palAt pal i) := by
  refine foldlM_inv_prefix (fun done m => ∀ p ∈ done, ∃ i, getPixel g m p.1 p.2 = .ok (palAt pal i)) g.raster
    (by simp) ?_ h xy hxy
  intro done xy rest m m' hl hdone hvisit p hp
  have hwidth : ∀ q ∈ done ++ [xy], q.1 < g.width := fun q hq =>
    (Geometry.mem_raster.1 (by rw [hl, List.append_cons]; exact List.mem_append_left _ hq)).1
  have hbefore : ¬ RasterBefore xy p := by
    have horder := g.raster_pairwise
    rw [hl, List.pairwise_append] at horder
    rcases List.mem_append.1 hp with hp | hp
    · exact (horder.2.2 p hp xy List.mem_cons_self).asymm
    · rw [List.mem_singleton.1 hp]; exact RasterBefore.irrefl xy
  rcases ditherPixel_earlier (hwidth xy (by simp)) (hwidth p hp) hvisit hbefore with ⟨hne, hkept⟩ | ⟨-, old, -, hq⟩
  · obtain ⟨i, hi⟩ := hdone p (by simpa [hne] using hp)
    exact ⟨i, hkept.trans hi⟩
  · exact ⟨_, hq⟩

theorem pixWritten_of_palette (h : AllPaletteColours pal s) : PixWritten s :=
  writtenBelow_of_readable s.geom_bw_pos fun _ _ _ hxy => by
    obtain ⟨hx, hy⟩ := Geometry.blockPixels_lt hxy
    obtain ⟨i, hi⟩ := h _ hx _ hy
    exact ⟨_, hi⟩

/-- The pass changes nothing in an image of palette colours, since no visit does (R148). -/
theorem ditherImage_fixed (hwf : s.pix.wf) (h : AllPaletteColours pal s) :
    ditherImage pal fsShare s.geom s.pix = .ok s.pix := by
  obtain ⟨_, hr, rfl⟩ := foldlM_ok (f := ditherPixel pal fsShare s.geom) (· = s.pix) s.geom.raster rfl fun xy hxy m hm => by
    subst hm
    obtain ⟨hx, hy⟩ := Geometry.mem_raster.1 hxy
    obtain ⟨i, hi⟩ := h _ hx _ hy
    exact ⟨_, ditherPixel_fixed hwf hi fun x hx y hy => (h x hx y hy).imp' (palAt pal) fun _ => id, rfl⟩
  exact hr

/-! ## The pass on the colours of the image -/

/-- The colours of an image, a function of the pixel `(x, y)`. -/
abbrev Colours := Nat × Nat → Rgb

/-- The memory holds these colours in the pixels of the image. -/
def Shows (g : Geometry) (m : Memory Byte) (f : Colours) : Prop :=
  ∀ p : Nat × Nat, p.1 < g.width → p.2 < g.height → getPixel g m p.1 p.2 = .ok (f p)

/-- `diffuse` on colours: the neighbour gets its share, unless it is outside the image (R144, R146). -/
def diffuseColours (share : Int → Int → Int) (g : Geometry) (xy : Nat × Nat) (e : Residual) (f : Colours) (t : Tap) : Colours :=
  let n := (((xy.1 : Int) + t.dx).toNat, xy.2 + t.dy)
  if 0 ≤ (xy.1 : Int) + t.dx ∧ (xy.1 : Int) + t.dx < g.width ∧ n.2 < g.height then
    Function.update f n (addShare share e t.k (f n))
  else f

/-- `ditherPixel` on colours, for any quantiser (R142, R143). -/
def visitColours (quant : Rgb → Rgb) (share : Int → Int → Int) (g : Geometry) (f : Colours) (xy : Nat × Nat) : Colours :=
  kernel.foldl (diffuseColours share g xy (residual (f xy) (quant (f xy)))) (Function.update f xy (quant (f xy)))

/-- `ditherImage` on colours (R141). -/
def ditherColours (quant : Rgb → Rgb) (share : Int → Int → Int) (g : Geometry) (f : Colours) : Colours :=
  g.raster.foldl (visitColours quant share g) f

theorem Shows.setPixel {f : Colours} (h : Shows g m f) {xy : Nat × Nat} (hx : xy.1 < g.width) (c : Rgb) :
    Shows g (setPixel g m xy.1 xy.2 c) (Function.update f xy c) := by
  intro p hpx hpy
  by_cases hp : p = xy
  · rw [hp, getPixel_setPixel_self, Function.update_self]
  · rw [getPixel_setPixel_of_ne g m c hx hpx (Ne.symm hp), Function.update_of_ne hp, h p hpx hpy]

/-- A loop over the memory shows what the loop over the colours gives, when each of its rounds does. -/
theorem Shows.foldlM {β : Type} {step : Memory Byte → β → Except Abort (Memory Byte)} {stepColours : Colours → β → Colours}
    {l : List β} (hstep : ∀ x ∈ l, ∀ m f, Shows g m f → ∃ m', step m x = .ok m' ∧ Shows g m' (stepColours f x))
    {f : Colours} (h : Shows g m f) : ∃ m', l.foldlM step m = .ok m' ∧ Shows g m' (l.foldl stepColours f) :=
  foldlM_ok_prefix (fun done m => Shows g m (done.foldl stepColours f)) l h fun done x rest m hl hm => by
    rw [List.foldl_concat]
    exact hstep x (by simp [hl]) m _ hm

theorem Shows.diffuse {f : Colours} (h : Shows g m f) (xy : Nat × Nat) (e : Residual) (t : Tap) :
    ∃ m', diffuse share g xy.1 xy.2 e m t = .ok m' ∧ Shows g m' (diffuseColours share g xy e f t) := by
  rw [Machine.diffuse, diffuseColours]
  split
  · next hin =>
    have hx : ((xy.1 : Int) + t.dx).toNat < g.width := by omega
    exact ⟨_, by rw [h (((xy.1 : Int) + t.dx).toNat, xy.2 + t.dy) hx hin.2.2, ok_bind], h.setPixel hx _⟩
  · exact ⟨m, rfl, h⟩

theorem Shows.ditherPixel {f : Colours} (h : Shows g m f) {xy : Nat × Nat} (hxy : xy ∈ g.raster) :
    ∃ m', ditherPixel pal share g m xy = .ok m' ∧
      Shows g m' (visitColours (fun p => palAt pal (nearest16 pal p)) share g f xy) := by
  obtain ⟨hx, hy⟩ := Geometry.mem_raster.1 hxy
  rw [Machine.ditherPixel, h xy hx hy, ok_bind]
  exact Shows.foldlM (fun t _ _ _ hm => hm.diffuse xy _ t) (h.setPixel hx _)

/-- The pass over the memory completes on the colours it holds and leaves what the pass over the colours gives. -/
theorem Shows.ditherImage {f : Colours} (h : Shows g m f) :
    ∃ m', ditherImage pal share g m = .ok m' ∧
      Shows g m' (ditherColours (fun p => palAt pal (nearest16 pal p)) share g f) :=
  Shows.foldlM (step := Machine.ditherPixel pal share g) (stepColours := visitColours _ share g)
    (fun _ hxy _ _ hm => hm.ditherPixel hxy) h

/-- The colours of a 2 by 2 image, row by row. -/
def twoByTwo (p00 p10 p01 p11 : Rgb) : Colours
  | (0, 0) => p00
  | (_, 0) => p10
  | (0, _) => p01
  | (_, _) => p11

theorem shows_twoByTwo {bw : Nat} {p00 p10 p01 p11 : Rgb} (h00 : getPixel ⟨2, 2, bw⟩ m 0 0 = .ok p00)
    (h10 : getPixel ⟨2, 2, bw⟩ m 1 0 = .ok p10) (h01 : getPixel ⟨2, 2, bw⟩ m 0 1 = .ok p01)
    (h11 : getPixel ⟨2, 2, bw⟩ m 1 1 = .ok p11) : Shows ⟨2, 2, bw⟩ m (twoByTwo p00 p10 p01 p11)
  | (0, 0), _, _ => h00
  | (1, 0), _, _ => h10
  | (0, 1), _, _ => h01
  | (1, 1), _, _ => h11

/-! ## The statements -/

/-- Settles O27: the pass ends early only at an unwritten byte, and it writes only bytes of the image. -/
theorem ditherCompletesAndKeepsTheRest : Obligations.DitherCompletesAndKeepsTheRest := by
  intro s hw
  obtain ⟨t, ht⟩ := ditherWith_completes (pal := Config.pal) (share := fsShare) hw
  obtain ⟨pix, -, rfl, hk⟩ := ditherWith_ok ht
  exact ⟨_, exec_dither_eq_next_iff.2 ht, rfl, hk.writtenBelow hw, hk.above⟩

/-- Settles O28: the pass leaves every pixel a palette colour, so every byte of the image is written. -/
theorem ditherLeavesPaletteColours : Obligations.DitherLeavesPaletteColours := by
  intro s t h
  obtain ⟨pix, himage, rfl, hk⟩ := ditherWith_ok (exec_dither_eq_next_iff.1 h)
  have hpal : AllPaletteColours Config.pal (s.setPix pix) := fun x hx y hy =>
    ditherImage_palette himage (xy := (x, y)) (Geometry.mem_raster.2 ⟨hx, hy⟩)
  exact ⟨hpal, pixWritten_of_palette hpal, hk.above⟩

/-- Settles O29: the residual of a palette colour is zero, so each visit stores the bytes already there. -/
theorem ditherKeepsPaletteImages : Obligations.DitherKeepsPaletteImages := fun _ hwf hpal =>
  exec_dither_of_image (ditherImage_fixed hwf hpal)

/-- Settles O30: the memory ends with the colours that `ditherColours` computes, and at the four literal pixels these are the colours
of the statement, by evaluation. -/
theorem ditherOfTwoByTwoUsesTheKernel : Obligations.DitherOfTwoByTwoUsesTheKernel := by
  intro s p00 p10 p01 p11 hw hh h00 h10 h01 h11
  have hg : s.geom = ⟨2, 2, blockWidth s.mc⟩ := by rw [State.geom, hw, hh]; rfl
  rw [hg] at h00 h10 h01 h11
  obtain ⟨m, hm, hshows⟩ := (shows_twoByTwo h00 h10 h01 h11).ditherImage (pal := Config.pal) (share := fsShare)
  refine ⟨s.setPix m, exec_dither_of_image (hg ▸ hm), ?_⟩
  rw [State.setPix_geom, hg]
  exact ⟨hshows (0, 0) Nat.two_pos Nat.two_pos, hshows (1, 0) Nat.one_lt_two Nat.two_pos,
    hshows (0, 1) Nat.two_pos Nat.one_lt_two, hshows (1, 1) Nat.one_lt_two Nat.one_lt_two⟩

/-- Settles O26: the product over 16 loses less than one at each share, and so at most 3 over the four, whose weights sum to 16. -/
theorem sharesTruncateTowardZero : Obligations.SharesTruncateTowardZero := by
  refine ⟨fun e k => ⟨fsShare_of_nonneg, fun h => fsShare_of_nonpos h.le⟩, fun e => fsShare_sum_bounds, fun e he => ?_,
    fun e hlo hhi t ht => ?_⟩
  · have h := fsShare_sum_bounds (e := -e) (by omega)
    simp only [fsShare_neg] at h
    omega
  · rcases kernel_weight ht with hk | hk | hk | hk <;> exact fsShare_bounds (by rw [hk]; omega) (by rw [hk]; omega)

end Sys2Proof.Machine
end

section
/-! PROOFS. The family of spec/42_reduce_hires.md: the selection of a block's pair (R163, R164), and what a hires `REDUCE` of either
policy leaves (R160 to R176). The two policies differ in the pair of a block and in when they complete; all else is one argument. -/

namespace Sys2Proof.Machine

variable {pal : Palette} {s t : State} {row col : Nat}

/-! ## The command -/

/-- Without the strict variant `REDUCE` raises no error: it answers a next state only by completing. -/
theorem exec_reduce_eq_next_iff (hst : s.strict = false) :
    exec .reduce s = .next t ↔ reduceWith Config.pal s = .ok t := by
  refine ⟨fun h => ?_, fun h => by rw [exec, execReduce, h, finish_ok]⟩
  rcases finish_eq_next (show finish s _ = _ from h) with h | ⟨_, _, _, h, -⟩
  · exact h
  · rcases reduceWith_error h with ⟨-, hst', -⟩ | ⟨-, hst', -⟩ | ⟨_, -, hr, -⟩
    · rw [hst] at hst'; cases hst'
    · rw [hst] at hst'; cases hst'
    · cases hr

/-- A completed `REDUCE` writes `PIX` below `EXT`, `ASG` below `NBLK` and `ASGV`, and nothing else (R160). -/
theorem reduceWith_frame (h : reduceWith pal s = .ok t) :
    t = { s with pix := t.pix, asg := t.asg, asgv := true } ∧ PixKept s.geom s.pix t.pix ∧ AsgKept s.geom s.asg t.asg := by
  obtain ⟨m, rfl, hkept, -⟩ := reduceWith_ok h
  exact ⟨rfl, hkept.pix, hkept.asg⟩

theorem reduceWith_asgv (h : reduceWith pal s = .ok t) : t.asgv = true := by rw [(reduceWith_frame h).1]

theorem reduceWith_mc (h : reduceWith pal s = .ok t) : t.mc = s.mc := by rw [(reduceWith_frame h).1]

theorem reduceWith_strict (h : reduceWith pal s = .ok t) : t.strict = s.strict := by rw [(reduceWith_frame h).1]

theorem reduceWith_geom (h : reduceWith pal s = .ok t) : t.geom = s.geom := by rw [(reduceWith_frame h).1]; rfl

/-! ## The pair of a block -/

/-- The pair of a block from the indices of its pixels: by the tally under the two-pass policy (R163, R164), by the scan under the
strict variant (R169). -/
def hiresPair (strict : Bool) (is : List Idx) : Idx × Idx := if strict then strictPair is else selectHires (tally is)

theorem hiresPair_ne (strict : Bool) (is : List Idx) : (hiresPair strict is).1 ≠ (hiresPair strict is).2 := by
  cases strict
  · exact selectHires_ne _
  · exact strictPair_ne _

theorem planOf_hires (hmc : s.mc = false) (is : List Idx) : planOf s is =
    ((hiresPair s.strict is).1, [(hiresPair s.strict is).2],
      hiresEntry (hiresPair s.strict is).1 (hiresPair s.strict is).2) := by
  rw [planOf, hmc]
  cases s.strict <;> rfl

/-- What a completed hires `REDUCE` leaves of a block: the pair made from the pixels it had stands in its entry, and each pixel
became the nearer of the two colours, measured from the bytes it had (R162 to R167, R169). -/
theorem reduceWith_hires_block (h : reduceWith pal s = .ok t) (hmc : s.mc = false) (hr : row < s.geom.nby)
    (hc : col < s.geom.nbx) :
    ∃ is, BlockIndices pal s row col is ∧
      t.asg.read (row * s.geom.nbx + col) = some (hiresEntry (hiresPair s.strict is).1 (hiresPair s.strict is).2) ∧
      ∀ xy ∈ s.geom.blockPixels row col, ∃ p, getPixel s.geom s.pix xy.1 xy.2 = .ok p ∧
        getPixel s.geom t.pix xy.1 xy.2 =
          .ok (remapColour pal (hiresPair s.strict is).1 [(hiresPair s.strict is).2] p) := by
  have hw := reduceWith_written h
  obtain ⟨m, plan, rfl, hb, hplan⟩ := reduceWith_plans h
  have hrc : (row, col) ∈ s.geom.blocks := Geometry.mem_blocks.2 ⟨hr, hc⟩
  obtain ⟨is, his, hp⟩ := hplan _ hrc
  rw [planOf_hires hmc] at hp
  have hentry := hb.entry _ hrc
  have hpixel := hb.pixel _ hrc
  rw [hp] at hentry hpixel
  refine ⟨is, his, hentry, fun xy hxy => ?_⟩
  obtain ⟨hx, hy⟩ := Geometry.blockPixels_lt hxy
  obtain ⟨p, hpx⟩ := getPixel_of_written hw hx hy
  exact ⟨p, hpx, hpixel xy hxy p hpx⟩

/-- The conclusion that the two policies share, for the pair that each makes of a block's indices. -/
def ReducedToPairs (pal : Palette) (pair : List Idx → Idx × Idx) (s t : State) : Prop :=
  t = { s with pix := t.pix, asg := t.asg, asgv := true } ∧
    (∀ a, s.geom.ext ≤ a → t.pix.read a = s.pix.read a) ∧
    (∀ n, s.geom.nblk ≤ n → t.asg.read n = s.asg.read n) ∧
    ∀ row < s.geom.nby, ∀ col < s.geom.nbx, ∃ is, BlockIndices pal s row col is ∧
      t.asg.read (row * s.geom.nbx + col) = some (0#4 ++ (pair is).2 ++ (pair is).1) ∧
      ∀ xy ∈ s.geom.blockPixels row col, ∃ p, getPixel s.geom s.pix xy.1 xy.2 = .ok p ∧
        getPixel s.geom t.pix xy.1 xy.2 = .ok
          (if dist2 p (palAt pal (pair is).2) < dist2 p (palAt pal (pair is).1) then palAt pal (pair is).2
            else palAt pal (pair is).1)

theorem reduceWith_reducedToPairs (h : reduceWith pal s = .ok t) (hmc : s.mc = false) :
    ReducedToPairs pal (hiresPair s.strict) s t := by
  obtain ⟨ht, hpix, hasg⟩ := reduceWith_frame h
  refine ⟨ht, hpix.above, hasg.above, fun row hr col hc => ?_⟩
  obtain ⟨is, his, hentry, hpixel⟩ := reduceWith_hires_block h hmc hr hc
  simp only [remapColour_pair] at hpixel
  exact ⟨is, his, hentry, hpixel⟩

/-- After a completed hires `REDUCE` all pixels of a block have one of two palette colours (R173). -/
theorem reduceWith_hires_colours (h : reduceWith pal s = .ok t) (hmc : s.mc = false) (hr : row < s.geom.nby)
    (hc : col < s.geom.nbx) :
    ∃ f k, f ≠ k ∧ t.asg.read (row * s.geom.nbx + col) = some (hiresEntry f k) ∧
      ∀ xy ∈ s.geom.blockPixels row col, getPixel s.geom t.pix xy.1 xy.2 = .ok (palAt pal f) ∨
        getPixel s.geom t.pix xy.1 xy.2 = .ok (palAt pal k) := by
  obtain ⟨is, -, hentry, hpixel⟩ := reduceWith_hires_block h hmc hr hc
  refine ⟨_, _, hiresPair_ne s.strict is, hentry, fun xy hxy => ?_⟩
  obtain ⟨p, -, hp⟩ := hpixel xy hxy
  obtain ⟨i, hi, hcolour⟩ := remapColour_mem pal (hiresPair s.strict is).1 [(hiresPair s.strict is).2] p
  rw [hcolour] at hp
  rcases List.mem_pair.1 hi with rfl | rfl
  · exact .inl hp
  · exact .inr hp

/-! ## Idempotence of the two-pass policy -/

/-- In a block that shows at most two palette colours the two-pass policy gives every pixel the colour it has: at most two nearest
indices are observed, so the pair holds the one of the pixel, whose colour is the pixel's own (R174). -/
theorem remapColour_twoColourBlock {a b : Idx} {is : List Idx}
    (hpixel : ∀ xy ∈ s.geom.blockPixels row col, getPixel s.geom s.pix xy.1 xy.2 = .ok (palAt pal a) ∨
      getPixel s.geom s.pix xy.1 xy.2 = .ok (palAt pal b))
    (his : BlockIndices pal s row col is) {xy : Nat × Nat} (hxy : xy ∈ s.geom.blockPixels row col) {p : Rgb}
    (hp : getPixel s.geom s.pix xy.1 xy.2 = .ok p) :
    remapColour pal (selectHires (tally is)).1 [(selectHires (tally is)).2] p = p := by
  have hcolour : ∀ xy ∈ s.geom.blockPixels row col, ∀ q, getPixel s.geom s.pix xy.1 xy.2 = .ok q →
      q = palAt pal a ∨ q = palAt pal b := by
    intro xy hxy q hq
    rcases hpixel xy hxy with h | h
    · exact .inl (Except.ok.inj (hq.symm.trans h))
    · exact .inr (Except.ok.inj (hq.symm.trans h))
  have htwo : ∀ i, 1 ≤ tally is i → i = nearest16 pal (palAt pal a) ∨ i = nearest16 pal (palAt pal b) := by
    intro i hi
    obtain ⟨xy, hxy, q, hq, rfl⟩ := (mem_pixelIndices his i).1 (tally_pos.1 hi)
    exact (hcolour xy hxy q hq).imp (congrArg _) (congrArg _)
  have hslot := selectHires_observed htwo (tally_pos.2 ((mem_pixelIndices his _).2 ⟨xy, hxy, p, hp, rfl⟩))
  have hself : palAt pal (nearest16 pal p) = p := by
    rcases hcolour xy hxy p hp with rfl | rfl <;> exact palAt_nearest16_palAt pal _
  have hfix := remapColour_slot pal hslot
  rwa [hself] at hfix

/-- A second two-pass `REDUCE` completes and leaves `PIX` as the first left it (R174). -/
theorem reduceWith_twoPass_again (hwf : s.pix.wf) (hmc : s.mc = false) (hst : s.strict = false)
    (h : reduceWith pal s = .ok t) : ∃ u, reduceWith pal t = .ok u ∧ u.pix = t.pix := by
  obtain ⟨-, hpix, -⟩ := reduceWith_frame h
  have hg := reduceWith_geom h
  have hmct : t.mc = false := (reduceWith_mc h).trans hmc
  have hstt : t.strict = false := (reduceWith_strict h).trans hst
  have hw : PixWritten t := by rw [PixWritten, hg]; exact hpix.writtenBelow (reduceWith_written h)
  obtain ⟨u, hu⟩ := reduceWith_completes (pal := pal) hw hstt
  refine ⟨u, hu, reduceWith_pix_eq (hpix.wf hwf) hu fun rc hrc is his xy hxy p hp => ?_⟩
  rw [hg] at hrc
  obtain ⟨hr, hc⟩ := Geometry.mem_blocks.1 hrc
  obtain ⟨f, k, -, -, hcolours⟩ := reduceWith_hires_colours h hmc hr hc
  rw [← hg] at hcolours
  rw [planOf_hires hmct, hstt]
  exact remapColour_twoColourBlock hcolours his hxy hp

/-! ## The strict variant on a written image -/

theorem reduceWith_of_strict (hmc : s.mc = false) (hst : s.strict = true) : reduceWith pal s =
    (reduceStrict pal s.geom (s.pix, s.asg) >>= fun m => .ok (((s.setPix m.1).setAsg m.2).setAsgv true)) := by
  simp only [reduceWith, reduceMem, hmc, hst, Bool.false_eq_true, if_false, if_true]

/-- The scan of a block without three different colours gives its pair (R169, R176). -/
theorem scanBlock_of_not_threeColours (hw : PixWritten s) (hr : row < s.geom.nby) (hc : col < s.geom.nbx)
    (h : ¬ ThreeColours pal s row col) :
    ∃ is, BlockIndices pal s row col is ∧ scanBlock pal s.geom s.pix (row, col) = .ok (strictPair is) := by
  obtain ⟨is, his, ⟨hs, -⟩ | ⟨-, hthree⟩⟩ := scanBlock_of_written (pal := pal) hw s.geom_bw_pos hr hc
  · exact ⟨is, his, hs⟩
  · exact absurd ⟨is, his, hthree⟩ h

/-- The scan of a block with three different colours reports it (R170, R176). -/
theorem scanBlock_of_threeColours (hw : PixWritten s) (hr : row < s.geom.nby) (hc : col < s.geom.nbx)
    (h : ThreeColours pal s row col) : scanBlock pal s.geom s.pix (row, col) =
      .error (.raise .paletteOverflow (BitVec.ofNat 8 row) (BitVec.ofNat 8 col)) := by
  obtain ⟨is, his, ⟨-, hnot⟩ | ⟨hs, -⟩⟩ := scanBlock_of_written (pal := pal) hw s.geom_bw_pos hr hc
  · obtain ⟨is', his', hthree⟩ := h
    obtain rfl : is' = is := Except.ok.inj (his'.symm.trans his)
    exact absurd hthree hnot
  · exact hs

/-- The check pass ends at the first block with three different colours (R170, R171). -/
theorem reduceWith_strict_overflow (hmc : s.mc = false) (hst : s.strict = true) (hw : PixWritten s)
    (hr : row < s.geom.nby) (hc : col < s.geom.nbx) (h : ThreeColours pal s row col)
    (hfirst : ∀ r < s.geom.nby, ∀ c < s.geom.nbx, BlockBefore r c row col → ¬ ThreeColours pal s r c) :
    reduceWith pal s = .error (.raise .paletteOverflow (BitVec.ofNat 8 row) (BitVec.ofNat 8 col)) := by
  obtain ⟨pre, post, hblocks, hpre⟩ :=
    Geometry.split_blocks (Geometry.mem_blocks.2 (show (row, col).1 < _ ∧ (row, col).2 < _ from ⟨hr, hc⟩))
  have hpass : ∀ z ∈ pre, ∃ fs, scanBlock pal s.geom s.pix z = .ok fs := by
    intro z hz
    obtain ⟨hmem, hbefore⟩ := hpre z hz
    obtain ⟨hzr, hzc⟩ := Geometry.mem_blocks.1 hmem
    obtain ⟨is, -, hs⟩ := scanBlock_of_not_threeColours hw hzr hzc (hfirst _ hzr _ hzc hbefore)
    exact ⟨_, hs⟩
  rw [reduceWith_of_strict hmc hst, reduceStrict, hblocks,
    scanBlocks_error hpass (scanBlock_of_threeColours hw hr hc h), error_bind, error_bind]

/-- The strict variant completes when no block has three different colours (R172). -/
theorem reduceWith_strict_completes (hmc : s.mc = false) (hst : s.strict = true) (hw : PixWritten s)
    (h : ∀ row < s.geom.nby, ∀ col < s.geom.nbx, ¬ ThreeColours pal s row col) : ∃ t, reduceWith pal s = .ok t := by
  obtain ⟨m, -, hm, -⟩ := reduceStrict_of_written (pal := pal) (m := (s.pix, s.asg)) hw fun rc hrc => by
    obtain ⟨hr, hc⟩ := Geometry.mem_blocks.1 hrc
    exact scanBlock_of_not_threeColours hw hr hc (h _ hr _ hc)
  exact ⟨_, by rw [reduceWith_of_strict hmc hst, hm, ok_bind]⟩

/-! ## The background -/

/-- In hires mode no reducer is given the background (R160). -/
theorem reduceMem_setBgidx (hmc : s.mc = false) (i : Idx) : reduceMem pal (s.setBgidx i) = reduceMem pal s := by
  rw [reduceMem, reduceMem, State.setBgidx_mc, State.setBgidx_strict, State.setBgidx_geom, State.setBgidx_pix,
    State.setBgidx_asg, hmc, if_neg Bool.false_ne_true, if_neg Bool.false_ne_true]

theorem reduceWith_setBgidx_ok (hmc : s.mc = false) (i : Idx) (h : reduceWith pal s = .ok t) :
    reduceWith pal (s.setBgidx i) = .ok (t.setBgidx i) := by
  obtain ⟨m, hm, ht⟩ := bind_eq_ok.1 h
  cases ht
  rw [reduceWith, reduceMem_setBgidx hmc, hm]
  rfl

theorem reduceWith_setBgidx_error (hmc : s.mc = false) (i : Idx) {e : Abort} (h : reduceWith pal s = .error e) :
    reduceWith pal (s.setBgidx i) = .error e := by
  obtain hm | ⟨_, -, hm⟩ := bind_eq_error.1 h
  · rw [reduceWith, reduceMem_setBgidx hmc, hm, error_bind]
  · cases hm

/-! ## The statements -/

/-- Settles O32, from the laws of the two selections; the fallback is taken exactly when no other index is observed. -/
theorem twoPassSelectsTheMostFrequent : Obligations.TwoPassSelectsTheMostFrequent := by
  intro cnt f k
  have hfirst := selectHires_first cnt
  refine ⟨hfirst, fun ⟨j, hj⟩ => hj.trans (hfirst j).1, selectHires_ne cnt, fun hnone => ?_, fun ⟨j, hj, hobs⟩ => ?_⟩
  · rcases selectHires_second cnt with ⟨-, hk⟩ | ⟨hne, hobs, -⟩
    · exact hk
    · have := hnone _ hne; omega
  · rcases selectHires_second cnt with ⟨hnone, -⟩ | ⟨-, hk⟩
    · have := hnone j hj; omega
    · exact hk

/-- Settles O33: the loop completes on a written image, and blocks are disjoint, so each is reduced from the bytes it had. -/
theorem twoPassReduceWorksFromTheOriginalPixels : Obligations.TwoPassReduceWorksFromTheOriginalPixels := by
  intro s hmc hst hw
  obtain ⟨t, ht⟩ := reduceWith_completes (pal := Config.pal) hw hst
  have hpairs := reduceWith_reducedToPairs ht hmc
  rw [hst] at hpairs
  exact ⟨t, (exec_reduce_eq_next_iff hst).2 ht, hpairs⟩

/-- Settles O34: each pixel became the colour of one of the two slots that stand in the entry of its block. -/
theorem hiresReduceLeavesTwoColoursPerBlock : Obligations.HiresReduceLeavesTwoColoursPerBlock := by
  intro s t hmc h _ hterr
  have ht := execReduce_completed h hterr
  obtain ⟨-, hpix, -⟩ := reduceWith_frame ht
  refine ⟨reduceWith_asgv ht, hpix.above, fun row hr col hc => ?_⟩
  obtain ⟨f, k, hne, hentry, hcolours⟩ := reduceWith_hires_colours ht hmc hr hc
  refine ⟨_, hentry, ?_⟩
  rw [asgN0_hiresEntry, asgN1_hiresEntry, asgN2_hiresEntry]
  exact ⟨hne, rfl, hcolours⟩

/-- Settles O35: after the first pass a block shows two palette colours, and the second pass selects a pair that holds both. -/
theorem twoPassReduceIsIdempotentOnPixels : Obligations.TwoPassReduceIsIdempotentOnPixels := by
  intro s t hwf hmc hst h
  have ht := (exec_reduce_eq_next_iff hst).1 h
  obtain ⟨u, hu, hpix⟩ := reduceWith_twoPass_again hwf hmc hst ht
  exact ⟨u, (exec_reduce_eq_next_iff ((reduceWith_strict ht).trans hst)).2 hu, hpix⟩

/-- Settles O36: the check pass runs in row-major order, passes the blocks before the first overflow and ends there. -/
theorem strictReduceReportsTheFirstOverflow : Obligations.StrictReduceReportsTheFirstOverflow := by
  intro pal s row col hmc hst hw hr hc hthree hfirst
  rw [reduceWith_strict_overflow hmc hst hw hr hc hthree hfirst]
  rfl

/-- Settles O37: with no overflow the check pass gives every block its pair, and the write pass reduces each block to it. -/
theorem strictReduceKeepsTheFirstSeenPair : Obligations.StrictReduceKeepsTheFirstSeenPair := by
  intro s hmc hst hw hnone
  obtain ⟨t, ht⟩ := reduceWith_strict_completes hmc hst hw hnone
  have hpairs := reduceWith_reducedToPairs ht hmc
  rw [hst] at hpairs
  exact ⟨t, by rw [exec, execReduce, ht, finish_ok], hpairs⟩

/-- Settles O44: the reducers of hires mode are the same for every background, whether the command completes or raises. -/
theorem hiresReduceIgnoresTheBackground : Obligations.HiresReduceIgnoresTheBackground := by
  intro s t i hmc h
  change finish (s.setBgidx i) (reduceWith Config.pal (s.setBgidx i)) = .next (t.setBgidx i)
  rcases finish_eq_next (show finish s _ = _ from h) with hok | ⟨e, hi, lo, herr, rfl⟩
  · rw [reduceWith_setBgidx_ok hmc i hok, finish_ok]
  · rw [reduceWith_setBgidx_error hmc i herr, finish_raise]
    rfl

end Sys2Proof.Machine
end

section
/-! PROOFS. The family of spec/43_reduce_multicolor.md: which locals a block gets and how the free slots are filled (R192 to R194),
and what a multicolour `REDUCE` leaves of every block (R190, R195 to R199). -/

namespace Sys2Proof.Machine

variable {cnt : Idx → Nat} {bg : Idx} {pal : Palette} {s t : State} {row col : Nat}

/-! ## The locals -/

theorem selectLocals_pairwise (cnt : Idx → Nat) (bg : Idx) :
    (selectLocals cnt bg).Pairwise fun i j => rankedBefore cnt i j = true :=
  (rankSort_spec (candidates_nodup cnt bg)).2.sublist (List.take_sublist ..)

/-- A candidate is left out only behind three selected ones, all ranked before it: it stands in the rest of the ranked list
(R193). -/
theorem selectLocals_leftOut {j : Idx} (hj : j ∈ candidates cnt bg) (hout : j ∉ selectLocals cnt bg) :
    (selectLocals cnt bg).length = 3 ∧ ∀ i ∈ selectLocals cnt bg, rankedBefore cnt i j = true := by
  obtain ⟨hperm, hsorted⟩ := rankSort_spec (cnt := cnt) (candidates_nodup cnt bg)
  rw [selectLocals] at hout ⊢
  generalize (candidates cnt bg).foldr (rankInsert cnt) [] = ranked at hperm hsorted hout ⊢
  have hmem : j ∈ ranked.take 3 ++ ranked.drop 3 := by rw [List.take_append_drop]; exact hperm.mem_iff.2 hj
  have hrest : j ∈ ranked.drop 3 := (List.mem_append.1 hmem).resolve_left hout
  rw [← List.take_append_drop 3 ranked, List.pairwise_append] at hsorted
  have hpos := List.length_pos_of_mem hrest
  rw [List.length_drop] at hpos
  exact ⟨List.length_take_of_le (by omega), fun i hi => hsorted.2.2 i hi j hrest⟩

/-! ## The fillers -/

theorem length_addFiller (slots : List Idx) : (addFiller slots).length = slots.length + 1 := List.length_append

theorem addFiller_extends (slots : List Idx) : slots <+: addFiller slots := List.prefix_append ..

theorem fillSlots_extends (n : Nat) (slots : List Idx) : slots <+: fillSlots n slots := by
  induction n generalizing slots with
  | zero => exact List.prefix_refl _
  | succ n ih =>
    rw [fillSlots]
    split
    · exact (addFiller_extends slots).trans (ih _)
    · exact List.prefix_refl _

theorem cons_localSlots (cnt : Idx → Nat) (bg : Idx) :
    bg :: localSlots cnt bg = fillSlots 4 (bg :: selectLocals cnt bg) := by
  obtain ⟨rest, h⟩ := fillSlots_extends 4 (bg :: selectLocals cnt bg)
  rw [localSlots, ← h]
  rfl

/-- Every index between a slot and the filler after it is in an earlier slot (R194). -/
theorem fillSlots_skips {n k d : Nat} {slots : List Idx} (hne : slots ≠ []) (hk : slots.length ≤ k)
    (hlen : k < (fillSlots n slots).length) (h0 : 0 < d)
    (hd : d < ((fillSlots n slots).getD k 0 - (fillSlots n slots).getD (k - 1) 0).toNat) :
    (fillSlots n slots).getD (k - 1) 0 + BitVec.ofNat 4 d ∈ (fillSlots n slots).take k := by
  induction n generalizing slots with
  | zero => exact absurd hlen (Nat.not_lt.2 hk)
  | succ n ih =>
    rw [fillSlots] at hlen hd ⊢
    split at hlen
    · next hlt =>
      rw [if_pos hlt] at hd ⊢
      rcases Nat.eq_or_lt_of_le hk with rfl | hk
      · have hl := length_addFiller slots
        obtain ⟨rest, h⟩ := fillSlots_extends n (addFiller slots)
        rw [← h, List.getD_append _ _ _ _ (by omega), List.getD_append _ _ _ _ (by omega)] at hd
        rw [← h, List.getD_append _ _ _ _ (by omega), List.take_append_of_le_length (by omega),
          ← List.prefix_iff_eq_take.1 (addFiller_extends slots)]
        exact addFiller_skips hne h0 hd
      · exact ih (List.append_ne_nil_of_left_ne_nil hne _) (by rw [length_addFiller]; exact hk) hlen hd
    · exact absurd hlen (Nat.not_lt.2 hk)

/-! ## The command -/

/-- Multicolour mode with the strict variant is no supported combination, whatever `PIX` holds (R190). -/
theorem reduceWith_unsupported (hmc : s.mc = true) (hst : s.strict = true) :
    reduceWith pal s = .error (.raise .unsupportedMode 1 0x12) := by
  rw [reduceWith, reduceMem, if_pos hmc, if_pos hst, error_bind]

theorem reduceWith_multicolor_strict (h : reduceWith pal s = .ok t) (hmc : s.mc = true) : s.strict = false := by
  refine Bool.eq_false_iff.2 fun hst => ?_
  rw [reduceWith_unsupported hmc hst] at h
  cases h

theorem reduceWith_bgidx (h : reduceWith pal s = .ok t) : t.bgidx = s.bgidx := by rw [(reduceWith_frame h).1]

/-! ## A block after the command -/

/-- What a completed multicolour `REDUCE` leaves of a block: the locals made from the pixels it had stand in its entry, and each
pixel became the nearest of the four slots, measured from the bytes it had (R192 to R197). -/
theorem reduceWith_multicolor_block (h : reduceWith pal s = .ok t) (hmc : s.mc = true) (hr : row < s.geom.nby)
    (hc : col < s.geom.nbx) :
    ∃ is l0 l1 l2, BlockIndices pal s row col is ∧ localSlots (tally is) s.bgidx = [l0, l1, l2] ∧
      t.asg.read (row * s.geom.nbx + col) = some (mcEntry [l0, l1, l2]) ∧
      ∀ xy ∈ s.geom.blockPixels row col, ∃ p, getPixel s.geom s.pix xy.1 xy.2 = .ok p ∧
        getPixel s.geom t.pix xy.1 xy.2 = .ok (remapColour pal s.bgidx [l0, l1, l2] p) := by
  have hw := reduceWith_written h
  obtain ⟨m, plan, rfl, hb, hplan⟩ := reduceWith_plans h
  have hrc : (row, col) ∈ s.geom.blocks := Geometry.mem_blocks.2 ⟨hr, hc⟩
  obtain ⟨is, his, hp⟩ := hplan _ hrc
  obtain ⟨l0, l1, l2, hl⟩ := localSlots_eq (tally is) s.bgidx
  rw [planOf, if_pos hmc, multicolorPlan, hl] at hp
  have hentry := hb.entry _ hrc
  have hpixel := hb.pixel _ hrc
  rw [hp] at hentry hpixel
  refine ⟨is, l0, l1, l2, his, hl, hentry, fun xy hxy => ?_⟩
  obtain ⟨hx, hy⟩ := Geometry.blockPixels_lt hxy
  obtain ⟨p, hpx⟩ := getPixel_of_written hw hx hy
  exact ⟨p, hpx, hpixel xy hxy p hpx⟩

/-- After a completed multicolour `REDUCE` all pixels of a block have one of four palette colours, whose indices differ and stand
in `BGIDX` and the entry (R198). -/
theorem reduceWith_multicolor_colours (h : reduceWith pal s = .ok t) (hmc : s.mc = true) (hr : row < s.geom.nby)
    (hc : col < s.geom.nbx) :
    ∃ l0 l1 l2, [s.bgidx, l0, l1, l2].Nodup ∧ t.asg.read (row * s.geom.nbx + col) = some (mcEntry [l0, l1, l2]) ∧
      ∀ xy ∈ s.geom.blockPixels row col, ∃ i ∈ [s.bgidx, l0, l1, l2],
        getPixel s.geom t.pix xy.1 xy.2 = .ok (palAt pal i) := by
  obtain ⟨is, l0, l1, l2, -, hl, hentry, hpixel⟩ := reduceWith_multicolor_block h hmc hr hc
  refine ⟨l0, l1, l2, hl ▸ (localSlots_spec (tally is) s.bgidx).1, hentry, fun xy hxy => ?_⟩
  obtain ⟨p, -, hp⟩ := hpixel xy hxy
  obtain ⟨i, hi, hcolour⟩ := remapColour_mem pal s.bgidx [l0, l1, l2] p
  exact ⟨i, hi, hcolour ▸ hp⟩

/-- A colour that quantises to the first slot becomes the colour of that slot: a later slot would have to be nearer (R199). -/
theorem remapColour_nearest16 (p : Rgb) (cs : List Idx) :
    remapColour pal (nearest16 pal p) cs p = palAt pal (nearest16 pal p) := by
  obtain ⟨n, hn, hcolour, hleast⟩ := remapColour_spec pal (nearest16 pal p) cs p
  rcases Nat.eq_zero_or_pos n with rfl | hpos
  · exact hcolour
  · exact absurd ((hleast 0 (Nat.succ_pos _)).2 hpos) (not_lt.2 (nearest16_spec pal p _).1)

/-! ## Idempotence -/

/-- With distinct entries the index of a palette colour is recovered from the colour (R124). -/
theorem nearest16_palAt (hd : PalDistinct pal) (i : Idx) : nearest16 pal (palAt pal i) = i :=
  eq_of_palAt_eq hd (palAt_nearest16_palAt pal i)

/-- In a block that shows only the background and three palette colours multicolour mode gives every pixel the colour it has: at
most three indices beside the background are observed, so the four slots hold the one of the pixel (R198). -/
theorem remapColour_fourColourBlock (hd : PalDistinct pal) {a b c : Idx} {is : List Idx}
    (hpixel : ∀ xy ∈ s.geom.blockPixels row col, ∃ i ∈ [bg, a, b, c],
      getPixel s.geom s.pix xy.1 xy.2 = .ok (palAt pal i))
    (his : BlockIndices pal s row col is) {xy : Nat × Nat} (hxy : xy ∈ s.geom.blockPixels row col) {p : Rgb}
    (hp : getPixel s.geom s.pix xy.1 xy.2 = .ok p) : remapColour pal bg (localSlots (tally is) bg) p = p := by
  have hfour : ∀ i, 1 ≤ tally is i → i = bg ∨ i = a ∨ i = b ∨ i = c := by
    intro i hi
    obtain ⟨xy, hxy, q, hq, rfl⟩ := (mem_pixelIndices his i).1 (tally_pos.1 hi)
    obtain ⟨j, hj, hcolour⟩ := hpixel xy hxy
    obtain rfl : q = palAt pal j := Except.ok.inj (hq.symm.trans hcolour)
    rw [nearest16_palAt hd]
    simpa using hj
  obtain ⟨i, -, hcolour⟩ := hpixel xy hxy
  obtain rfl : p = palAt pal i := Except.ok.inj (hp.symm.trans hcolour)
  have hobserved : i ∈ is := (mem_pixelIndices his i).2 ⟨xy, hxy, _, hp, nearest16_palAt hd i⟩
  exact remapColour_slot pal (localSlots_observed hfour (tally_pos.2 hobserved))

/-- A second multicolour `REDUCE` completes and leaves `PIX` as the first left it (R198). -/
theorem reduceWith_multicolor_again (hd : PalDistinct pal) (hwf : s.pix.wf) (hmc : s.mc = true)
    (h : reduceWith pal s = .ok t) : ∃ u, reduceWith pal t = .ok u ∧ u.pix = t.pix := by
  obtain ⟨-, hpix, -⟩ := reduceWith_frame h
  have hg := reduceWith_geom h
  have hmct : t.mc = true := (reduceWith_mc h).trans hmc
  have hstt : t.strict = false := (reduceWith_strict h).trans (reduceWith_multicolor_strict h hmc)
  have hw : PixWritten t := by rw [PixWritten, hg]; exact hpix.writtenBelow (reduceWith_written h)
  obtain ⟨u, hu⟩ := reduceWith_completes (pal := pal) hw hstt
  refine ⟨u, hu, reduceWith_pix_eq (hpix.wf hwf) hu fun rc hrc is his xy hxy p hp => ?_⟩
  rw [hg] at hrc
  obtain ⟨hr, hc⟩ := Geometry.mem_blocks.1 hrc
  obtain ⟨l0, l1, l2, -, -, hcolours⟩ := reduceWith_multicolor_colours h hmc hr hc
  rw [← hg, ← reduceWith_bgidx h] at hcolours
  rw [planOf, if_pos hmct]
  exact remapColour_fourColourBlock hd hcolours his hxy hp

/-! ## The statements -/

/-- Settles O31: the mode is checked before `PIX` is read, and the error is entered upon the state the command started in. -/
theorem reduceInStrictMulticolourIsUnsupported : Obligations.ReduceInStrictMulticolourIsUnsupported := by
  intro s hmc hst
  rw [exec, execReduce, reduceWith_unsupported hmc hst]
  rfl

/-- Settles O38: the selected locals are the first three of the candidates as ranked. -/
theorem localsAreTheTopRankedCandidates : Obligations.LocalsAreTheTopRankedCandidates := by
  intro cnt bg before
  have hbefore : ∀ i j, rankedBefore cnt i j = true → before i j := fun _ _ => rankedBefore_iff.1
  refine ⟨fun i hi => mem_candidates.1 (mem_selectLocals hi), (selectLocals_pairwise cnt bg).imp (hbefore _ _),
    (selectLocals_length cnt bg).trans_le (Nat.min_le_left ..), fun j hj hobs hout => ?_⟩
  obtain ⟨hlen, hall⟩ := selectLocals_leftOut (mem_candidates.2 ⟨hj, hobs⟩) hout
  exact ⟨hlen, fun i hi => hbefore i j (hall i hi)⟩

/-- Settles O39: the slots are filled one at a time, each filler searched for from the slot before it. -/
theorem fillersAreTheNextFreeIndices : Obligations.FillersAreTheNextFreeIndices := by
  intro cnt bg slots
  have hslots : slots = fillSlots 4 (bg :: selectLocals cnt bg) := cons_localSlots cnt bg
  obtain ⟨hnodup, hthree, hlocals⟩ := localSlots_spec cnt bg
  have hlen : slots.length = 4 := congrArg (· + 1) hthree
  refine ⟨hlen, hnodup, (List.prefix_cons_inj bg).2 hlocals, fun n hn hn4 d h0 hd => ?_⟩
  rw [hslots] at hlen hd ⊢
  exact fillSlots_skips (List.cons_ne_nil _ _) hn (hn4.trans_eq hlen.symm) h0 hd

/-- Settles O40: the loop completes on a written image, and blocks are disjoint, so each is reduced from the bytes it had. -/
theorem multicolourReduceWorksFromTheOriginalPixels : Obligations.MulticolourReduceWorksFromTheOriginalPixels := by
  intro s hmc hst hw
  obtain ⟨t, ht⟩ := reduceWith_completes (pal := Config.pal) hw hst
  obtain ⟨hframe, hpix, hasg⟩ := reduceWith_frame ht
  refine ⟨t, (exec_reduce_eq_next_iff hst).2 ht, hframe, hpix.above, hasg.above, fun row hr col hc => ?_⟩
  obtain ⟨is, l0, l1, l2, his, hl, hentry, hpixel⟩ := reduceWith_multicolor_block ht hmc hr hc
  refine ⟨is, l0, l1, l2, his, hl, hentry, fun xy hxy => ?_⟩
  obtain ⟨p, hp, hremap⟩ := hpixel xy hxy
  obtain ⟨n, hn, hcolour, hleast⟩ := remapColour_spec Config.pal s.bgidx [l0, l1, l2] p
  exact ⟨p, hp, n, hn, hcolour ▸ hremap, hleast⟩

/-- Settles O41: each pixel became the colour of one of the four slots, the background and those in the entry of its block. -/
theorem multicolourReduceLeavesFourColoursPerBlock : Obligations.MulticolourReduceLeavesFourColoursPerBlock := by
  intro s t hmc h _ hterr
  have ht := execReduce_completed h hterr
  refine ⟨reduceWith_asgv ht, reduceWith_bgidx ht, fun row hr col hc => ?_⟩
  obtain ⟨l0, l1, l2, hnodup, hentry, hcolours⟩ := reduceWith_multicolor_colours ht hmc hr hc
  refine ⟨_, hentry, ?_⟩
  rw [asgN0_mcEntry, asgN1_mcEntry, asgN2_mcEntry]
  exact ⟨hnodup, hcolours⟩

/-- Settles O42: after the first pass a block shows four palette colours, and the second pass selects slots that hold all that it
observes. -/
theorem multicolourReduceIsIdempotentWhenPalDistinct : Obligations.MulticolourReduceIsIdempotentWhenPalDistinct :=
  fun _ _ _ hd hwf hmc h => reduceWith_multicolor_again hd hwf hmc h

/-- Settles O43: the background is the first slot of every block, and no slot is nearer than the nearest palette entry. -/
theorem backgroundPixelsStayBackground : Obligations.BackgroundPixelsStayBackground := by
  intro s t x y p hmc _ h hterr hx hy hp hbg
  have ht := execReduce_completed h hterr
  obtain ⟨hr, hc⟩ := Geometry.block_lt s.geom_bw_pos hx hy
  obtain ⟨is, l0, l1, l2, -, -, -, hpixel⟩ := reduceWith_multicolor_block ht hmc hr hc
  obtain ⟨q, hq, hremap⟩ := hpixel (x, y) (Geometry.mem_block s.geom_bw_pos hx hy)
  obtain rfl : q = p := Except.ok.inj (hq.symm.trans hp)
  rw [hremap, ← hbg, remapColour_nearest16]

end Sys2Proof.Machine
end

section
/-! PROOFS. The family of spec/44_encode.md: the checks before anything is written (R210, R213, R220), and what a completed
`ENCODE` leaves in the two planes (R211, R214 to R219, R222). -/

namespace Sys2Proof.Machine

variable {pal : Palette} {s t : State} {row col x y : Nat}

/-! ## The class of a pixel -/

theorem classify_cases (pal : Palette) (bg fg : Idx) (p : Rgb) :
    (p = palAt pal bg ∧ classify pal bg fg p = .background) ∨
      (p ≠ palAt pal bg ∧ p = palAt pal fg ∧ classify pal bg fg p = .foreground) ∨
      (p ≠ palAt pal bg ∧ p ≠ palAt pal fg ∧ classify pal bg fg p = .neither) := by
  rw [classify]
  split_ifs with hbg hfg
  · exact .inl ⟨hbg, rfl⟩
  · exact .inr (.inl ⟨hbg, hfg, rfl⟩)
  · exact .inr (.inr ⟨hbg, hfg, rfl⟩)

/-- A pixel that has one of its cell's two colours is in the foreground exactly when it differs from the background (R212). -/
theorem classify_eq_foreground_iff {bg fg : Idx} {p : Rgb} (h : classify pal bg fg p ≠ .neither) :
    classify pal bg fg p = .foreground ↔ p ≠ palAt pal bg := by
  rcases classify_cases pal bg fg p with ⟨hbg, hc⟩ | ⟨hbg, -, hc⟩ | ⟨-, -, hc⟩
  · exact iff_of_false (by simp [hc]) (not_not.2 hbg)
  · exact iff_of_true hc hbg
  · exact absurd hc h

/-- A pixel that has one of its cell's two colours has the one of its class (R212, R222). -/
theorem eq_palAt_of_ne_neither {bg fg : Idx} {p : Rgb} (h : classify pal bg fg p ≠ .neither) :
    p = palAt pal (if classify pal bg fg p = .foreground then fg else bg) := by
  rcases classify_cases pal bg fg p with ⟨hp, hc⟩ | ⟨-, hp, hc⟩ | ⟨-, -, hc⟩
  · simpa [hc] using hp
  · simpa [hc] using hp
  · exact absurd hc h

theorem classify_ne_neither {bg fg : Idx} {p : Rgb} (h : p = palAt pal bg ∨ p = palAt pal fg) :
    classify pal bg fg p ≠ .neither := by
  rcases classify_cases pal bg fg p with ⟨-, hc⟩ | ⟨-, -, hc⟩ | ⟨hbg, hfg, -⟩
  · simp [hc]
  · simp [hc]
  · exact absurd h (not_or.2 ⟨hbg, hfg⟩)

theorem isForeground_iff {g : Geometry} {pix : Memory Byte} {asg : Memory AsgEntry} {e : AsgEntry} {p : Rgb}
    (he : asg.read (g.asgIndex (y / 8) (x / 8)) = some e) (hp : getPixel g pix x y = .ok p) :
    IsForeground pal g pix asg x y ↔ classify pal (asgN0 e) (asgN1 e) p = .foreground := by
  refine ⟨fun ⟨e', p', he', hp', h⟩ => ?_, fun h => ⟨e, p, he, hp, h⟩⟩
  obtain rfl : e' = e := Option.some.inj (he'.symm.trans he)
  obtain rfl : p' = p := Except.ok.inj (hp'.symm.trans hp)
  exact h

/-! ## The planes -/

/-- The two nibbles of a colour byte (R216). -/
theorem highNibble_append (fg bg : Idx) : ((fg ++ bg : Byte) >>> 4).setWidth 4 = fg := by revert fg bg; decide

theorem lowNibble_append (fg bg : Idx) : ((fg ++ bg : Byte) &&& 0x0F).setWidth 4 = bg := by revert fg bg; decide

theorem PlaneOk.isSome_read_iff {n : Nat} {m : Memory Byte} (h : PlaneOk n m) (a : Nat) : (m.read a).isSome ↔ a < n := by
  refine ⟨fun ha => ?_, h.written a⟩
  obtain ⟨v, hv⟩ := Option.isSome_iff_exists.1 ha
  exact Memory.read_lt h.within hv

/-- The byte of a screen pixel is written, and holds the pixel's bit at `7 - (x & 7)` (R214). -/
theorem PlaneOk.exists_bit {m : Memory Byte} (h : PlaneOk 8000 m) (hx : x < 320) (hy : y < 200) :
    ∃ v, m.read (y / 8 * 320 + x / 8 * 8 + y % 8) = some v ∧ v.getLsbD (7 - x % 8) = bitAt m x y := by
  obtain ⟨v, hv⟩ := Option.isSome_iff_exists.1 (h.written _ (bitmapOffset_lt hx hy))
  exact ⟨v, hv, by rw [bitAt, hv]; rfl⟩

/-! ## The checks before the write pass -/

theorem State.geom_bw_hires (hmc : s.mc = false) : s.geom.bw = 8 := by rw [State.geom_bw, hmc, blockWidth_false]

theorem encodeWith_of_multicolor (hmc : s.mc = true) : encodeWith pal s = .error (.raise .unsupportedMode 2 0x13) := by
  rw [encodeWith, if_pos hmc]

theorem encodeWith_of_no_assignment (hmc : s.mc = false) (ha : s.asgv = false) : encodeWith pal s = illegal 4 0x13 := by
  rw [encodeWith, hmc, ha]
  rfl

theorem encodeWith_of_assigned (hmc : s.mc = false) (ha : s.asgv = true) : encodeWith pal s = encodeHires pal s := by
  rw [encodeWith, hmc, ha]
  rfl

/-- The check of an overflowing cell reports it (R213). -/
theorem checkCell_of_overflows (hw : PixWritten s) (h : CellOverflows pal s row col) :
    checkCell pal s.geom s.pix s.asg (row, col) =
      .error (.raise .blockOverflow (BitVec.ofNat 8 row) (BitVec.ofNat 8 col)) := by
  obtain ⟨e, he, xy, hxy, p, hp, hn⟩ := h
  rcases checkCell_of_written (pal := pal) (rc := (row, col)) hw he with ⟨hall, -⟩ | ⟨-, hreport⟩
  · exact absurd hn (hall xy hxy p hp)
  · exact hreport

/-- The check of a cell that does not overflow passes (R213). -/
theorem checkCell_of_not_overflows (hw : PixWritten s) (hasg : s.asg.writtenBelow s.geom.nblk) (hr : row < s.geom.nby)
    (hc : col < s.geom.nbx) (h : ¬ CellOverflows pal s row col) :
    checkCell pal s.geom s.pix s.asg (row, col) = .ok () := by
  obtain ⟨e, he⟩ := Option.isSome_iff_exists.1 (hasg _ (Geometry.asgIndex_lt hr hc))
  rcases checkCell_of_written (pal := pal) (rc := (row, col)) hw he with ⟨-, hpass⟩ | ⟨hover, -⟩
  · exact hpass
  · exact absurd ⟨e, he, hover⟩ h

/-- The check pass ends at the first overflowing cell (R213). -/
theorem encodeWith_overflow (hmc : s.mc = false) (ha : s.asgv = true) (hw : PixWritten s)
    (hasg : s.asg.writtenBelow s.geom.nblk) (hr : row < s.geom.nby) (hc : col < s.geom.nbx)
    (h : CellOverflows pal s row col)
    (hfirst : ∀ r < s.geom.nby, ∀ c < s.geom.nbx, BlockBefore r c row col → ¬ CellOverflows pal s r c) :
    encodeWith pal s = .error (.raise .blockOverflow (BitVec.ofNat 8 row) (BitVec.ofNat 8 col)) := by
  obtain ⟨pre, post, hblocks, hpre⟩ :=
    Geometry.split_blocks (Geometry.mem_blocks.2 (show (row, col).1 < _ ∧ (row, col).2 < _ from ⟨hr, hc⟩))
  have hpass : ∀ z ∈ pre, checkCell pal s.geom s.pix s.asg z = .ok () := by
    intro z hz
    obtain ⟨hmem, hbefore⟩ := hpre z hz
    obtain ⟨hzr, hzc⟩ := Geometry.mem_blocks.1 hmem
    exact checkCell_of_not_overflows hw hasg hzr hzc (hfirst _ hzr _ hzc hbefore)
  rw [encodeWith_of_assigned hmc ha, encodeHires, checkCells_error hblocks hpass (checkCell_of_overflows hw h), error_bind]

/-! ## A completed `ENCODE` -/

/-- An `ENCODE` that answers no error completed. -/
theorem execEncode_completed (h : execEncode s = .next t) (ht : t.err = false) : encodeWith Config.pal s = .ok t := by
  rcases finish_eq_next h with h | ⟨e, hi, lo, -, rfl⟩
  · exact h
  · cases ht

/-- `ENCODE` completes on a written hires image without an overflowing cell, and writes the output aggregate and nothing else. -/
theorem encodeWith_completes (hmc : s.mc = false) (ha : s.asgv = true) (hwid : s.width.toNat ≤ 320)
    (hhei : s.height.toNat ≤ 200) (hw : PixWritten s) (hasg : s.asg.writtenBelow s.geom.nblk)
    (h : ∀ row < s.geom.nby, ∀ col < s.geom.nbx, ¬ CellOverflows pal s row col) :
    ∃ bitmap cram, encodeWith pal s = .ok (s.setOutput bitmap cram false) := by
  obtain ⟨planes, henc, -⟩ := encodeWith_of_ready (pal := pal) hmc ha hw hwid hhei
    (fun n hn => Option.isSome_iff_exists.1 (hasg n hn)) fun rc hrc => by
      obtain ⟨hr, hc⟩ := Geometry.mem_blocks.1 hrc
      exact checkCell_of_not_overflows hw hasg hr hc (h _ hr _ hc)
  exact ⟨_, _, henc⟩

/-- The check pass of a completed `ENCODE` found every pixel of the image in its cell's pair (R213). -/
theorem encodeWith_pixel (h : encodeWith pal s = .ok t) (hwid : s.width.toNat ≤ 320) (hhei : s.height.toNat ≤ 200)
    (hx : x < s.width.toNat) (hy : y < s.height.toNat) :
    y / 8 < s.geom.nby ∧ x / 8 < s.geom.nbx ∧ ∃ e p, s.asg.read (s.geom.asgIndex (y / 8) (x / 8)) = some e ∧
      getPixel s.geom s.pix x y = .ok p ∧ classify pal (asgN0 e) (asgN1 e) p ≠ .neither := by
  obtain ⟨hmc, -⟩ := encodeWith_ok h
  obtain ⟨-, hpixels, -⟩ := encodeWith_completed h hwid hhei
  have hlt := Geometry.block_lt s.geom_bw_pos hx hy
  have hmem := Geometry.mem_block s.geom_bw_pos hx hy
  rw [State.geom_bw_hires hmc] at hlt hmem
  exact ⟨hlt.1, hlt.2, hpixels (y / 8, x / 8) (Geometry.mem_blocks.2 hlt) (x, y) hmem⟩

/-- The screen that a completed `ENCODE` leaves, as R211 and R214 to R219 lay it out. -/
theorem encodeWith_layout (h : encodeWith pal s = .ok t) (hwid : s.width.toNat ≤ 320) (hhei : s.height.toNat ≤ 200) :
    PlanesWritten pal s.geom s.pix s.asg (t.bitmap, t.cram) := by
  obtain ⟨-, -, planes, rfl, hplanes⟩ := encodeWith_completed h hwid hhei
  exact hplanes

/-- In the image a bit is 1 exactly where the pixel differs from its cell's background (R212, R215). -/
theorem encodeWith_bit (h : encodeWith pal s = .ok t) (hwid : s.width.toNat ≤ 320) (hhei : s.height.toNat ≤ 200)
    (hx : x < 320) (hy : y < 200) :
    bitAt t.bitmap x y = true ↔ x < s.width.toNat ∧ y < s.height.toNat ∧
      ∃ e, s.asg.read (y / 8 * s.geom.nbx + x / 8) = some e ∧
        getPixel s.geom s.pix x y ≠ .ok (palAt pal (asgN0 e)) := by
  rw [(encodeWith_layout h hwid hhei).bit x hx y hy]
  refine and_congr_right fun hxw => and_congr_right fun hyh => ?_
  obtain ⟨-, -, e, p, he, hp, hn⟩ := encodeWith_pixel h hwid hhei hxw hyh
  rw [isForeground_iff he hp, classify_eq_foreground_iff hn, hp]
  constructor
  · exact fun hne => ⟨e, he, fun heq => hne (Except.ok.inj heq)⟩
  · rintro ⟨e', he', hne⟩ rfl
    obtain rfl : e' = e := Option.some.inj (he'.symm.trans he)
    exact hne rfl

/-! ## After `REDUCE` -/

/-- A written image is still written after a completed `REDUCE` (R313). -/
theorem reduceWith_pixWritten (h : reduceWith pal s = .ok t) : PixWritten t := by
  obtain ⟨-, hpix, -⟩ := reduceWith_frame h
  rw [PixWritten, reduceWith_geom h]
  exact hpix.writtenBelow (reduceWith_written h)

/-- A completed hires `REDUCE` leaves no overflowing cell: every pixel has one of the two colours in its cell's entry (R173). -/
theorem reduceWith_not_overflows (h : reduceWith pal s = .ok t) (hmc : s.mc = false) (hr : row < t.geom.nby)
    (hc : col < t.geom.nbx) : ¬ CellOverflows pal t row col := by
  rintro ⟨e, he, xy, hxy, p, hp, hn⟩
  rw [reduceWith_geom h] at hr hc he hxy hp
  obtain ⟨f, k, -, hentry, hcolours⟩ := reduceWith_hires_colours h hmc hr hc
  obtain rfl : e = hiresEntry f k := Option.some.inj (he.symm.trans hentry)
  refine classify_ne_neither ?_ hn
  rw [asgN0_hiresEntry, asgN1_hiresEntry]
  exact (hcolours xy hxy).imp (fun hq => Except.ok.inj (hp.symm.trans hq)) fun hq => Except.ok.inj (hp.symm.trans hq)

theorem Inv.asg_writtenBelow (hs : Inv s) (ha : s.asgv = true) : s.asg.writtenBelow s.geom.nblk := fun n hn => by
  obtain ⟨e, he, -⟩ := hs.entries_ok ha n hn
  exact Option.isSome_of_mem he

/-! ## The statements -/

/-- Settles O46: the check pass runs in row-major order, passes the cells before the first overflow and ends there. -/
theorem encodeReportsTheFirstOverflowingCell : Obligations.EncodeReportsTheFirstOverflowingCell := by
  intro s row col hmc ha hw hasg hr hc hover hfirst
  rw [exec, execEncode, encodeWith_overflow hmc ha hw hasg hr hc hover hfirst]
  rfl

/-- Settles O47: with no overflow every check passes, and the write pass leaves the layout of `encodeWith_layout`. -/
theorem encodeWritesTheHiresLayout : Obligations.EncodeWritesTheHiresLayout := by
  intro s hmc ha hwid hhei hw hasg hnone
  obtain ⟨bitmap, cram, henc⟩ := encodeWith_completes hmc ha hwid hhei hw hasg hnone
  have hplanes := encodeWith_layout henc hwid hhei
  refine ⟨_, by rw [exec, execEncode, henc, finish_ok], rfl, hplanes.bitmap_ok.isSome_read_iff,
    hplanes.cram_ok.isSome_read_iff, fun x hx y hy => ?_, fun row hr col hc => ⟨fun e hrow hcol he => ?_, ?_⟩⟩
  · obtain ⟨v, hv, hbit⟩ := hplanes.bitmap_ok.exists_bit hx hy
    exact ⟨v, hv, hbit ▸ encodeWith_bit henc hwid hhei hx hy⟩
  · rw [← colourByte_eq]
    exact hplanes.covered row hrow col hcol e he
  · exact hplanes.uncovered row hr col hc

/-- Settles O48: `REDUCE` leaves a written image whose cells have entries and do not overflow. -/
theorem encodeAfterReduceCompletes : Obligations.EncodeAfterReduceCompletes := by
  intro s t hs hmc _ h hterr
  have ht := execReduce_completed h hterr
  have hinv := exec_keeps_inv hs h
  have ha := reduceWith_asgv ht
  obtain ⟨bitmap, cram, henc⟩ := encodeWith_completes ((reduceWith_mc ht).trans hmc) ha hinv.width_le hinv.height_le
    (reduceWith_pixWritten ht) (hinv.asg_writtenBelow ha) fun _ hr _ hc => reduceWith_not_overflows ht hmc hr hc
  exact ⟨t.setOutput bitmap cram false, by rw [exec, execEncode, henc, finish_ok], hterr, rfl, rfl, rfl⟩

/-- Settles O49: the check pass found the pixel in its cell's pair, and the bit says which of the two it is. -/
theorem encodedPlanesDecodeToThePicture : Obligations.EncodedPlanesDecodeToThePicture := by
  intro s t hs _ h hterr x hx y hy
  have ht := execEncode_completed h hterr
  have hwid := hs.width_le
  have hhei := hs.height_le
  have hplanes := encodeWith_layout ht hwid hhei
  obtain ⟨hr, hc, e, p, he, hp, hn⟩ := encodeWith_pixel ht hwid hhei hx hy
  obtain ⟨v, hv, hbit⟩ := hplanes.bitmap_ok.exists_bit (show x < 320 by omega) (show y < 200 by omega)
  refine ⟨v, colourByte (asgN0 e) (asgN1 e), hv, hplanes.covered _ hr _ hc e he, ?_⟩
  have hfg : v.getLsbD (7 - x % 8) = true ↔ classify Config.pal (asgN0 e) (asgN1 e) p = .foreground := by
    rw [hbit, hplanes.bit x (by omega) y (by omega), isForeground_iff he hp]
    exact ⟨fun h => h.2.2, fun h => ⟨hx, hy, h⟩⟩
  rw [colourByte_eq, highNibble_append, lowNibble_append, if_congr hfg rfl rfl, ← eq_palAt_of_ne_neither hn]
  exact hp

/-- Settles O45: the two checks come before anything is read or written, the mode first. -/
theorem encodeChecksModeThenAssignment : Obligations.EncodeChecksModeThenAssignment := by
  refine fun s => ⟨fun hmc => ?_, fun hmc ha => ?_⟩
  · rw [exec, execEncode, encodeWith_of_multicolor hmc]
    rfl
  · rw [exec, execEncode, encodeWith_of_no_assignment hmc ha]
    rfl

end Sys2Proof.Machine
end

section
/-! PROOFS. The family of spec/45_setup_and_access.md: the set-up commands (R230 to R234), the pixel port (R235, R236, R241) and the
reads of the outputs and the geometry (R237 to R240). Each command is a row of checks in the order of its rule, and behind them a
register update or the read of one element. -/

namespace Sys2Proof.Machine

variable {s : State}

/-! ## A check -/

section Check

variable {c : Prop} [Decidable c] {reason opcode : Byte} {x : Except Abort State}

/-- A command whose check fails writes the three error registers and nothing else (R276, R279). -/
theorem finish_check_fails (h : c) : finish s (if c then illegal reason opcode else x) =
    .next { s with err := true, errcode := 5, errinfo := reason ++ opcode } := by
  rw [if_pos h]
  rfl

/-- A command whose check passes goes on to what stands behind the check. -/
theorem finish_check_passes (h : ¬ c) : finish s (if c then illegal reason opcode else x) = finish s x := by
  rw [if_neg h]

end Check

/-! ## The read of one element -/

section Read

variable {α : Type} {sp : Space} {m : Memory α} {a : Nat} {f : α → State}

theorem readCell_of_unwritten (h : m.read a = none) : readCell sp m a = .error (.refuse (.unwritten sp a)) := by
  rw [readCell, h]

theorem finish_readCell_of_read {v : α} (h : m.read a = some v) :
    finish s (readCell sp m a >>= fun v => .ok (f v)) = .next (f v) := by
  rw [readCell_of_read h]
  rfl

theorem finish_readCell_of_unwritten (h : m.read a = none) :
    finish s (readCell sp m a >>= fun v => .ok (f v)) = .refused (.unwritten sp a) := by
  rw [readCell_of_unwritten h]
  rfl

end Read

/-- The read of a plane: the range, then `OUTV`, then the byte (R237, R238, R278). -/
theorem finish_readPlane (sp : Space) (m : Memory Byte) (size : Nat) (opcode : Byte) (a : Nat) (s : State) :
    (size ≤ a → finish s (readPlane sp m size opcode a s) =
      .next { s with err := true, errcode := 5, errinfo := (3 : Byte) ++ opcode }) ∧
    (a < size → s.outv = false → finish s (readPlane sp m size opcode a s) =
      .next { s with err := true, errcode := 5, errinfo := (4 : Byte) ++ opcode }) ∧
    (∀ v, a < size → s.outv = true → m.read a = some v → finish s (readPlane sp m size opcode a s) =
      .next { s with resp := v.setWidth 32 }) := by
  unfold readPlane
  refine ⟨finish_check_fails, fun ha ho => ?_, fun v ha ho hv => ?_⟩
  · rw [finish_check_passes (Nat.not_le.2 ha), finish_check_fails (by simp [ho])]
  · rw [finish_check_passes (Nat.not_le.2 ha), finish_check_passes (by simp [ho]), finish_readCell_of_read hv]
    rfl

/-- Two half-words side by side, as the shift and the or of R240. -/
theorem halfWords_append (hi lo : BitVec 16) : (hi ++ lo : Word32) = (hi.setWidth 32 <<< 16) ||| lo.setWidth 32 := by
  rw [BitVec.append_def, BitVec.shiftLeftZeroExtend_eq, BitVec.setWidth'_eq]

/-! ## The statements -/

/-- Settles O10: the operand is checked against `MAXW`, and then two registers are written. -/
theorem setwWritesWidth : Obligations.SetwWritesWidth := fun _ _ =>
  ⟨fun h => finish_check_passes (Nat.not_lt.2 h), fun h => finish_check_fails h⟩

/-- Settles O11: the operand is checked against `MAXH`, and then two registers are written. -/
theorem sethWritesHeight : Obligations.SethWritesHeight := fun _ _ =>
  ⟨fun h => finish_check_passes (Nat.not_lt.2 h), fun h => finish_check_fails h⟩

/-- Settles O12: the three commands have no check, and each is a composition of register updates. -/
theorem setmodeSetbgSetptrWriteTheirRegister : Obligations.SetmodeSetbgSetptrWriteTheirRegister :=
  ⟨fun _ _ _ => rfl, fun _ _ => rfl, fun _ _ => rfl⟩

/-- Settles O13: below `EXT` one byte of `PIX` is written, and a write changes what is read at its own address alone. -/
theorem wrpixStoresAtPtr : Obligations.WrpixStoresAtPtr := by
  refine fun v s => ⟨fun h => ⟨_, finish_check_passes (Nat.not_le.2 h), rfl, fun a => ?_⟩, fun h => finish_check_fails h⟩
  rw [State.setPtr_pix, State.setPix_pix, Memory.read_write, if_congr eq_comm rfl rfl]

/-- Settles O14: behind the bound the byte at `PTR` is there, or the run is refused. -/
theorem rdpixLoadsAtPtr : Obligations.RdpixLoadsAtPtr := fun _ =>
  ⟨fun _ h hv => (finish_check_passes (Nat.not_le.2 h)).trans (finish_readCell_of_read hv), fun h => finish_check_fails h,
    fun h hv => (finish_check_passes (Nat.not_le.2 h)).trans (finish_readCell_of_unwritten hv)⟩

/-- Settles O15: both commands are the one read of a plane, each with its own plane, size and opcode. -/
theorem rdbmpAndRdcramReadThePlanes : Obligations.RdbmpAndRdcramReadThePlanes :=
  ⟨fun a s => finish_readPlane .bitmap s.bitmap Config.bitmapBytes 0x08 a.toNat s,
    fun a s => finish_readPlane .cram s.cram Config.cramBytes 0x09 a.toNat s⟩

/-- Settles O16: `ASGV` is checked first, then the bound, and then the entry is read. -/
theorem rdasgReadsTheAssignment : Obligations.RdasgReadsTheAssignment := fun _ _ =>
  ⟨fun ha => finish_check_fails (by simp [ha]),
    fun ha h => (finish_check_passes (by simp [ha])).trans (finish_check_fails h),
    fun _ ha h he => (finish_check_passes (by simp [ha])).trans
      ((finish_check_passes (Nat.not_le.2 h)).trans (finish_readCell_of_read he))⟩

/-- Settles O17: the response is the two half-words side by side. -/
theorem rddimGivesTheDimensions : Obligations.RddimGivesTheDimensions := fun s =>
  ⟨s.setResp (s.height ++ s.width), rfl, rfl, halfWords_append s.height s.width⟩

end Sys2Proof.Machine
end

section
/-! PROOFS. The family of spec/46_system.md: `NOP` (R260), `RDERR` (R262) and `SRESET` (R263), executed and presented. What is new
here is the presented word: with `ERR = 0` the decoder reads the command back, and with `ERR = 1` the word is honoured or
discarded. -/

namespace Sys2Proof.Machine

variable {s : State}

/-! ## Presented words -/

/-- With `ERR = 0` the word that spells a command executes it (R97). -/
theorem issue_encode_of_no_err (i : Instr) (herr : s.err = false) : issue (encode i) s = exec i s := by
  rw [issue_of_no_err herr, issueAccepted_of_command (decode_encode i)]

/-- `SRESET` is one of the three words that a recorded fault lets through (R97, R281). -/
theorem issue_encode_sreset (s : State) : issue (encode .sreset) s = exec .sreset s := by
  cases herr : s.err with
  | false => exact issue_encode_of_no_err .sreset herr
  | true => rw [issue_of_err herr]; rfl

/-- `NOP` is discarded by a recorded fault, which is all that it does itself (R260, R281). -/
theorem issue_encode_nop (s : State) : issue (encode .nop) s = .next s := by
  cases herr : s.err with
  | false => exact issue_encode_of_no_err .nop herr
  | true => rw [issue_of_err herr]; rfl

/-- Of the words with opcode 0 only the all-zero word spells a command (R93, R94). -/
theorem decode_of_opField_zero {cw : Word32} (hop : opField cw = 0) (hne : cw ≠ 0) :
    decode cw = .illegal .reservedBit := by
  have hmask : cw &&& 0xFFFFFFFF = cw := BitVec.and_allOnes
  exact decode_reservedBit_iff.2 ⟨⟨"NOP", 0x00000000, 0xFFFFFFFF⟩, by decide, hop, hmask.symm ▸ hne⟩

/-! ## The statements -/

/-- Settles O9: each of the three ways is the one reset of the block, and the reset state lists no element. -/
theorem sresetEqualsTheResetPort : Obligations.SresetEqualsTheResetPort :=
  ⟨fun s _ => ⟨rfl, rfl, issue_encode_sreset s⟩, fun a =>
    ⟨Memory.read_nil a, Memory.read_nil a, Memory.read_nil a, Memory.read_nil a⟩⟩

/-- Settles O19: the zero extension puts 16 zero bits above `ERRINFO`, which the invariant keeps 0 while no fault is recorded. -/
theorem rderrGivesErrinfo : Obligations.RderrGivesErrinfo := by
  intro s
  have hexec : exec .rderr s = .next { s with resp := 0#16 ++ s.errinfo } :=
    congrArg (fun r => Host.Outcome.next (s.setResp r)) (BitVec.setWidth_eq_append (by decide))
  refine ⟨hexec, fun hs herr => ?_⟩
  rw [hexec, hs.errinfo_clear herr]
  rfl

/-- Settles O20: `NOP` has no effect to discard, and any other word with its opcode sets a reserved bit. -/
theorem nopChangesNothing : Obligations.NopChangesNothing := by
  refine fun s => ⟨rfl, issue_encode_nop s, fun cw hop hne herr => ?_⟩
  rw [issue_of_no_err herr, issueAccepted_of_reservedBit (decode_of_opField_zero hop hne), hop]
  rfl

end Sys2Proof.Machine
end

section
/-! PROOFS. The family of spec/60_exceptions.md: the input ports (R285, R293), a recorded fault (R281 to R283), the errors of each
command (R276, R277, R280), and that every step of a written image answers a next state (R294). What a command raises is
`exec_cases`; new here are the rules of the step per kind of moment, and what the faulted regime answers. -/

namespace Sys2Proof.Machine

variable {s : State}

/-! ## One moment of the input ports -/

section Moment

variable {p : PortInput} {rest : List PortInput}

/-- The step acts on the first moment of the port, once that moment has been taken off (R12). -/
theorem step_of_port (hport : s.port = p :: rest) : step s = takeInput p (s.setPort rest) := by rw [step, hport]

theorem step_of_port_nil (hport : s.port = []) : step s = .next s := by rw [step, hport]

theorem takeInput_of_rst (hrst : p.rst = true) : takeInput p s = .next (resetBlock s) := if_pos hrst

theorem takeInput_of_idle (hrst : p.rst = false) (hcmd : p.cmd = none) : takeInput p s = .next s := by
  simp [takeInput, hrst, hcmd]

theorem takeInput_of_cmd {cw : Word32} (hrst : p.rst = false) (hcmd : p.cmd = some cw) : takeInput p s = issue cw s := by
  simp [takeInput, hrst, hcmd]

/-- A property of answers that reset, idleness and every word have is one that every moment has (R285, R293). -/
theorem takeInput_of_each {P : Result → Prop} (hreset : P (.next (resetBlock s))) (hidle : P (.next s))
    (hword : ∀ cw, P (issue cw s)) (p : PortInput) : P (takeInput p s) := by
  cases hrst : p.rst with
  | true => rwa [takeInput_of_rst hrst]
  | false =>
    cases hcmd : p.cmd with
    | none => rwa [takeInput_of_idle hrst hcmd]
    | some cw => rw [takeInput_of_cmd hrst hcmd]; exact hword cw

end Moment

/-! ## A recorded fault -/

/-- What a block with a recorded fault answers: at most `RESP` is written, or it is a reset (R281, R282). -/
def FaultedAnswer (s : State) (x : Result) : Prop := ∃ t, x = .next t ∧ ((∃ r, t = s.setResp r) ∨ t = resetBlock s)

/-- Leaving the state alone writes `RESP` with what it holds. -/
theorem FaultedAnswer.self (s : State) : FaultedAnswer s (.next s) := ⟨s, rfl, .inl ⟨s.resp, rfl⟩⟩

theorem FaultedAnswer.reset (s : State) : FaultedAnswer s (.next (resetBlock s)) := ⟨_, rfl, .inr rfl⟩

/-- `RDSTAT` and `RDERR` write `RESP`, `SRESET` resets, and every other word is discarded (R281). -/
theorem issueFaulted_answer (cw : Word32) (s : State) : FaultedAnswer s (issueFaulted cw s) := by
  unfold issueFaulted
  split
  · exact ⟨_, rfl, .inl ⟨_, rfl⟩⟩
  · split
    · exact ⟨_, rfl, .inl ⟨_, rfl⟩⟩
    · split
      · exact .reset s
      · exact .self s

theorem takeInput_answer_of_err (herr : s.err = true) (p : PortInput) : FaultedAnswer s (takeInput p s) :=
  takeInput_of_each (.reset s) (.self s) (fun cw => issue_of_err (cw := cw) herr ▸ issueFaulted_answer cw s) p

/-! ## A written image -/

/-- There is no fault to end with, and a refusal would need an unwritten byte of the image (R67, R294). -/
theorem exec_answers_next (hs : Inv s) (hw : PixWritten s) (i : Instr) : ∃ t, exec i s = .next t := by
  cases h : exec i s with
  | next t => exact ⟨t, rfl⟩
  | fault f => exact nomatch f
  | refused r =>
    obtain ⟨-, a, ha, -, hnone⟩ := onlyUnwrittenPixelsAreRefused i s r hs h
    exact absurd (hw a ha) (by simp [hnone])

/-- A word executes its command, or raises the illegal-command error, or falls under the faulted regime (R95 to R97, R281). -/
theorem issue_answers_next (hs : Inv s) (hw : PixWritten s) (cw : Word32) : ∃ t, issue cw s = .next t := by
  cases herr : s.err with
  | true =>
    obtain ⟨t, ht, -⟩ := issueFaulted_answer cw s
    exact ⟨t, (issue_of_err herr).trans ht⟩
  | false =>
    rw [issue_of_no_err herr]
    cases hd : decode cw with
    | command i => rw [issueAccepted_of_command hd]; exact exec_answers_next hs hw i
    | illegal why =>
      cases why with
      | unknownOpcode => exact ⟨_, issueAccepted_of_unknownOpcode hd⟩
      | reservedBit => exact ⟨_, issueAccepted_of_reservedBit hd⟩

theorem takeInput_answers_next (hs : Inv s) (hw : PixWritten s) (p : PortInput) : ∃ t, takeInput p s = .next t :=
  takeInput_of_each (P := fun x => ∃ t, x = .next t) ⟨_, rfl⟩ ⟨_, rfl⟩ (issue_answers_next hs hw) p

/-! ## The statements -/

/-- Settles O7: the moment is taken off the port, and what a faulted block then answers keeps the error or is the reset. -/
theorem recordedFaultStaysUntilReset : Obligations.RecordedFaultStaysUntilReset := by
  intro s p rest herr hport
  rw [step_of_port hport]
  obtain ⟨t, ht, ⟨r, rfl⟩ | rfl⟩ := takeInput_answer_of_err (s := s.setPort rest) herr p
  · exact ⟨_, ht, .inl rfl⟩
  · exact ⟨_, ht, .inr rfl⟩

/-- Settles O50: a command that faults has only raised its error upon the state it started in. -/
theorem faultsArePrecise : Obligations.FaultsArePrecise := by
  intro i s t h hs ht
  obtain ⟨e, hi, lo, rfl⟩ := exec_eq_raise h hs ht
  rfl

/-- Settles O51: a command that completes leaves `ERR` at 0, and the error of one that does not stands in its list. -/
theorem commandsRaiseOnlyTheirErrors : Obligations.CommandsRaiseOnlyTheirErrors := by
  intro i s t h hs ht
  rcases exec_cases h with ⟨e, hi, lo, ⟨x, hx, hcode, hinfo⟩, rfl⟩ | hc
  · refine ⟨x, hx, hcode, fun reason hr => ?_⟩
    obtain ⟨rfl, rfl⟩ := hinfo reason hr
    rfl
  · rw [hc.err hs] at ht
    cases ht

/-- Settles O60: of all that can be presented only a command can be refused, and none is where the image is written. -/
theorem stepsOfWrittenImagesComplete : Obligations.StepsOfWrittenImagesComplete := by
  intro s hs hw
  cases hport : s.port with
  | nil => exact ⟨s, step_of_port_nil hport⟩
  | cons p rest =>
    rw [step_of_port hport]
    exact takeInput_answers_next (hs.setPort rest) hw p

/-- Settles O5: the step takes the moment off the port, which a reset of the block leaves as it is. -/
theorem resetInputWinsAndIdleHolds : Obligations.ResetInputWinsAndIdleHolds :=
  ⟨fun _ _ _ hport =>
      ⟨fun hrst => (step_of_port hport).trans (takeInput_of_rst hrst),
        fun hrst hcmd => (step_of_port hport).trans (takeInput_of_idle hrst hcmd)⟩,
    fun _ hport => step_of_port_nil hport⟩

end Sys2Proof.Machine
end

section
/-! PROOFS. The family of spec/70_reset_and_hazards.md: the state after reset (R311), and that the host's duty `PixWritten`, once
done, stays done until the geometry changes (R313, R317). A command that completes only adds written bytes, and `EXT` is made of
`WIDTH` and `HEIGHT` alone, which only `SETW`, `SETH` and reset write. -/

namespace Sys2Proof.Machine

variable {i : Instr} {s t : State}

/-! ## A written image -/

/-- The image of a reset block is 0 by 0, so no byte of it is unwritten (R311). -/
theorem pixWritten_resetBlock (s : State) : PixWritten (resetBlock s) := fun a ha => absurd ha (Nat.not_lt_zero a)

/-- A command that completes erases no byte below `EXT`, and moves `EXT` only where it sets a dimension or resets (R313, R317). -/
theorem Completes.pixWritten (h : Completes i s t) (hw : PixWritten s) (hsetw : ∀ v, i ≠ .setw v)
    (hseth : ∀ v, i ≠ .seth v) : PixWritten t := by
  cases i <;> simp only [Completes] at h
  case setw v => exact absurd rfl (hsetw v)
  case seth v => exact absurd rfl (hseth v)
  case wrpix v => obtain ⟨-, rfl⟩ := h; exact Memory.writtenBelow_write hw _ v
  case dither => obtain ⟨pix, rfl, hk⟩ := h; exact hk.writtenBelow hw
  case reduce => obtain ⟨m, rfl, hk, -⟩ := h; exact hk.pix.writtenBelow hw
  case sreset => subst h; exact pixWritten_resetBlock s
  case rdpix => obtain ⟨-, v, -, rfl⟩ := h; exact hw
  case encode => obtain ⟨-, -, planes, rfl, -⟩ := h; exact hw
  case nop | setmode | setbg | setptr => subst h; exact hw
  all_goals obtain ⟨r, rfl⟩ := h; exact hw

/-! ## The statements -/

/-- Settles O58: an error leaves `PIX` and the geometry as they were, and a command that completes keeps the image written. -/
theorem writtenImageStaysWritten : Obligations.WrittenImageStaysWritten := by
  intro i s t hw h hsetw hseth
  rcases exec_cases h with ⟨e, hi, lo, -, rfl⟩ | hc
  · exact hw
  · exact hc.pixWritten hw hsetw hseth

/-- Settles O8: the registers and flags are those of the reset block, and its empty port presents nothing. -/
theorem resetStateIsAllZero : Obligations.ResetStateIsAllZero :=
  ⟨rfl, rfl, rfl, rfl, rfl, rfl, rfl, rfl, rfl, rfl, rfl, rfl, rfl, rfl, step_of_port_nil rfl⟩

end Sys2Proof.Machine
end
